-- ==== Sys2Proof/Word.lean ====
section
/-! DEFINITION. The values the block moves (00_scope.md R11): unsigned bytes, 7-bit addresses,
2-bit result codes. Bit 0 is the least significant bit. -/

namespace Sys2Proof

/-- A byte, an unsigned 8-bit value (R11). -/
abbrev Byte := BitVec 8

/-- A 7-bit bus address (R37, R51). -/
abbrev Addr7 := BitVec 7

/-- A master result code, 2 bits (R108). -/
abbrev Rc := BitVec 2

end Sys2Proof
end

