-- ==== Sys2Proof/Config.lean ====
section
/-! DEFINITION. What the spec leaves to the model's caller (00_scope.md R10) and the free values.

The parameters are one record, held in the state and never changed by a step, so that a statement
about every state is a statement about every value of them (log 4). A free value is an opaque
constant applied to the draw counter of the state: nothing in Lean can evaluate it (log 10). -/

namespace Sys2Proof

/-- What stands for the outside of the core (log 16, log 19). `events`: the environment of 41_hal.md,
which delivers whole events. `halBench`: the same, with the slave HAL surface exercised on its own
before INITIALIZE (95_test_vectors.md 2.3; log 8). `bits`: an unnamed master clocks the wire bit by
bit, which the wire rows of opcode_table.json are. `wire m`: the composition of 45_bus.md with the
master engine of node m, "one master" (R300). -/
inductive Env where
  | events
  | halBench
  | bits
  | wire (master : Nat)
  deriving DecidableEq, Repr

/-- The environment delivers starts as events: on the composed wire a start is the wire's S (R305). In
`bits` the bit slots are those of one wire that all nodes share, but a start is still delivered to one node
at a time, as its EV_START: no row of opcode_table.json is an S, and the unnamed master's S is the EV_STARTs
the environment delivers, in any order, to the nodes it chooses (DESIGN CHOICE, log 16). -/
def Env.starts : Env → Bool
  | .wire _ => false
  | .events | .halBench | .bits => true

/-- The environment delivers completed shifts as events: where bits are clocked, a shift completes at
its last bit slot (R304). -/
def Env.shifts : Env → Bool
  | .events | .halBench => true
  | .bits | .wire _ => false

/-- The open parameters of 00_scope.md R10. NSLAVES is the number of slave nodes the state holds and
RX_N, TX_N are the capacities of their rings (R30). The last field is the model's own (log 19). -/
structure Params where
  indexBits         : Nat
  lenMax            : Nat
  stStartSent       : Byte
  stAddrWAck        : Byte
  stAddrRAck        : Byte
  stDataTxAck       : Byte
  stDataRxAck       : Byte
  stAddrWNack       : Byte
  stAddrRNack       : Byte
  stDataTxNack      : Byte
  stDataRxNack      : Byte
  txStopOnEarlyFail : Bool
  env               : Env
  deriving DecidableEq, Repr

/-- The constraint R10 puts on the statuses: each NACK status differs from its ACK counterpart. -/
def Params.statusesDiffer (p : Params) : Bool :=
  p.stAddrWNack != p.stAddrWAck && p.stAddrRNack != p.stAddrRAck &&
  p.stDataTxNack != p.stDataTxAck && p.stDataRxNack != p.stDataRxAck

/-- The values the state after reset uses: INDEX_BITS, LEN_MAX and TX_STOP_ON_EARLY_FAIL are R10's
defaults; the statuses are the conventional set 93_implementation_defined.md K7 lists
(PRESUMED, log 4). -/
def Params.default : Params where
  indexBits         := 8
  lenMax            := 255
  stStartSent       := 0x08
  stAddrWAck        := 0x18
  stAddrRAck        := 0x40
  stDataTxAck       := 0x28
  stDataRxAck       := 0x50
  stAddrWNack       := 0x20
  stAddrRNack       := 0x48
  stDataTxNack      := 0x30
  stDataRxNack      := 0x58
  txStopOnEarlyFail := true
  env               := .events

/-- A byte the spec leaves open ("any value"), the n-th one drawn: hal.sr[7:1] after a 1-bit shift
(R168), an output buffer byte after a failed receive (R263), a slot of a created byte ring (R140). -/
opaque Config.freeByte : Nat → Byte

/-- An element of a stand-alone ring's type T the spec leaves open (R140), the n-th one drawn. -/
opaque Config.freeElem : Nat → Nat

end Sys2Proof
end

