-- ==== Sys2Proof/Syntax.lean ====
section
/-! DEFINITION. The operations of the block as syntax: one constructor of `Instr` for each row of
opcode_table.json (30_encoding.md R114 and the wire rows of R101-R105), with the typed operands of
R115. Operands are as passed: a range the spec checks at run time is not a restriction here. -/

namespace Sys2Proof

/-- Who issues an operation (00_scope.md R15, 60_exceptions.md R340). `isr` is the slave engine
inside its handlers; `masterEngine` is the master engine inside a call; `wire` is the environment
of 45_bus.md; `ringProducer q` and `ringConsumer q` are the one declared producer and consumer of
the stand-alone ring q (40_ringbuffer.md R146): agents of their own, and no context of a node (DESIGN
CHOICE, log 32); `tester` is R340's stand-alone test agent acting as the consumer of eng.tx; `creator` is
instance creation. -/
inductive Agent where
  | env
  | wire
  | isr
  | slaveFg
  | masterFg
  | masterEngine
  | creator
  | ringProducer (q : Nat)
  | ringConsumer (q : Nat)
  | tester
  deriving DecidableEq, Repr

/-- The slave HAL actions (41_hal.md R160-R165), the entries of hal.trace. -/
inductive SAct where
  | armShift (k : Nat)
  | setLineDriven (d : Bool)
  | readSr
  | writeSr (v : Byte)
  | rearmStart
  deriving DecidableEq, Repr

/-- The master HAL actions (41_hal.md R176-R183), the entries of mh.trace. -/
inductive MAct where
  | start
  | write (v : Byte)
  | readAck
  | readNack
  | stop
  | poll
  | status
  | readData
  deriving DecidableEq, Repr

/-- A reference to a caller byte buffer with a known size (R115): where it starts in the caller's
memory and its size, `none` where the size is not known, which WF_BUF refuses (log 11, log 26). -/
structure BufRef where
  base : Nat
  size : Option Nat
  deriving DecidableEq, Repr

/-- The classes of an address byte at a slave (30_encoding.md R103). -/
inductive AddrClass where
  | generalCall
  | ownWrite
  | ownRead
  | noMatch
  deriving DecidableEq, Repr

/-- One constructor per row of opcode_table.json. A ring reference q is 0 for eng.rx, 1 for eng.tx,
and any other number for a stand-alone ring (R115). An element x of a ring's type T is a number: a
byte for the slave's rings, any number (the name of an opaque value) for a stand-alone ring
(R31, R141; log 12). -/
inductive Instr where
  | evStart
  | evShift (w : Byte)
  | evOther
  | initEngine (a : Byte)
  | sendChar (b : Byte)
  | charAvailable
  | receiveChar
  | sleep
  | rbInit (q : Nat) (n : Nat)
  | rbPush (q : Nat) (x : Nat)
  | rbPop (q : Nat)
  | rbHasData (q : Nat)
  | mTransmit (a : Byte) (buf : BufRef) (len : Nat)
  | mReceive (a : Byte) (out : BufRef) (len : Nat)
  | armShift (k : Nat)
  | setLineDriven (d : Bool)
  | readSr
  | writeSr (v : Byte)
  | rearmStart
  | mhStart
  | mhWrite (v : Byte)
  | mhReadAck
  | mhReadNack
  | mhStop
  | mhPoll
  | mhStatus
  | mhReadData
  | envMComplete (st : Byte) (d : Byte)
  | addrGeneralCall
  | addrOwnWrite (a : Addr7)
  | addrOwnRead (a : Addr7)
  | addrNoMatch (a : Addr7) (rw : Bool)
  | masterAddrWrite (a : Addr7)
  | masterAddrRead (a : Addr7)
  | wireAck
  | wireNack
  deriving DecidableEq, Repr

/-- The operation that issues a master HAL action. -/
def MAct.toInstr : MAct → Instr
  | .start    => .mhStart
  | .write v  => .mhWrite v
  | .readAck  => .mhReadAck
  | .readNack => .mhReadNack
  | .stop     => .mhStop
  | .poll     => .mhPoll
  | .status   => .mhStatus
  | .readData => .mhReadData

end Sys2Proof
end

