-- ==== Sys2Proof/WellFormed.lean ====
section
/-! DEFINITION. The well-formedness checks of 30_encoding.md R119 by name, the refusal each leads to
(60_exceptions.md R333), and the checks that need nothing but the operation and the parameters. The
two checks that need the state, WF_RING and WF_AGENT, are in Machine/Agents.lean, where all six are
put together. -/

namespace Sys2Proof

/-- The closed list of refusal reasons (60_exceptions.md R333). -/
inductive RefuseReason where
  | unassignedWord
  | badOperand
  | badConfig
  | wrongAgent
  | corruptState
  deriving DecidableEq, Repr

/-- The checks of 30_encoding.md R119. -/
inductive WfCheck where
  | word
  | k
  | ring
  | agent
  | cfg
  | buf
  deriving DecidableEq, Repr

/-- The reason an operation that fails a check is refused with (R333, column "check"). -/
def WfCheck.reason : WfCheck → RefuseReason
  | .word  => .unassignedWord
  | .k     => .badOperand
  | .ring  => .badOperand
  | .agent => .wrongAgent
  | .cfg   => .badConfig
  | .buf   => .badOperand

/-- WF_WORD as far as a term can break it: a listed word whose operand has not the shape R115 gives
it, an element of a slave ring that is no byte, is an operation shape no rule covers
(R333; log 25). Undecodable words are refused before there is a term. -/
def Instr.shapeOk : Instr → Bool
  | .rbPush q x => decide (2 ≤ q) || decide (x < 256)
  | _           => true

/-- WF_K: ARM_SHIFT's k is 1 or 8. -/
def Instr.kOk : Instr → Bool
  | .armShift k => k == 1 || k == 8
  | _           => true

/-- A ring's capacity is admitted: 1 <= N <= 2^INDEX_BITS (R10, R119 WF_CFG, R140). -/
def ringConfigOk (indexBits n : Nat) : Bool :=
  decide (1 ≤ n) && decide (n ≤ 2 ^ indexBits)

/-- WF_CFG: the ring an RB_INIT creates has an admitted capacity. -/
def Instr.cfgOk (indexBits : Nat) : Instr → Bool
  | .rbInit _ n => ringConfigOk indexBits n
  | _           => true

/-- WF_BUF: buf and out refer to byte buffers of known size. -/
def Instr.bufOk : Instr → Bool
  | .mTransmit _ buf _ => buf.size.isSome
  | .mReceive _ out _  => out.size.isSome
  | _                  => true

/-- The checks that need no state, together: what the smoke tests of Tests/Slice0.lean exercise. -/
def Instr.wellFormed (p : Params) (i : Instr) : Bool :=
  i.shapeOk && i.kOk && i.cfgOk p.indexBits && i.bufOk

end Sys2Proof
end

