-- ==== Sys2Proof/Decode.lean ====
section
/-! DEFINITION. Decoding and encoding. The block has two layers of encoding (30_encoding.md): the
operation layer, an 8-bit word and an operand record (R112-R115), and the wire layer, address bytes
and acknowledge bits (R101-R105). The same eight bits mean different things in different layers, so
what is decoded carries the layer's format, opcode_table.json's "format" column (log 7). The record
is a list of typed fields, each given as a number (log 6). Both directions are total. -/

namespace Sys2Proof

/-- opcode_table.json's formats: an operation word (R112), an address byte as a slave receives it
(R101), an address byte as the master assembles it (R104), an acknowledge bit (R105). -/
inductive Format where
  | opword
  | addrByte
  | masterAddrByte
  | ackBit
  deriving DecidableEq, Repr

/-- Why something is not decoded. Both are refused as UNASSIGNED_WORD (R333; log 25). -/
inductive DecodeError where
  /-- The operation word is reserved (R117), or the acknowledge bit is no bit. -/
  | unassignedWord
  /-- The word is listed, but the record has not the shape the word fixes (R123). -/
  | badRecord
  deriving DecidableEq, Repr

/-- The outcome of decoding. -/
inductive Decoded where
  | ok (i : Instr)
  | reject (e : DecodeError)
  deriving DecidableEq, Repr

def Decoded.toOption : Decoded → Option Instr
  | .ok i     => some i
  | .reject _ => none

/-! ### Bit fields of the wire layer -/

/-- The address byte the master assembles (R104): `(address << 1) | 0` for transmit and
`(address << 1) | 1` for receive. -/
def addrByte (a : Addr7) (rw : Bool) : Byte :=
  (a.setWidth 8 <<< 1) ||| (if rw then 1#8 else 0#8)

/-- b[7:1], the address field of an address byte (R101). -/
def addrField (b : Byte) : Addr7 := b.extractLsb' 1 7

/-- b[0], the rw bit of an address byte (R101): true is "master reads from slave". -/
def rwField (b : Byte) : Bool := b.getLsbD 0

/-- Classifying an address byte at a slave with own address `own` (R103). -/
def classify (b : Byte) (own : Addr7) : AddrClass :=
  if b = 0#8 then .generalCall
  else if addrField b = own ∧ rwField b = false then .ownWrite
  else if addrField b = own ∧ rwField b = true then .ownRead
  else .noMatch

/-! ### Operand records (R115, R123) -/

/-- A record with no field. -/
def rec0 (r : List Nat) (i : Instr) : Decoded :=
  match r with
  | [] => .ok i
  | _  => .reject .badRecord

/-- A record of one u8. -/
def recByte (r : List Nat) (f : Byte → Instr) : Decoded :=
  match r with
  | [x] => if x < 256 then .ok (f (BitVec.ofNat 8 x)) else .reject .badRecord
  | _   => .reject .badRecord

/-- A record of two u8. -/
def recBytes (r : List Nat) (f : Byte → Byte → Instr) : Decoded :=
  match r with
  | [x, y] =>
    if x < 256 ∧ y < 256 then .ok (f (BitVec.ofNat 8 x) (BitVec.ofNat 8 y)) else .reject .badRecord
  | _ => .reject .badRecord

/-- A record of one number. -/
def recNat (r : List Nat) (f : Nat → Instr) : Decoded :=
  match r with
  | [x] => .ok (f x)
  | _   => .reject .badRecord

/-- A record of two numbers. -/
def recNats (r : List Nat) (f : Nat → Nat → Instr) : Decoded :=
  match r with
  | [x, y] => .ok (f x y)
  | _      => .reject .badRecord

/-- A record of one Bool, 1 = true and 0 = false (R110). -/
def recBool (r : List Nat) (f : Bool → Instr) : Decoded :=
  match r with
  | [0] => .ok (f false)
  | [1] => .ok (f true)
  | _   => .reject .badRecord

/-- The size field of a buffer reference: a tag, 0 where the size is known, then the size. -/
def bufSize (tag size : Nat) : Option (Option Nat) :=
  match tag, size with
  | 0, n => some (some n)
  | 1, 0 => some none
  | _, _ => none

/-- The record of a master call: a, the buffer's base, tag and size, and len. -/
def recCall (r : List Nat) (f : Byte → BufRef → Nat → Instr) : Decoded :=
  match r with
  | [a, base, tag, size, len] =>
    match bufSize tag size with
    | some sz => if a < 256 then .ok (f (BitVec.ofNat 8 a) ⟨base, sz⟩ len) else .reject .badRecord
    | none    => .reject .badRecord
  | _ => .reject .badRecord

/-- Decoding an operation: the word selects the operation, the record gives its operands (R114). -/
def decodeOp (word : Byte) (r : List Nat) : Decoded :=
  match word.toNat with
  | 0x00 => rec0 r .evStart
  | 0x01 => recByte r .evShift
  | 0x02 => rec0 r .evOther
  | 0x10 => recByte r .initEngine
  | 0x11 => recByte r .sendChar
  | 0x12 => rec0 r .charAvailable
  | 0x13 => rec0 r .receiveChar
  | 0x14 => rec0 r .sleep
  | 0x20 => recNats r .rbInit
  | 0x21 => recNats r .rbPush
  | 0x22 => recNat r .rbPop
  | 0x23 => recNat r .rbHasData
  | 0x30 => recCall r .mTransmit
  | 0x31 => recCall r .mReceive
  | 0x40 => recNat r .armShift
  | 0x41 => recBool r .setLineDriven
  | 0x42 => rec0 r .readSr
  | 0x43 => recByte r .writeSr
  | 0x44 => rec0 r .rearmStart
  | 0x50 => rec0 r .mhStart
  | 0x51 => recByte r .mhWrite
  | 0x52 => rec0 r .mhReadAck
  | 0x53 => rec0 r .mhReadNack
  | 0x54 => rec0 r .mhStop
  | 0x55 => rec0 r .mhPoll
  | 0x56 => rec0 r .mhStatus
  | 0x57 => rec0 r .mhReadData
  | 0x60 => recBytes r .envMComplete
  | _    => .reject .unassignedWord

/-- How many record fields the operation word fixes (R123); 0 for a reserved word. -/
def arity (word : Byte) : Nat :=
  match word.toNat with
  | 0x01 | 0x10 | 0x11 | 0x22 | 0x23 | 0x40 | 0x41 | 0x43 | 0x51 => 1
  | 0x20 | 0x21 | 0x60 => 2
  | 0x30 | 0x31 => 5
  | _ => 0

/-- The address byte a slave with own address `own` has received (R101-R103): the class decides the
row, and every byte falls in exactly one class. -/
def decodeAddr (own : Addr7) (b : Byte) : Instr :=
  match classify b own with
  | .generalCall => .addrGeneralCall
  | .ownWrite    => .addrOwnWrite (addrField b)
  | .ownRead     => .addrOwnRead (addrField b)
  | .noMatch     => .addrNoMatch (addrField b) (rwField b)

/-- The address byte the master assembles (R104). -/
def decodeMasterAddr (b : Byte) : Instr :=
  if rwField b then .masterAddrRead (addrField b) else .masterAddrWrite (addrField b)

/-- The decoder: total on any format, bits and record. `own` is the own address of the slave that
reads an address byte; no other format looks at it. -/
def decode (own : Addr7) (fmt : Format) (bits : Byte) (r : List Nat) : Decoded :=
  match fmt with
  | .opword         => decodeOp bits r
  | .addrByte       => rec0 r (decodeAddr own bits)
  | .masterAddrByte => rec0 r (decodeMasterAddr bits)
  | .ackBit         =>
    match bits.toNat with
    | 0 => rec0 r .wireAck
    | 1 => rec0 r .wireNack
    | _ => .reject .unassignedWord

/-! ### The encoder, from the same tables -/

/-- An encoded operation: its format, its bits and its operand record. -/
structure Encoded where
  fmt    : Format
  bits   : Byte
  fields : List Nat
  deriving DecidableEq, Repr

def Encoded.op (bits : Byte) (fields : List Nat) : Encoded := ⟨.opword, bits, fields⟩

def encodeBool (b : Bool) : Nat := if b then 1 else 0

/-- The record fields of a buffer reference: base, tag, size. -/
def BufRef.fields (b : BufRef) : List Nat :=
  match b.size with
  | some n => [b.base, 0, n]
  | none   => [b.base, 1, 0]

/-- The encoded form of an operation (R114, R115, R120) or of a wire row (R101, R104, R105). -/
def encode : Instr → Encoded
  | .evStart            => .op 0x00 []
  | .evShift w          => .op 0x01 [w.toNat]
  | .evOther            => .op 0x02 []
  | .initEngine a       => .op 0x10 [a.toNat]
  | .sendChar b         => .op 0x11 [b.toNat]
  | .charAvailable      => .op 0x12 []
  | .receiveChar        => .op 0x13 []
  | .sleep              => .op 0x14 []
  | .rbInit q n         => .op 0x20 [q, n]
  | .rbPush q x         => .op 0x21 [q, x]
  | .rbPop q            => .op 0x22 [q]
  | .rbHasData q        => .op 0x23 [q]
  | .mTransmit a b len  => .op 0x30 (a.toNat :: b.fields ++ [len])
  | .mReceive a b len   => .op 0x31 (a.toNat :: b.fields ++ [len])
  | .armShift k         => .op 0x40 [k]
  | .setLineDriven d    => .op 0x41 [encodeBool d]
  | .readSr             => .op 0x42 []
  | .writeSr v          => .op 0x43 [v.toNat]
  | .rearmStart         => .op 0x44 []
  | .mhStart            => .op 0x50 []
  | .mhWrite v          => .op 0x51 [v.toNat]
  | .mhReadAck          => .op 0x52 []
  | .mhReadNack         => .op 0x53 []
  | .mhStop             => .op 0x54 []
  | .mhPoll             => .op 0x55 []
  | .mhStatus           => .op 0x56 []
  | .mhReadData         => .op 0x57 []
  | .envMComplete st d  => .op 0x60 [st.toNat, d.toNat]
  | .addrGeneralCall    => ⟨.addrByte, 0x00, []⟩
  | .addrOwnWrite a     => ⟨.addrByte, addrByte a false, []⟩
  | .addrOwnRead a      => ⟨.addrByte, addrByte a true, []⟩
  | .addrNoMatch a rw   => ⟨.addrByte, addrByte a rw, []⟩
  | .masterAddrWrite a  => ⟨.masterAddrByte, addrByte a false, []⟩
  | .masterAddrRead a   => ⟨.masterAddrByte, addrByte a true, []⟩
  | .wireAck            => ⟨.ackBit, 0, []⟩
  | .wireNack           => ⟨.ackBit, 1, []⟩

/-- The term is the class of its own byte at a slave with own address `own` (R103): the row
ADDR_OWN_WRITE "must equal eng.ownAddress (1..127)", the row ADDR_NO_MATCH is every other byte. -/
def Instr.coherent (own : Addr7) : Instr → Bool
  | .addrOwnWrite a   => a == own && own != 0
  | .addrOwnRead a    => a == own && own != 0
  | .addrNoMatch a rw => a != own && !(a == 0 && !rw)
  | _                 => true

/-! ### The table's numbering -/

/-- Byte j of the bits w, the first byte being byte 0. -/
def byteAt (w j : Nat) : Nat := w / 2 ^ (8 * j) % 256

/-- The operation word and the record that the bits w of an instruction stand for: the first byte is
the operation word, and each record field after it is given one byte, zero above nbits. -/
def tableFields (nbits w : Nat) : Byte × List Nat :=
  let v := w % 2 ^ nbits
  let word := BitVec.ofNat 8 (byteAt v 0)
  (word, (List.range (arity word)).map (fun j => byteAt v (j + 1)))

/-- What the decoder reads from an instruction numbered as opcode_table.json numbers it: the
operation layer, which is what a step fetches as an operation (log 7). -/
def decodeTableWord (nbits w : Nat) : Option Instr :=
  let f := tableFields nbits w
  (decodeOp f.1 f.2).toOption

/-- The row's mnemonic in opcode_table.json. -/
def Instr.mnemonic : Instr → String
  | .evStart            => "EV_START"
  | .evShift _          => "EV_SHIFT"
  | .evOther            => "EV_OTHER"
  | .initEngine _       => "INITIALIZE"
  | .sendChar _         => "SEND_CHAR"
  | .charAvailable      => "CHAR_AVAILABLE"
  | .receiveChar        => "RECEIVE_CHAR"
  | .sleep              => "SLEEP"
  | .rbInit _ _         => "RB_INIT"
  | .rbPush _ _         => "RB_PUSH"
  | .rbPop _            => "RB_POP"
  | .rbHasData _        => "RB_HAS_DATA"
  | .mTransmit _ _ _    => "M_TRANSMIT"
  | .mReceive _ _ _     => "M_RECEIVE"
  | .armShift _         => "ARM_SHIFT"
  | .setLineDriven _    => "SET_LINE_DRIVEN"
  | .readSr             => "READ_SR"
  | .writeSr _          => "WRITE_SR"
  | .rearmStart         => "REARM_START"
  | .mhStart            => "MH_START"
  | .mhWrite _          => "MH_WRITE"
  | .mhReadAck          => "MH_READ_ACK"
  | .mhReadNack         => "MH_READ_NACK"
  | .mhStop             => "MH_STOP"
  | .mhPoll             => "MH_POLL"
  | .mhStatus           => "MH_STATUS"
  | .mhReadData         => "MH_READ_DATA"
  | .envMComplete _ _   => "ENV_M_COMPLETE"
  | .addrGeneralCall    => "ADDR_GENERAL_CALL"
  | .addrOwnWrite _     => "ADDR_OWN_WRITE"
  | .addrOwnRead _      => "ADDR_OWN_READ"
  | .addrNoMatch _ _    => "ADDR_NO_MATCH"
  | .masterAddrWrite _  => "MASTER_ADDR_WRITE"
  | .masterAddrRead _   => "MASTER_ADDR_READ"
  | .wireAck            => "WIRE_ACK"
  | .wireNack           => "WIRE_NACK"

end Sys2Proof
end

