-- ==== Sys2Proof/Machine/State.lean ====
section
/-! DEFINITION. The state of the machine (10_state.md), plain data: any number of nodes with their slave
and master engines and HALs and their callers' byte memories, the stand-alone rings, the wire of
45_bus.md, the parameters, and what the model adds to let one step function move all agents (the schedule, the
issuing context, the free-value counter). Then the stops and the state after reset. -/

namespace Sys2Proof.Machine

/-- Byte memory of a node's caller (10_state.md R65, the buffers buf and out): address and byte, addresses
strictly rising, no entry equal to what an unlisted address reads as (log 11). -/
abbrev Memory := List Host.Cell

/-- A ring buffer instance (R30): its capacity N, fixed at creation, the two indices and the storage
slots. T is a byte in the slave; a stand-alone ring may have any T (R31, R141). -/
structure Ring (α : Type) where
  n       : Nat
  read    : Nat
  write   : Nat
  storage : List α
  deriving DecidableEq, Repr

/-- The slave FSM state register (R36, R109). `corrupt` is the register's eighth encoding, 7, which no
rule of the spec reaches and the dispatcher refuses (R200, R213; log 30). -/
inductive SlaveState where
  | waitForStart
  | waitForAddress
  | sendAck
  | waitForData
  | sendData
  | requestAck
  | waitAck
  | corrupt
  deriving DecidableEq, Repr

/-- The fault codes (60_exceptions.md R332). -/
inductive FaultCode where
  | sleepWithRxPending
  | badOwnAddress
  | badTargetAddress
  | badLength
  deriving DecidableEq, Repr

/-- The number of a fault code (R332). -/
def FaultCode.code : FaultCode → Nat
  | .sleepWithRxPending => 1
  | .badOwnAddress      => 2
  | .badTargetAddress   => 3
  | .badLength          => 4

/-- `faults` and `refused` of one instance (R48, R49). The 1-bit `refused` is kept as the reason that
set it (R333 closes the list), so the bit is `refusal.isSome`. -/
structure Status where
  faults  : List FaultCode
  refusal : Option RefuseReason
  deriving DecidableEq, Repr

def Status.clean : Status := ⟨[], none⟩

/-- The result of an operation, as it is returned to the host (R114, R386). -/
inductive Result where
  | bool (b : Bool)
  | byte (v : Byte)
  | popped (x : Option Nat)
  | code (rc : Rc)
  deriving DecidableEq, Repr

/-- A slave node: its engine (R36-R41), its shift-register HAL (R42-R46), its foreground and model
registers (R47-R49), the results returned to its host, and whether its two rings have been created
(40_ringbuffer.md R140, log 23). -/
structure Slave where
  state     : SlaveState
  own       : Addr7
  rx        : Ring Byte
  tx        : Ring Byte
  sr        : Byte
  armed     : Nat
  driven    : Bool
  enabled   : Bool
  trace     : List SAct
  sleeping  : Bool
  status    : Status
  results   : List Result
  rxCreated : Bool
  txCreated : Bool
  deriving DecidableEq, Repr

/-- m.phase (R51, R110). -/
inductive Phase where
  | idle
  | waitStart
  | waitAddr
  | waitData
  | finish
  deriving DecidableEq, Repr

/-- The master's position inside its call, below m.phase (44_master.md, step granularity: one HAL
action is one step; log 9): the next action is MH_START, the arguments having passed, where no step leaves
a call, since M_TRANSMIT and M_RECEIVE issue their MH_START in their own step (R264); a poll; a
status read; the action after a good status; the stop after a bad one, with the result code to come;
the data read of a received byte; the action after a byte has been stored. -/
inductive CallPos where
  | begin
  | poll
  | status
  | good
  | fail (rc : Rc)
  | readData
  | stored
  deriving DecidableEq, Repr

/-- The transaction registers inside a call (R51), and the position (log 9). -/
structure Call where
  phase : Phase
  rw    : Bool
  addr  : Addr7
  len   : Nat
  i     : Nat
  rc    : Rc
  buf   : BufRef
  pos   : CallPos
  deriving DecidableEq, Repr

/-- mh.op, the operation in flight (R52, R110). -/
inductive MhOp where
  | none
  | start
  | write
  | readAck
  | readNack
  deriving DecidableEq, Repr

/-- The master engine of a node and its HAL (R50-R56). Outside a call the transaction registers hold no
value (R51): there is no `call`, and m.phase is IDLE. `mem` is the memory of the node's own caller, which
holds the buffers of the calls and of no other node (R65, R343; log 11). -/
structure Master where
  call     : Option Call
  op       : MhOp
  complete : Bool
  mhStatus : Byte
  mhData   : Byte
  trace    : List MAct
  mem      : Memory
  status   : Status
  results  : List Result
  deriving DecidableEq, Repr

/-- A stand-alone ring instance, with its number q (R115, R141). -/
structure Standalone where
  q       : Nat
  ring    : Ring Nat
  status  : Status
  results : List Result
  deriving DecidableEq, Repr

/-- A symbol of the wire (45_bus.md R300) with the master's part in it: in a bit slot `bit` is false
where the master drives 0 and true where it releases the line, and `ack` marks the acknowledge slot
(R303). -/
inductive Sym where
  | start
  | stop
  | slot (bit ack : Bool)
  deriving DecidableEq, Repr

/-- The wire of the composition (45_bus.md): the symbols the master's actions still owe, the value of
the last bit slot, the byte being written and whether it is the address phase, whether the next
MH_WRITE is the first after MH_START (R308), and what the master has sampled. -/
structure Bus where
  pending   : List Sym
  line      : Bool
  out       : Byte
  isAddr    : Bool
  addrNext  : Bool
  sampled   : Byte
  ack       : Bool
  deriving DecidableEq, Repr

/-- One event of a pseudo-operation's expansion (30_encoding.md R121). -/
inductive BusEvent where
  | start
  | shift (w : Byte)
  deriving DecidableEq, Repr

/-- One turn of the schedule (log 5): an agent issues an encoded operation on a node; an expansion of
BUS_WRITE or BUS_READ runs on a node (R121); a node's master takes the next step of its call; the wire
carries its next symbol or completes an operation; the rest of the schedule waits until nothing
moves by itself any more, as a foreground waits for its blocking call to return. -/
inductive Turn where
  | issue (agent : Agent) (node : Nat) (op : Encoded)
  | expand (node : Nat) (events : List BusEvent)
  | master (node : Nat)
  | wire
  | await
  deriving DecidableEq, Repr

/-- Who issues the operation being executed, and on which node (R340). -/
structure Ctx where
  agent : Agent
  node  : Nat
  deriving DecidableEq, Repr

/-- An issuer that is an agent of no instance, with the number of the stand-alone ring it acts on, if it
acts on one: what it has been refused is kept apart for each (log 13). -/
structure Outsider where
  issuer : Ctx
  ring   : Option Nat
  deriving DecidableEq, Repr

/-- The state of the whole model. A node is a number: node j holds the slave engine `slaves[j]`, the
master engine `masters[j]`, or both (R343, 92_eei_decisions.md D38); a node of both has the one
foreground j. `scripts` holds each master's status script (R122), `draws` the number of free values
drawn so far (log 10). `outside` holds what issuers that are agents of no instance have been refused
where they act on none (log 13): one that is not listed has been refused nothing. -/
structure State where
  cfg     : Params
  slaves  : List Slave
  masters : List (Option Master)
  rings   : List Standalone
  bus     : Bus
  outside : List (Outsider × Status)
  ctx     : Ctx
  sched   : List Turn
  scripts : List (List (Byte × Byte))
  draws   : Nat
  deriving DecidableEq, Repr

/-- Why a step does not exist. None is a fault of the block: the block's own four faults are recorded
in the state (R332, log 1). Each of these is safe: the model stops, and proves nothing about a run
that goes on. -/
inductive Fault where
  /-- Raised by every operation that is charged to an instance that has recorded a fault or a refusal, so
  by every one of an agent of that instance: "no agent of it takes a further step" (R334). Safe. -/
  | quiescent
  /-- Raised by EV_START, EV_SHIFT and ENV_M_COMPLETE where the event is not admissible: "it is not a
  step, and the schedule is not a run of the model" (R334, R167, R168, R184; on the composed wire R308). No
  operand of the event decides it. Safe. -/
  | notAdmissible
  /-- Raised by every operation of a foreground that is halted in SLEEP: "the foreground has no step"
  (R47). Safe. -/
  | asleep
  /-- Raised by every slave foreground operation of a node whose one foreground is inside the node's
  master call: its foreground operations run "one at a time" (R343). Safe. -/
  | foregroundBusy
  /-- Raised by a turn of an agent that has no step: nothing is scheduled and no agent moves by itself
  (the run has ended, R386), the master outside a call, or the wire with nothing to carry. Safe. -/
  | noStep
  deriving DecidableEq, Repr

/-- What the model does not give a meaning. The spec's own refusals are recorded in the state (R333,
log 1). -/
inductive Refusal where
  /-- Raised by an arm of `exec` that has no meaning yet. Safe. No arm is left so. -/
  | notModelled (mnemonic : String)
  deriving DecidableEq, Repr

/-! ### Reset (70_reset_and_hazards.md R370) -/

/-- A ring as RB_INIT leaves it, its storage given: indices 0, so it is empty (R140, R62). -/
def Ring.created {α : Type} (storage : List α) : Ring α where
  n       := storage.length
  read    := 0
  write   := 0
  storage := storage

/-- A slave node right after its creation with RX_N and TX_N (R370, R62). The creation of a ring with
a capacity outside 1..2^INDEX_BITS is refused with BAD_CONFIG (R140, R333): the node then records the
refusal, and neither that ring nor a later one is created. The registers R62 leaves unspecified (ring
storage, eng.ownAddress, hal.sr) are zero: DESIGN CHOICE, log 3. -/
def Slave.created (p : Params) (rxN txN : Nat) : Slave :=
  let rxOk := ringConfigOk p.indexBits rxN
  let txOk := rxOk && ringConfigOk p.indexBits txN
  { state     := .waitForStart
    own       := 0
    rx        := Ring.created (List.replicate (if rxOk then rxN else 0) 0)
    tx        := Ring.created (List.replicate (if txOk then txN else 0) 0)
    sr        := 0
    armed     := 0
    driven    := false
    enabled   := false
    trace     := []
    sleeping  := false
    status    := if txOk then Status.clean else ⟨[], some .badConfig⟩
    results   := []
    rxCreated := rxOk
    txCreated := txOk }

/-- A master engine and its HAL right after creation (R370, R62). mh.status and mh.data, which R62
leaves unspecified, are zero: DESIGN CHOICE, log 3. -/
def Master.created : Master where
  call     := none
  op       := .none
  complete := false
  mhStatus := 0
  mhData   := 0
  trace    := []
  mem      := []
  status   := Status.clean
  results  := []

/-- The wire with nothing on it: a released line reads 1 (R301). The other registers are the model's
own (log 14). -/
def Bus.idle : Bus where
  pending  := []
  line     := true
  out      := 0
  isAddr   := false
  addrNext := false
  sampled  := 0
  ack      := false

/-- A system right after the creation of its instances: a slave engine for each pair of capacities
(RX_N, TX_N), on the nodes 0, 1, …, and a master engine on each node j where `masters[j]` is true, with
nothing scheduled (R370, R371, R343). The initial context is the foreground of node 0 (R370). -/
def State.created (p : Params) (rings : List (Nat × Nat)) (masters : List Bool) : State where
  cfg     := p
  slaves  := rings.map (fun c => Slave.created p c.1 c.2)
  masters := masters.map (fun b => if b then some Master.created else none)
  rings   := []
  bus     := Bus.idle
  outside := []
  ctx     := ⟨.slaveFg, 0⟩
  sched   := []
  scripts := masters.map (fun _ => [])
  draws   := 0

/-- The machine right after reset: one node that holds a slave engine with RX_N = TX_N = 4 and a master
engine, the other parameters as `Params.default` (DESIGN CHOICE, log 4). -/
def State.reset : State := State.created Params.default [(4, 4)] [true]

end Sys2Proof.Machine
end

