-- ==== Sys2Proof/Machine/Flags.lean ====
section
/-! DEFINITION. The status flags of the block (10_state.md R57). The ring predicates are functions of
the indices and are not stored (R34); whether an event is admissible is a function of the HAL's
flags (41_hal.md R167, R168, R184). -/

namespace Sys2Proof.Machine

/-- isEmpty = (read == write) (R34). -/
def Ring.isEmpty {α : Type} (r : Ring α) : Bool := r.read == r.write

/-- isFull = ((write + 1) mod N == read) (R34). -/
def Ring.isFull {α : Type} (r : Ring α) : Bool := (r.write + 1) % r.n == r.read

/-- hasData: read != write (R145). -/
def Ring.hasData {α : Type} (r : Ring α) : Bool := r.read != r.write

/-- count = (write - read) mod N (R33), written so that no subtraction falls below zero. -/
def Ring.count {α : Type} (r : Ring α) : Nat := (r.write + r.n - r.read) % r.n

/-- An instance that has recorded a fault or a refusal is quiescent (R334). -/
def Status.quiescent (st : Status) : Bool := !st.faults.isEmpty || st.refusal.isSome

/-- The engine has been created: both rings have (R370). -/
def Slave.isCreated (n : Slave) : Bool := n.rxCreated && n.txCreated

/-- Its created rings have an admitted capacity (R119 WF_CFG, for each ring). -/
def Slave.configOk (indexBits : Nat) (n : Slave) : Bool :=
  (!n.rxCreated || ringConfigOk indexBits n.rx.n) && (!n.txCreated || ringConfigOk indexBits n.tx.n)

/-- The ISR pushes on eng.rx in the WaitForData handler alone (R340, R207), and no handler runs before
INITIALIZE (R371; log 8). -/
def Slave.pushesRx (n : Slave) : Bool := n.enabled && n.state == .waitForData

/-- The ISR pops eng.tx in the SendData logic alone (R340, R203), which the handlers of SendData and WaitAck
run (R208, R210), none before INITIALIZE (R371; log 8). -/
def Slave.popsTx (n : Slave) : Bool := n.enabled && (n.state == .sendData || n.state == .waitAck)

/-- WRITE_SR has put a value into hal.sr, so that a READ_SR reads a written register (R334). -/
def Slave.srWritten (n : Slave) : Bool :=
  n.trace.any fun a => match a with
    | .writeSr _ => true
    | .armShift _ | .setLineDriven _ | .readSr | .rearmStart => false

/-- EV_START is admissible iff hal.enabled == 1, in any engine state (R167). -/
def Slave.startAdmissible (n : Slave) : Bool := n.enabled

/-- EV_SHIFT is admissible iff hal.enabled == 1 and hal.armed is 1 or 8 (R168). -/
def Slave.shiftAdmissible (n : Slave) : Bool := n.enabled && (n.armed == 1 || n.armed == 8)

/-- An operation is in flight: mh.op is START, WRITE, READ_ACK or READ_NACK and mh.complete == 0
(R66, R175). That is also when ENV_M_COMPLETE is admissible (R184). -/
def Master.inFlight (m : Master) : Bool := m.op != .none && !m.complete

/-- A master that is not quiescent takes steps (R334). -/
def Master.takesSteps (m : Master) : Bool := !m.status.quiescent

/-- m.phase; IDLE outside a call (R51, R110). -/
def Master.phase (m : Master) : Phase :=
  match m.call with
  | none   => .idle
  | some c => c.phase

/-! ### The 3-bit encodings (30_encoding.md R109, R110) -/

def SlaveState.encode : SlaveState → BitVec 3
  | .waitForStart   => 0
  | .waitForAddress => 1
  | .sendAck        => 2
  | .waitForData    => 3
  | .sendData       => 4
  | .requestAck     => 5
  | .waitAck        => 6
  | .corrupt        => 7

def SlaveState.decode (v : BitVec 3) : SlaveState :=
  match v.toNat with
  | 0 => .waitForStart
  | 1 => .waitForAddress
  | 2 => .sendAck
  | 3 => .waitForData
  | 4 => .sendData
  | 5 => .requestAck
  | 6 => .waitAck
  | _ => .corrupt

def Phase.encode : Phase → BitVec 3
  | .idle      => 0
  | .waitStart => 1
  | .waitAddr  => 2
  | .waitData  => 3
  | .finish    => 4

def MhOp.encode : MhOp → BitVec 3
  | .none     => 0
  | .start    => 1
  | .write    => 2
  | .readAck  => 3
  | .readNack => 4

end Sys2Proof.Machine
end

