-- ==== Sys2Proof/Machine/Operands.lean ====
section
/-! DEFINITION. Operand forms (30_encoding.md R115, R116): the acknowledge bit, the bits of a byte in
wire order, ring references, buffer references, and the range tests of the run-time faults. -/

namespace Sys2Proof.Machine

/-- The acknowledge bit of a shift-register value: bit 0 (R116, R210). True is NACK (R105). -/
def ackBit (v : Byte) : Bool := v.getLsbD 0

/-- The bits of a byte as they go over the wire, most significant first (45_bus.md R302). -/
def bitsMsbFirst (b : Byte) : List Bool :=
  [b.getLsbD 7, b.getLsbD 6, b.getLsbD 5, b.getLsbD 4,
   b.getLsbD 3, b.getLsbD 2, b.getLsbD 1, b.getLsbD 0]

/-- One more sampled bit: `((v << 1) | s) & 0xFF` (45_bus.md R304). -/
def shiftIn (v : Byte) (s : Bool) : Byte := (v <<< 1) ||| (if s then 1#8 else 0#8)

/-- The shift register after a 1-bit shift: `(any 7-bit value) ++ w[0]` (41_hal.md R168). The seven
bits are those of `free`, a byte of which bit 0 is not used. -/
def oneBitSample (free w : Byte) : Byte := free.extractLsb' 1 7 ++ BitVec.ofBool (w.getLsbD 0)

/-- A legal own address: 1 <= a <= 127 (R240, R332). -/
def ownAddressOk (a : Byte) : Bool := decide (1 ≤ a.toNat) && decide (a.toNat ≤ 127)

/-- A legal target address: not a > 127 (R260, R332). -/
def targetAddressOk (a : Byte) : Bool := decide (a.toNat ≤ 127)

/-- The 7-bit register value of an address passed as a u8. -/
def toAddr7 (a : Byte) : Addr7 := a.setWidth 7

/-- The size of a buffer (R65); WF_BUF has refused a reference without one. -/
def bufLen (b : BufRef) : Nat := b.size.getD 0

/-- The address in the caller's memory of a buffer's element j (R65; log 11). -/
def bufAddr (b : BufRef) (j : Nat) : Nat := b.base + j

/-- A legal length: not (len > LEN_MAX or len > size(buf)) (R260, R332). -/
def lengthOk (p : Params) (b : BufRef) (len : Nat) : Bool :=
  decide (len ≤ p.lenMax) && decide (len ≤ bufLen b)

/-- The stand-alone ring a reference names, if it exists (R115). -/
def State.ring? (s : State) (q : Nat) : Option Standalone := s.rings.find? (fun r => r.q == q)

/-- The slave node the operation is issued on. -/
def State.node? (s : State) : Option Slave := s.slaves[s.ctx.node]?

/-- The master engine of node j, if the node holds one (R343). -/
def State.masterAt (s : State) (j : Nat) : Option Master := (s.masters[j]?).join

/-- The master engine of the node the operation is issued on. -/
def State.master? (s : State) : Option Master := s.masterAt s.ctx.node

/-- WF_RING's condition: q names an existing ring instance, 0 and 1 being the node's own (R115). -/
def State.ringExists (s : State) (q : Nat) : Bool :=
  match q with
  | 0 => s.node?.any (·.rxCreated)
  | 1 => s.node?.any (·.txCreated)
  | q => (s.ring? q).isSome

end Sys2Proof.Machine
end

