-- ==== Sys2Proof/Machine/Ops.lean ====
section
/-! DEFINITION. The named operations over memory and registers, shared by the meanings: MemRead and
MemWrite (00_scope.md R13), the ring operations (40_ringbuffer.md), the slave HAL actions (41_hal.md
R161-R165), raising a fault and refusing (60_exceptions.md R332, R333), and results. -/

namespace Sys2Proof.Machine

/-- The outcome of one step of this machine. -/
abbrev Out := Host.Outcome State Fault Refusal

/-! ### The caller's byte memory (log 11) -/

/-- The canonical form: addresses strictly rising, no entry equal to 0x00, which is what an unlisted
address reads as. -/
abbrev Memory.wf (m : Memory) : Prop :=
  m.Pairwise (fun x y => x.1 < y.1) ∧ ∀ x ∈ m, x.2 ≠ 0#8

/-- MemRead(space, j, 1): one byte; an unlisted address reads 0x00 (DESIGN CHOICE, log 11). -/
def Memory.read (m : Memory) (a : Nat) : Byte :=
  match m with
  | []          => 0#8
  | (k, v) :: m => if a = k then v else Memory.read m a

/-- The cell (a, v) in front of memory, unless v is what an unlisted address reads as. -/
def Memory.consCell (a : Nat) (v : Byte) (m : Memory) : Memory := if v = 0#8 then m else (a, v) :: m

/-- MemWrite(space, j, 1, v): one byte, the canonical form kept. -/
def Memory.write (m : Memory) (a : Nat) (v : Byte) : Memory :=
  match m with
  | []          => Memory.consCell a v []
  | (k, w) :: m =>
    if a < k then Memory.consCell a v ((k, w) :: m)
    else if a = k then Memory.consCell a v m
    else (k, w) :: Memory.write m a v

/-- `count` bytes from address `a` on, each set to a value the spec leaves open (R263; log 10). -/
def Memory.fillFree (m : Memory) (draws a count : Nat) : Memory :=
  match count with
  | 0     => m
  | k + 1 => (Memory.fillFree m draws a k).write (a + k) (Config.freeByte (draws + k))

/-! ### Ring operations, each one atomic step (20_memory.md R83) -/

/-- RB_PUSH (R143): false and no change if full; else the element goes to `storage[write]` and `write`
advances. -/
def Ring.push {α : Type} (r : Ring α) (x : α) : Bool × Ring α :=
  if r.isFull then (false, r)
  else (true, { r with storage := r.storage.set r.write x, write := (r.write + 1) % r.n })

/-- RB_POP (R144): nothing and no change if empty; else the element at `storage[read]`, and `read`
advances. -/
def Ring.pop {α : Type} (r : Ring α) : Option α × Ring α :=
  if r.isEmpty then (none, r)
  else (r.storage[r.read]?, { r with read := (r.read + 1) % r.n })

/-- The items a ring holds, oldest first (R35). -/
def Ring.items {α : Type} (r : Ring α) : List α :=
  (List.range r.count).filterMap (fun j => r.storage[(r.read + j) % r.n]?)

/-- The storage of a created byte ring, every slot any value (R140; log 10). -/
def freeBytes (draws n : Nat) : List Byte := (List.range n).map (fun j => Config.freeByte (draws + j))

/-- The storage of a created stand-alone ring, every slot any value (R140; log 10). -/
def freeElems (draws n : Nat) : List Nat := (List.range n).map (fun j => Config.freeElem (draws + j))

/-! ### Instances, faults and refusals -/

/-- What an operation is charged to: an instance (10_state.md preamble), or, where its issuer is an agent
of none and it acts on none, the issuer itself (log 13). -/
inductive Inst where
  | slave (node : Nat)
  | master (node : Nat)
  | ring (q : Nat)
  | outside (o : Outsider)
  deriving DecidableEq, Repr

/-- `faults` with one more code: a set (R48). -/
def addFault (c : FaultCode) (l : List FaultCode) : List FaultCode := if c ∈ l then l else l ++ [c]

def Status.addFault (c : FaultCode) (st : Status) : Status :=
  { st with faults := Machine.addFault c st.faults }

/-- `refused` is set and never cleared (R49, R333). -/
def Status.refuse (r : RefuseReason) (st : Status) : Status :=
  { st with refusal := st.refusal.or (some r) }

def Slave.mapStatus (f : Status → Status) (n : Slave) : Slave := { n with status := f n.status }

def Master.mapStatus (f : Status → Status) (m : Master) : Master := { m with status := f m.status }

/-- The record of an issuer that is an agent of no instance: clean where none is kept. -/
def recordOf (l : List (Outsider × Status)) (c : Outsider) : Status :=
  match l with
  | []           => Status.clean
  | (d, st) :: l => if d = c then st else recordOf l c

/-- The records with that of one issuer replaced. -/
def setRecord (l : List (Outsider × Status)) (c : Outsider) (st : Status) : List (Outsider × Status) :=
  match l with
  | []          => [(c, st)]
  | (d, x) :: l => if d = c then (c, st) :: l else (d, x) :: setRecord l c st

def State.statusOf (s : State) (k : Inst) : Option Status :=
  match k with
  | .slave j   => (s.slaves[j]?).map (·.status)
  | .master j  => (s.masterAt j).map (·.status)
  | .ring q    => (s.ring? q).map (·.status)
  | .outside c => some (recordOf s.outside c)

/-- The slave nodes with node j replaced by f of it. -/
def modifySlave (l : List Slave) (j : Nat) (f : Slave → Slave) : List Slave := l.modify j f

/-- The master engines with that of node j, if there is one, replaced by f of it. -/
def modifyMaster (l : List (Option Master)) (j : Nat) (f : Master → Master) : List (Option Master) :=
  l.modify j (Option.map f)

/-- The stand-alone rings with ring q replaced by f of it. -/
def modifyRing (l : List Standalone) (q : Nat) (f : Standalone → Standalone) : List Standalone :=
  l.map (fun r => if r.q == q then f r else r)

def State.mapStatus (s : State) (k : Inst) (f : Status → Status) : State :=
  match k with
  | .slave j   => { s with slaves := modifySlave s.slaves j (Slave.mapStatus f) }
  | .master j  => { s with masters := modifyMaster s.masters j (Master.mapStatus f) }
  | .ring q    => { s with rings := modifyRing s.rings q (fun r => { r with status := f r.status }) }
  | .outside c => { s with outside := setRecord s.outside c (f (recordOf s.outside c)) }

/-- `raise Fault(code)` (R13, R332): the code is recorded in `faults` of the instance, and the
operation that raised it has no other effect. This is the block's whole exception entry: nothing
else is saved and no handler is entered (R330, R337); the record is never cleared, so there is no
return from it (R334). -/
def State.raiseFault (s : State) (k : Inst) (c : FaultCode) : State := s.mapStatus k (Status.addFault c)

/-- `refuse(reason)` (R13, R333): `refused` of the instance is set, and the operation has no effect. -/
def State.refuse (s : State) (k : Inst) (r : RefuseReason) : State := s.mapStatus k (Status.refuse r)

/-! ### Access to the instance operated on -/

/-- The refusal of an operation on something its issuer's node does not hold (R340, R333). The admission
answers that itself, so no operation comes here. -/
def State.notHeld (s : State) : Out := .next (s.refuse (.outside ⟨s.ctx, none⟩) .wrongAgent)

/-- Run an operation on the slave engine of the node it is issued on. -/
def State.onNode (s : State) (k : Slave → Out) : Out :=
  match s.node? with
  | none   => s.notHeld
  | some n => k n

/-- The state with the issuing node's record replaced. -/
def State.putNode (s : State) (n : Slave) : State :=
  { s with slaves := s.slaves.set s.ctx.node n }

/-- Run an operation on the master engine of the node it is issued on. -/
def State.onMaster (s : State) (k : Master → Out) : Out :=
  match s.master? with
  | none   => s.notHeld
  | some m => k m

/-- The state with the master engine of the issuing node replaced. -/
def State.putMaster (s : State) (m : Master) : State :=
  { s with masters := s.masters.set s.ctx.node (some m) }

/-- Run an operation on a stand-alone ring. -/
def State.onRing (s : State) (q : Nat) (k : Standalone → Out) : Out :=
  match s.ring? q with
  | none   => s.notHeld
  | some r => k r

/-- The state with the record of stand-alone ring q replaced. -/
def State.putRing (s : State) (r : Standalone) : State :=
  { s with rings := modifyRing s.rings r.q (fun _ => r) }

/-! ### Results returned to the host (R386, log 27) -/

def Slave.addResult (r : Result) (n : Slave) : Slave := { n with results := n.results ++ [r] }

def Standalone.addResult (r : Result) (x : Standalone) : Standalone := { x with results := x.results ++ [r] }

def Master.addResult (r : Result) (m : Master) : Master := { m with results := m.results ++ [r] }

/-! ### The slave HAL actions: each applies its effect and is appended to hal.trace -/

def Slave.record (a : SAct) (n : Slave) : Slave := { n with trace := n.trace ++ [a] }

/-- ARM_SHIFT (R161): the shift counter, replacing any count already armed. -/
def Slave.armShift (k : Nat) (n : Slave) : Slave := { n with armed := k }.record (.armShift k)

/-- SET_LINE_DRIVEN (R162). -/
def Slave.setLineDriven (d : Bool) (n : Slave) : Slave := { n with driven := d }.record (.setLineDriven d)

/-- READ_SR (R163): the trace entry; the value read is `sr`. -/
def Slave.readSr (n : Slave) : Slave := n.record .readSr

/-- WRITE_SR (R164). -/
def Slave.writeSr (v : Byte) (n : Slave) : Slave := { n with sr := v }.record (.writeSr v)

/-- REARM_START (R165): release the line, disarm, await a start. -/
def Slave.rearmStart (n : Slave) : Slave :=
  { n with driven := false, armed := 0 }.record .rearmStart

/-- `state <- X` (R13, R63). -/
def Slave.goto (st : SlaveState) (n : Slave) : Slave := { n with state := st }

end Sys2Proof.Machine
end

