-- ==== Sys2Proof/Machine/MasterCall.lean ====
section
/-! DEFINITION. The master HAL (41_hal.md R175-R183), what its polls and reads return being used by the
call that issues them, the symbols its actions put on the wire
(45_bus.md R303), and the master's call, one HAL action a step (44_master.md R260-R264; log 9). An
update of an m.* register belongs to the step of the HAL action that follows it, and the return to
the step of the call's last action. -/

namespace Sys2Proof.Machine

/-! ### The master HAL -/

/-- The actions that issue an operation, or end one: those R175 and R333 refuse while an operation is
in flight. MH_POLL, MH_STATUS and MH_READ_DATA only read (R76; log 18). -/
def actIssues : MAct → Bool
  | .start | .write _ | .readAck | .readNack | .stop => true
  | .poll | .status | .readData => false

/-- The effect of a master HAL action on the HAL's registers and its trace (R176-R183). -/
def Master.hal (a : MAct) (m : Master) : Master :=
  let m := { m with trace := m.trace ++ [a] }
  match a with
  | .start    => { m with op := .start, complete := false }
  | .write _  => { m with op := .write, complete := false }
  | .readAck  => { m with op := .readAck, complete := false }
  | .readNack => { m with op := .readNack, complete := false }
  | .stop     => { m with op := .none }
  | .poll     => m
  | .status   => m
  | .readData => m

/-- The symbols an action puts on the wire, with the master's part in each (R303). -/
def actSymbols : MAct → List Sym
  | .start    => [.start]
  | .write v  => (bitsMsbFirst v).map (fun b => .slot b false) ++ [.slot true true]
  | .readAck  => List.replicate 8 (.slot true false) ++ [.slot false true]
  | .readNack => List.replicate 8 (.slot true false) ++ [.slot true true]
  | .stop     => [.stop]
  | .poll | .status | .readData => []

/-- The wire takes an action over: its symbols are due after those already due, and an MH_WRITE is
the address phase if it is the first after MH_START (R308). -/
def Bus.carry (a : MAct) (b : Bus) : Bus :=
  let b := { b with pending := b.pending ++ actSymbols a }
  match a with
  | .start   => { b with addrNext := true }
  | .write v => { b with out := v, isAddr := b.addrNext, addrNext := false }
  | _        => b

/-- The wire takes over an action of the issuing node's master, if it is that master's wire. -/
def State.carryAct (a : MAct) (s : State) : State :=
  { s with bus := if s.cfg.env = .wire s.ctx.node then s.bus.carry a else s.bus }

/-- ENV_M_COMPLETE (R184): the peripheral finishes the operation in flight. -/
def Master.completeOp (st d : Byte) (m : Master) : Master :=
  { m with
    mhStatus := st
    mhData   := if m.op = .readAck ∨ m.op = .readNack then d else m.mhData
    op       := .none
    complete := true }

/-- The status and data of ENV_M_COMPLETE on the wire (R308). d is given for reads only; for the
others it is 0x00, which no rule reads (log 22). -/
def Bus.completion (p : Params) (op : MhOp) (b : Bus) : Byte × Byte :=
  match op with
  | .none | .start => (p.stStartSent, 0x00)
  | .write =>
    if b.isAddr then
      if b.ack then (if rwField b.out then p.stAddrRNack else p.stAddrWNack, 0x00)
      else (if rwField b.out then p.stAddrRAck else p.stAddrWAck, 0x00)
    else (if b.ack then p.stDataTxNack else p.stDataTxAck, 0x00)
  | .readAck  => (p.stDataRxAck, b.sampled)
  | .readNack => (p.stDataRxNack, b.sampled)

/-! ### The call's rule (R262, R263) -/

/-- `m.i < m.len - 1`: the byte is not the last (R263). -/
def Call.nonFinal (c : Call) : Bool := decide (c.i + 1 < c.len)

/-- The first data action for byte m.i: write `buf[i]`, or read with ACK for every byte except the
last (R262 step 3, R263). -/
def Call.dataAct (mem : Memory) (c : Call) : MAct :=
  if c.rw then (if c.nonFinal then .readAck else .readNack)
  else .write (mem.read (bufAddr c.buf c.i))

/-- The FINISH part of R262 and R263 where a stop is issued. -/
def Call.finishWith (rc : Rc) (c : Call) : MAct × Call := (.stop, { c with phase := .finish, rc := rc })

/-- The loop head: the next data action while m.i < m.len, else FINISH with m.rc = 0. -/
def Call.dataPhase (mem : Memory) (c : Call) : MAct × Call :=
  if c.i < c.len then (c.dataAct mem, c) else c.finishWith 0

/-- The HAL action the call issues next, and the registers with the updates that belong to its step. -/
def Call.plan (mem : Memory) (c : Call) : Option (MAct × Call) :=
  match c.pos with
  | .begin    => some (.start, { c with phase := .waitStart })
  | .poll     => some (.poll, c)
  | .status   => some (.status, c)
  | .fail rc  => some (c.finishWith rc)
  | .readData => some (.readData, c)
  | .stored   => some ({ c with i := c.i + 1 }.dataPhase mem)
  | .good     =>
    match c.phase with
    | .waitStart => some (.write (addrByte c.addr c.rw), { c with phase := .waitAddr })
    | .waitAddr  => some ({ c with phase := .waitData }.dataPhase mem)
    | .waitData  =>
      if c.rw then some (.readData, c) else some ({ c with i := c.i + 1 }.dataPhase mem)
    | .idle | .finish => none

/-- The status the rule compares with in the call's phase (R262, R263). -/
def Call.expected (p : Params) (c : Call) : Byte :=
  match c.phase with
  | .waitStart => p.stStartSent
  | .waitAddr  => if c.rw then p.stAddrRAck else p.stAddrWAck
  | .idle | .waitData | .finish => if c.rw then p.stDataRxAck else p.stDataTxAck

/-- The result code of a bad status in the call's phase (R108). -/
def Call.failCode (c : Call) : Rc :=
  match c.phase with
  | .waitStart => 1
  | .waitAddr  => 2
  | .idle | .waitData | .finish => 3

/-- A stop is issued after a failure with code rc: always by M_RECEIVE; by M_TRANSMIT on code 3, and
on codes 1 and 2 under TX_STOP_ON_EARLY_FAIL (R262, R263). -/
def Call.stopsAfter (p : Params) (c : Call) (rc : Rc) : Bool :=
  c.rw || rc == 3 || p.txStopOnEarlyFail

/-- Where a completed wait leads: the status is read, but not that of a receive's last byte (R263). -/
def Call.afterPoll (c : Call) : CallPos :=
  if c.rw && c.phase == .waitData && !c.nonFinal then .readData else .status

/-! ### Performing the call's steps -/

/-- The master's transaction registers are those of c. -/
def Master.setCall (c : Call) (m : Master) : Master := { m with call := some c }

/-- m.phase <- IDLE; return rc (R262, R263): the transaction registers hold no value any more. -/
def Master.returnCall (rc : Rc) (m : Master) : Master := { m with call := none }.addResult (.code rc)

/-- What one step of the call makes of the master: the HAL action a, with c the registers as that step
has updated them. -/
def Master.callStep (p : Params) (a : MAct) (c : Call) (m : Master) : Master :=
  match a with
  | .stop => (m.hal .stop).returnCall c.rc
  | .poll => (m.hal .poll).setCall { c with pos := if m.complete then c.afterPoll else .poll }
  | .status =>
    if m.mhStatus = c.expected p then (m.hal .status).setCall { c with pos := .good }
    else if c.stopsAfter p c.failCode then (m.hal .status).setCall { c with pos := .fail c.failCode }
    else (m.hal .status).returnCall c.failCode
  | .readData => (m.hal .readData).setCall { c with pos := .stored }
  | .start => (m.hal .start).setCall { c with pos := .poll }
  | .write v => (m.hal (.write v)).setCall { c with pos := .poll }
  | .readAck => (m.hal .readAck).setCall { c with pos := .poll }
  | .readNack => (m.hal .readNack).setCall { c with pos := .poll }

/-- How many leading positions of the output buffer hold received bytes when a receive returns rc:
all of those received on code 3, none on codes 1 and 2 (R263). -/
def Call.received (c : Call) : Nat := if c.rc = 3 then c.i else 0

/-- How many output positions the return with c.rc leaves open: those of a failed receive that hold no
received byte (R263, D20; log 10). -/
def Call.openCount (c : Call) : Nat := if c.rw && c.rc != 0 then c.len - c.received else 0

/-- The caller's memory after one step of the call: the data read stores the byte at out[m.i], the stop
of a failed receive leaves the rest open (R263). -/
def Call.memAfter (draws : Nat) (a : MAct) (c : Call) (m : Master) : Memory :=
  match a with
  | .stop     => m.mem.fillFree draws (bufAddr c.buf c.received) c.openCount
  | .readData => m.mem.write (bufAddr c.buf c.i) m.mhData
  | .start | .write _ | .readAck | .readNack | .poll | .status => m.mem

/-- The free values one step of the call draws. -/
def Call.drawn (a : MAct) (c : Call) : Nat :=
  match a with
  | .stop => c.openCount
  | .start | .write _ | .readAck | .readNack | .poll | .status | .readData => 0

/-- One step of the call of the issuing node's master m: its symbols on the wire, the master after it
with its caller's memory, and the free values drawn. -/
def State.callStep (a : MAct) (c : Call) (m : Master) (s : State) : State :=
  { (s.carryAct a).putMaster { m.callStep s.cfg a c with mem := c.memAfter s.draws a m } with
    draws := s.draws + c.drawn a }

/-- The registers of a call whose arguments have passed (R262, R263, first two lines), MH_START being the
action its rule has next. -/
def Call.start (rw : Bool) (a : Byte) (buf : BufRef) (len : Nat) : Call where
  phase := .idle
  rw    := rw
  addr  := toAddr7 a
  len   := len
  i     := 0
  rc    := 0
  buf   := buf
  pos   := .begin

/-- The HAL action the call in progress issues next. -/
def Master.nextAct (m : Master) : Option MAct := (m.call.bind (fun c => c.plan m.mem)).map (·.1)

/-- A call may be made: none is in progress (R267, R340), and no operation is in flight, which its MH_START
would be refused for (R175, R333). -/
def Master.free (m : Master) : Bool := m.call.isNone && !m.inFlight

/-- The next byte the call writes is its address byte (R104, R262, R263). -/
def Master.addressDue (m : Master) : Bool :=
  m.call.any (fun c => c.phase == .waitStart && c.pos == .good)

end Sys2Proof.Machine
end

