-- ==== Sys2Proof/Machine/Agents.lean ====
section
/-! DEFINITION. Who may issue what (60_exceptions.md R340), the well-formedness checks of
30_encoding.md R119 put together, and the admission every operation passes before its own rule
(R333, R334; log 17). -/

namespace Sys2Proof.Machine

/-- A master HAL action is the master engine's, inside a call, and there only the action the call's
rule has next (R340; log 8); one that issues an operation is refused while one is in flight (R175,
R333; log 18). -/
def State.mayAct (s : State) (a : MAct) : Bool :=
  s.ctx.agent == .masterEngine &&
  s.master?.any (fun m => !(actIssues a && m.inFlight) && m.nextAct == some a)

/-- The master's address byte as a row of its own (R104): the MH_WRITE due is the address byte. -/
def State.mayAddress (s : State) (b : Byte) : Bool :=
  s.mayAct (.write b) && s.master?.any Master.addressDue

/-- A slave HAL action on its own is the HAL bench's, before the engine drives the HAL itself
(95_test_vectors.md 2.3; R340, R371; log 8). -/
def State.mayDriveHal (s : State) : Bool :=
  s.ctx.agent == .isr && s.cfg.env == .halBench && s.node?.any (fun n => n.isCreated && !n.enabled)

/-- An operation on a slave engine is issued on a node that holds one (R343), wholly created (R370). -/
def State.onSlave (s : State) (a : Agent) : Bool := s.ctx.agent == a && s.node?.any Slave.isCreated

/-- R340, row by row. No agent may issue an operation of an engine the node does not hold: its row's agent
is that engine's (log 31). Which of the environment's operations exist is the environment's kind (log 16,
log 19); on the composed wire a completion is the wire's. R146 and R340 say of a stand-alone ring's producer
and consumer only that each is declared: they are agents of their own, declared by the ring's number, never
the ISR, a foreground or the engine of a node, and so never halted by a SLEEP or a master call (DESIGN
CHOICE, log 32). -/
def State.mayIssue (s : State) (i : Instr) : Bool :=
  let by_ (a : Agent) : Bool := s.ctx.agent == a
  match i with
  | .evStart => s.onSlave .env && s.cfg.env.starts
  | .evShift _ => s.onSlave .env && s.cfg.env.shifts
  | .evOther => s.onSlave .env
  | .initEngine _ | .sendChar _ | .charAvailable | .receiveChar | .sleep => s.onSlave .slaveFg
  | .rbInit 0 _ => by_ .creator && s.node?.any (fun n => !n.rxCreated)
  | .rbInit 1 _ => by_ .creator && s.node?.any (fun n => !n.txCreated)
  | .rbInit q _ => by_ .creator && (s.ring? q).isNone
  | .rbPush 0 _ => by_ .isr && s.node?.any Slave.pushesRx
  | .rbPush 1 _ => by_ .slaveFg
  | .rbPush q _ => by_ (.ringProducer q)
  | .rbPop 0 => by_ .slaveFg
  | .rbPop 1 => by_ .isr && s.node?.any Slave.popsTx
  | .rbPop q => by_ (.ringConsumer q)
  | .rbHasData 0 => by_ .slaveFg
  | .rbHasData 1 => by_ .tester
  | .rbHasData q => by_ (.ringConsumer q)
  | .mTransmit _ _ _ | .mReceive _ _ _ => by_ .masterFg && s.master?.any Master.free
  | .armShift _ | .setLineDriven _ | .writeSr _ | .rearmStart => s.mayDriveHal
  | .readSr => s.mayDriveHal && s.node?.any Slave.srWritten
  | .mhStart => s.mayAct .start
  | .mhWrite v => s.mayAct (.write v)
  | .mhReadAck => s.mayAct .readAck
  | .mhReadNack => s.mayAct .readNack
  | .mhStop => s.mayAct .stop
  | .mhPoll => s.mayAct .poll
  | .mhStatus => s.mayAct .status
  | .mhReadData => s.mayAct .readData
  | .envMComplete _ _ =>
    by_ (if s.cfg.env = .wire s.ctx.node then .wire else .env) && s.master?.isSome
  | .masterAddrWrite a => s.mayAddress (addrByte a false)
  | .masterAddrRead a => s.mayAddress (addrByte a true)
  | .addrGeneralCall | .addrOwnWrite _ | .addrOwnRead _ | .addrNoMatch _ _ | .wireAck | .wireNack =>
    by_ .env && s.cfg.env == .bits

/-- WF_RING: q names an existing ring instance. RB_INIT brings its instance into being. -/
def State.ringOk (s : State) (i : Instr) : Bool :=
  match i with
  | .rbPush q _ | .rbPop q | .rbHasData q => s.ringExists q
  | _ => true

/-- The issuing node's slave engine, or, on a node that holds none, the issuer's own record (log 31). -/
def State.slaveInst (s : State) : Inst := if s.node?.isSome then .slave s.ctx.node else .outside ⟨s.ctx, none⟩

/-- The issuing node's master engine, or, on a node that holds none, the issuer's own record (log 31). -/
def State.masterInst (s : State) : Inst := if s.master?.isSome then .master s.ctx.node else .outside ⟨s.ctx, none⟩

/-- The stand-alone ring q, or, where there is none, the issuer's own record (log 31). -/
def State.ringInst (s : State) (q : Nat) : Inst := if (s.ring? q).isSome then .ring q else .outside ⟨s.ctx, none⟩

/-- The instance the issuer is an agent of (00_scope.md R15, R340, R343; log 13). The environment, the wire
and the creation are agents of none. -/
def State.issuerInst (s : State) : Option Inst :=
  match s.ctx.agent with
  | .isr | .slaveFg | .tester => some s.slaveInst
  | .masterFg | .masterEngine => some s.masterInst
  | .ringProducer q | .ringConsumer q => some (s.ringInst q)
  | .env | .wire | .creator => none

/-- The instance of the issuing node an operation acts on: for a ring operation with q = 0 or 1 the slave
engine, whether that ring exists or not (R115). Bits on the wire, and a stand-alone ring for whoever is not
an agent of it, are no instance of the node. -/
def State.targetInst (s : State) (i : Instr) : Inst :=
  match i with
  | .evStart | .evShift _ | .evOther | .initEngine _ | .sendChar _ | .charAvailable | .receiveChar
  | .sleep | .armShift _ | .setLineDriven _ | .readSr | .writeSr _ | .rearmStart => s.slaveInst
  | .rbInit q _ | .rbPush q _ | .rbPop q | .rbHasData q =>
    if q < 2 then s.slaveInst else .outside ⟨s.ctx, some q⟩
  | .mTransmit _ _ _ | .mReceive _ _ _ | .mhStart | .mhWrite _ | .mhReadAck | .mhReadNack | .mhStop
  | .mhPoll | .mhStatus | .mhReadData | .envMComplete _ _ | .masterAddrWrite _ | .masterAddrRead _ =>
    s.masterInst
  | .addrGeneralCall | .addrOwnWrite _ | .addrOwnRead _ | .addrNoMatch _ _ | .wireAck | .wireNack =>
    .outside ⟨s.ctx, none⟩

/-- What an operation is charged to: the instance its issuer is an agent of, which for every operation R340
allows that agent is the one operated on; for an issuer that is an agent of none, the instance of the node
it acts on. So no agent records anything on another instance, and none of a quiescent instance takes a step,
whatever it issues (R334, R343; log 13). -/
def State.instOf (s : State) (i : Instr) : Inst := s.issuerInst.getD (s.targetInst i)

/-- What an undecodable operation is charged to: again the instance its issuer is an agent of. The
environment works on both engines of a node: its word 0x60, ENV_M_COMPLETE, is the master's, and any other
is the slave engine's, or the master's on a node that holds no slave engine (DESIGN CHOICE, log 31). -/
def State.instOfWord (s : State) (fmt : Format) (word : Byte) : Inst :=
  s.issuerInst.getD <|
    match fmt, s.ctx.agent with
    | .opword, .env  => if word = 0x60#8 ∨ s.node?.isNone then s.masterInst else s.slaveInst
    | .opword, .wire => s.masterInst
    | _, _           => .outside ⟨s.ctx, none⟩

/-- WF_CFG of the rings of the instance operated on: each has 1 <= N <= 2^INDEX_BITS (R119, R333). -/
def State.configOk (s : State) (k : Inst) : Bool :=
  match k with
  | .slave j               => (s.slaves[j]?).all (Slave.configOk s.cfg.indexBits)
  | .ring q                => (s.ring? q).all (fun r => ringConfigOk s.cfg.indexBits r.ring.n)
  | .master _ | .outside _ => true

/-- The first check of R119, in the order of its table, that an operation fails (log 17). -/
def State.failedCheck (s : State) (i : Instr) : Option WfCheck :=
  if !i.shapeOk then some .word
  else if !i.kOk then some .k
  else if !s.ringOk i then some .ring
  else if !s.mayIssue i then some .agent
  else if !(i.cfgOk s.cfg.indexBits && s.configOk (s.instOf i)) then some .cfg
  else if !i.bufOk then some .buf
  else none

/-- A foreground has no step while it is halted in SLEEP (R47), and a node's one foreground runs one
operation at a time (R343): why the issuer is stalled, if it is (log 20, log 21). -/
def State.stall (s : State) : Option Fault :=
  match s.ctx.agent with
  | .slaveFg =>
    if s.node?.any (·.sleeping) then some .asleep
    else if s.master?.any (·.call.isSome) then some .foregroundBusy
    else none
  | .masterFg | .masterEngine => if s.node?.any (·.sleeping) then some .asleep else none
  | .env | .wire | .isr | .creator | .ringProducer _ | .ringConsumer _ | .tester => none

/-- Admission: an operation charged to a quiescent instance, or issued by a stalled foreground, has no step;
one that fails a well-formedness check is refused and never executed (R119, R333, R334); any other runs. -/
def State.admitted (s : State) (i : Instr) (run : Out) : Out :=
  if (s.statusOf (s.instOf i)).any Status.quiescent then .fault .quiescent
  else
    match s.stall with
    | some f => .fault f
    | none =>
      match s.failedCheck i with
      | some c => .next (s.refuse (s.instOf i) c.reason)
      | none   => run

end Sys2Proof.Machine
end

