-- ==== Sys2Proof/Machine/Handlers.lean ====
section
/-! DEFINITION. The slave engine's event handlers (42_slave_engine.md) and the HAL part of its events
(41_hal.md R167, R168; 45_bus.md R304, R305), as functions of one slave node. Each is one atomic step
of the ISR context (R170). -/

namespace Sys2Proof.Machine

/-- The start handler, in any state (R201). -/
def Slave.startHandler (n : Slave) : Slave :=
  ((n.armShift 8).setLineDriven false).goto .waitForAddress

/-- `sendAck()` (R202): a 1-bit shift, data 0, the line driven. -/
def Slave.sendAck (n : Slave) : Slave :=
  ((n.armShift 1).writeSr 0x00).setLineDriven true

/-- `sendDataLogic()` (R203), shared by SendData and WaitAck. -/
def Slave.sendDataLogic (n : Slave) : Slave :=
  match n.tx.pop with
  | (some b, tx) =>
    ((({ n with tx := tx }.writeSr b).setLineDriven true).armShift 8).goto .requestAck
  | (none, _) => n.rearmStart.goto .waitForStart

/-- WaitForAddress: the address byte has been received (R205). -/
def Slave.onAddress (n : Slave) : Slave :=
  let b := n.sr
  let n := n.readSr
  if b = 0x00#8 ∨ b >>> 1 = n.own.setWidth 8 then
    n.sendAck.goto (if b.getLsbD 0 then .sendData else .sendAck)
  else n.rearmStart.goto .waitForStart

/-- SendAck: the ACK or NACK bit slot has passed (R206). -/
def Slave.onSendAck (n : Slave) : Slave :=
  ((n.armShift 8).setLineDriven false).goto .waitForData

/-- WaitForData: a data byte has been received (R207); with the rx ring full it is dropped and the
NACK slot is counted. -/
def Slave.onData (n : Slave) : Slave :=
  let b := n.sr
  let n := n.readSr
  match n.rx.push b with
  | (true, rx) => { n with rx := rx }.sendAck.goto .sendAck
  | (false, _) => ((n.setLineDriven false).armShift 1).goto .sendAck

/-- RequestAck: a data byte has been shifted out (R209). -/
def Slave.onRequestAck (n : Slave) : Slave :=
  ((n.armShift 1).setLineDriven false).goto .waitAck

/-- WaitAck: the master's acknowledge bit has been sampled (R210). -/
def Slave.onWaitAck (n : Slave) : Slave :=
  let v := n.sr
  let n := n.readSr
  if ackBit v then n.rearmStart.goto .waitForStart
  else n.sendDataLogic

/-- refuse(CORRUPT_STATE) (R200, R333). -/
def Slave.refuseCorrupt (n : Slave) : Slave := n.mapStatus (Status.refuse .corruptState)

/-- The shift-complete dispatch, by the state at delivery (R200). WaitForStart is a no-op (R204). -/
def Slave.shiftHandler (n : Slave) : Slave :=
  match n.state with
  | .waitForStart   => n
  | .waitForAddress => n.onAddress
  | .sendAck        => n.onSendAck
  | .waitForData    => n.onData
  | .sendData       => n.sendDataLogic
  | .requestAck     => n.onRequestAck
  | .waitAck        => n.onWaitAck
  | .corrupt        => n.refuseCorrupt

/-- EV_START as delivered (R167): it cancels any shift and wakes the foreground, then the start
handler runs. -/
def Slave.evStart (n : Slave) : Slave :=
  { n with armed := 0, sleeping := false }.startHandler

/-- EV_SHIFT as delivered (R168), `free` giving the seven open bits of a 1-bit shift. A refused
dispatch has no effect (R333). -/
def Slave.evShift (free w : Byte) (n : Slave) : Slave :=
  if n.state = .corrupt then n.refuseCorrupt
  else
    { n with
      sr       := if n.armed = 8 then w else oneBitSample free w
      armed    := 0
      sleeping := false }.shiftHandler

/-- EV_OTHER as delivered (R169). -/
def Slave.evOther (n : Slave) : Slave := { n with sleeping := false }

/-! ### On the wire (45_bus.md) -/

/-- An instance that exists and is not quiescent takes steps (R334; log 13). -/
def Slave.takesSteps (n : Slave) : Bool := n.isCreated && !n.status.quiescent

/-- The node's part in a bit slot: `sr[7]` if it drives, released (true) otherwise (R301). -/
def Slave.lineOut (n : Slave) : Bool := if n.driven then n.sr.getLsbD 7 else true

/-- An S at the node (R305). -/
def Slave.busStart (n : Slave) : Slave := if n.takesSteps && n.enabled then n.evStart else n

/-- A bit slot of value v at the node (R304): an armed node samples the bit, counts it, and at the
last bit runs the shift-complete handler. -/
def Slave.busSlot (v : Bool) (n : Slave) : Slave :=
  if n.takesSteps && n.enabled && decide (0 < n.armed) then
    if n.armed = 1 then
      if n.state = .corrupt then n.refuseCorrupt
      else { n with sr := shiftIn n.sr v, armed := 0, sleeping := false }.shiftHandler
    else { n with sr := shiftIn n.sr v, armed := n.armed - 1 }
  else n

end Sys2Proof.Machine
end

