-- ==== Sys2Proof/Machine/Wire.lean ====
section
/-! DEFINITION. The wire (45_bus.md): one bit slot over all nodes, a byte of eight slots, the symbols
of the master's actions. -/

namespace Sys2Proof.Machine

/-- The value of a bit slot: 0 if at least one device drives 0, 1 otherwise (R301). `bit` is the part
of the master, or of whoever clocks the wire. -/
def slotValue (bit : Bool) (nodes : List Slave) : Bool := bit && nodes.all Slave.lineOut

/-- One bit slot: its value is settled from the drivers' state at its start, then every node takes
it (R304, R309). -/
def State.wireBit (bit : Bool) (s : State) : State :=
  let v := slotValue bit s.slaves
  { s with slaves := s.slaves.map (Slave.busSlot v), bus := { s.bus with line := v } }

/-- Eight bit slots, the most significant bit first (R302). As the effect of a wire row they are one atomic
step, in which no other agent moves (DESIGN CHOICE, log 16). -/
def State.wireByte (b : Byte) (s : State) : State :=
  (bitsMsbFirst b).foldl (fun s bit => s.wireBit bit) s

/-- A bit slot of a master action: the master samples it as well (R303). -/
def State.masterSlot (bit ack : Bool) (s : State) : State :=
  let s := s.wireBit bit
  if ack then { s with bus := { s.bus with ack := s.bus.line } }
  else { s with bus := { s.bus with sampled := shiftIn s.bus.sampled s.bus.line } }

/-- One symbol of the wire: S starts every enabled node (R305), P moves no node (R306). -/
def State.carrySym (x : Sym) (s : State) : State :=
  match x with
  | .start        => { s with slaves := s.slaves.map Slave.busStart }
  | .stop         => s
  | .slot bit ack => s.masterSlot bit ack

/-- The wire has something to do: a symbol is due, or an operation whose symbols are complete is
still in flight. -/
def State.wireDue (s : State) : Bool :=
  match s.cfg.env with
  | .wire j => !s.bus.pending.isEmpty || (s.masterAt j).any (fun m => m.takesSteps && m.inFlight)
  | .events | .halBench | .bits => false

end Sys2Proof.Machine
end

