-- ==== Sys2Proof/Machine/Events.lean ====
section
/-! DEFINITION. The slave bus events, group 0x0 (41_hal.md R167-R169): admission of the event, then the
HAL part and the handler in one atomic step (R170). -/

namespace Sys2Proof.Machine

/-- EV_START (R167). -/
def execEvStart (s : State) : Out :=
  s.admitted .evStart <| s.onNode fun n =>
    if n.startAdmissible then .next (s.putNode n.evStart) else .fault .notAdmissible

/-- EV_SHIFT (R168). A 1-bit shift draws one free value, hal.sr[7:1] (log 10). -/
def execEvShift (w : Byte) (s : State) : Out :=
  s.admitted (.evShift w) <| s.onNode fun n =>
    if n.shiftAdmissible then
      .next { s.putNode (n.evShift (Config.freeByte s.draws) w) with
        draws := if n.armed = 1 then s.draws + 1 else s.draws }
    else .fault .notAdmissible

/-- EV_OTHER (R169): admissible at any time. -/
def execEvOther (s : State) : Out :=
  s.admitted .evOther <| s.onNode fun n => .next (s.putNode n.evOther)

end Sys2Proof.Machine
end

