-- ==== Sys2Proof/Machine/MasterApi.lean ====
section
/-! DEFINITION. The master API, group 0x3 (44_master.md). The operation's own step checks the arguments,
sets the transaction registers and issues MH_START, the call's first HAL action (R264, first row); the
steps after it are the master engine's further HAL actions (Machine/MasterHal.lean), until the call
returns. -/

namespace Sys2Proof.Machine

/-- A call is made (R260, R262, R263): the address is checked first, then the length; then, in the same step
(R8, R264), the transaction registers are set and MH_START is issued, with which m.phase is WAIT_START. A
fault ends the call with no HAL action and no result. -/
def State.beginCall (rw : Bool) (a : Byte) (buf : BufRef) (len : Nat) (s : State) (m : Master) : State :=
  if !targetAddressOk a then s.raiseFault (.master s.ctx.node) .badTargetAddress
  else if !lengthOk s.cfg buf len then s.raiseFault (.master s.ctx.node) .badLength
  else s.callStep .start { Call.start rw a buf len with phase := .waitStart } m

/-- M_TRANSMIT (R262). -/
def execMTransmit (a : Byte) (buf : BufRef) (len : Nat) (s : State) : Out :=
  s.admitted (.mTransmit a buf len) <| s.onMaster fun m => .next (s.beginCall false a buf len m)

/-- M_RECEIVE (R263). -/
def execMReceive (a : Byte) (out : BufRef) (len : Nat) (s : State) : Out :=
  s.admitted (.mReceive a out len) <| s.onMaster fun m => .next (s.beginCall true a out len m)

end Sys2Proof.Machine
end

