-- ==== Sys2Proof/Machine/MasterHal.lean ====
section
/-! DEFINITION. The master HAL actions, group 0x5 (41_hal.md R176-R183), each one step of the call in
progress (44_master.md, step granularity; R340), the environment's completion, group 0x6 (R184), and
the master's address bytes (30_encoding.md R104). -/

namespace Sys2Proof.Machine

/-- The HAL action a as the call's next step, which the admission has found it to be. -/
def State.masterIssue (a : MAct) (s : State) : Out :=
  s.onMaster fun m =>
    match m.call.bind (fun c => c.plan m.mem) with
    | none         => s.notHeld
    | some (_, c') => .next (s.callStep a c' m)

/-- MH_START (R176), where a call has it still to come; a call's own step issues it otherwise (R264, log 9). -/
def execMhStart (s : State) : Out := s.admitted .mhStart (s.masterIssue .start)

/-- MH_WRITE (R177). -/
def execMhWrite (v : Byte) (s : State) : Out := s.admitted (.mhWrite v) (s.masterIssue (.write v))

/-- MH_READ_ACK (R178). -/
def execMhReadAck (s : State) : Out := s.admitted .mhReadAck (s.masterIssue .readAck)

/-- MH_READ_NACK (R179). -/
def execMhReadNack (s : State) : Out := s.admitted .mhReadNack (s.masterIssue .readNack)

/-- MH_STOP (R180). -/
def execMhStop (s : State) : Out := s.admitted .mhStop (s.masterIssue .stop)

/-- MH_POLL (R181). -/
def execMhPoll (s : State) : Out := s.admitted .mhPoll (s.masterIssue .poll)

/-- MH_STATUS (R182). -/
def execMhStatus (s : State) : Out := s.admitted .mhStatus (s.masterIssue .status)

/-- MH_READ_DATA (R183). -/
def execMhReadData (s : State) : Out := s.admitted .mhReadData (s.masterIssue .readData)

/-- A completion is admissible while an operation is in flight (R184), on the composed wire once the
operation's symbols are complete (R308). -/
def State.completes (s : State) (m : Master) : Bool :=
  m.inFlight && (s.cfg.env != .wire s.ctx.node || s.bus.pending.isEmpty)

/-- The status and the data of a completion: the environment's own, any value, but on the composed wire those
the wire fixes, whatever the operands are (R184, R308; DEDUCED, log 19). -/
def State.answer (s : State) (m : Master) (st d : Byte) : Byte × Byte :=
  if s.cfg.env = .wire s.ctx.node then s.bus.completion s.cfg m.op else (st, d)

/-- ENV_M_COMPLETE (R184): not appended to any trace. -/
def execEnvMComplete (st d : Byte) (s : State) : Out :=
  s.admitted (.envMComplete st d) <| s.onMaster fun m =>
    if s.completes m then .next (s.putMaster (m.completeOp (s.answer m st d).1 (s.answer m st d).2))
    else .fault .notAdmissible

/-- MASTER_ADDR_WRITE: the address byte `(a << 1) | 0` as the master assembles it (R104), put out by
MH_WRITE (R262). -/
def execMasterAddrWrite (a : Addr7) (s : State) : Out :=
  s.admitted (.masterAddrWrite a) (s.masterIssue (.write (addrByte a false)))

/-- MASTER_ADDR_READ: the address byte `(a << 1) | 1` (R104), put out by MH_WRITE (R263). -/
def execMasterAddrRead (a : Addr7) (s : State) : Out :=
  s.admitted (.masterAddrRead a) (s.masterIssue (.write (addrByte a true)))

end Sys2Proof.Machine
end

