-- ==== Sys2Proof/Machine/RingOps.lean ====
section
/-! DEFINITION. The ring buffer primitives, group 0x2 (40_ringbuffer.md): q = 0 is the node's eng.rx,
q = 1 its eng.tx, any other q a stand-alone ring (30_encoding.md R115). -/

namespace Sys2Proof.Machine

/-- RB_INIT (R140): the ring is created with capacity N, empty, its storage any values. A bad N, and an
RB_INIT other than at creation, have been refused by the admission (log 23). -/
def execRbInit (q n : Nat) (s : State) : Out :=
  s.admitted (.rbInit q n) <|
    match q with
    | 0 => s.onNode fun x =>
      .next { s.putNode { x with rx := Ring.created (freeBytes s.draws n), rxCreated := true } with
        draws := s.draws + n }
    | 1 => s.onNode fun x =>
      .next { s.putNode { x with tx := Ring.created (freeBytes s.draws n), txCreated := true } with
        draws := s.draws + n }
    | q =>
      .next { s with
        rings := s.rings ++ [⟨q, Ring.created (freeElems s.draws n), Status.clean, []⟩]
        draws := s.draws + n }

/-- RB_PUSH (R143). -/
def execRbPush (q x : Nat) (s : State) : Out :=
  s.admitted (.rbPush q x) <|
    match q with
    | 0 => s.onNode fun n =>
      let r := n.rx.push (BitVec.ofNat 8 x)
      .next (s.putNode ({ n with rx := r.2 }.addResult (.bool r.1)))
    | 1 => s.onNode fun n =>
      let r := n.tx.push (BitVec.ofNat 8 x)
      .next (s.putNode ({ n with tx := r.2 }.addResult (.bool r.1)))
    | q => s.onRing q fun a =>
      let r := a.ring.push x
      .next (s.putRing ({ a with ring := r.2 }.addResult (.bool r.1)))

/-- RB_POP (R144). -/
def execRbPop (q : Nat) (s : State) : Out :=
  s.admitted (.rbPop q) <|
    match q with
    | 0 => s.onNode fun n =>
      let r := n.rx.pop
      .next (s.putNode ({ n with rx := r.2 }.addResult (.popped (r.1.map BitVec.toNat))))
    | 1 => s.onNode fun n =>
      let r := n.tx.pop
      .next (s.putNode ({ n with tx := r.2 }.addResult (.popped (r.1.map BitVec.toNat))))
    | q => s.onRing q fun a =>
      let r := a.ring.pop
      .next (s.putRing ({ a with ring := r.2 }.addResult (.popped r.1)))

/-- RB_HAS_DATA (R145). -/
def execRbHasData (q : Nat) (s : State) : Out :=
  s.admitted (.rbHasData q) <|
    match q with
    | 0 => s.onNode fun n => .next (s.putNode (n.addResult (.bool n.rx.hasData)))
    | 1 => s.onNode fun n => .next (s.putNode (n.addResult (.bool n.tx.hasData)))
    | q => s.onRing q fun a => .next (s.putRing (a.addResult (.bool a.ring.hasData)))

end Sys2Proof.Machine
end

