-- ==== Sys2Proof/Machine/SlaveApi.lean ====
section
/-! DEFINITION. The slave foreground interface, group 0x1 (43_slave_api.md). Each operation is one atomic
step of the node's foreground (R245). -/

namespace Sys2Proof.Machine

/-- What a legal INITIALIZE does to the node (R240, R372): both rings are kept. -/
def Slave.initEngine (a : Addr7) (n : Slave) : Slave :=
  { ({ n with own := a }.goto .waitForStart).rearmStart with enabled := true }

/-- INITIALIZE (R240): Fault BAD_OWN_ADDRESS for an address outside 1..127, with no other effect. -/
def execInitEngine (a : Byte) (s : State) : Out :=
  s.admitted (.initEngine a) <| s.onNode fun n =>
    if ownAddressOk a then .next (s.putNode (n.initEngine (toAddr7 a)))
    else .next (s.raiseFault (.slave s.ctx.node) .badOwnAddress)

/-- RB_PUSH on eng.tx, its result returned. -/
def Slave.pushTx (b : Byte) (n : Slave) : Slave :=
  { n with tx := (n.tx.push b).2 }.addResult (.bool (n.tx.push b).1)

/-- SEND_CHAR (R241). -/
def execSendChar (b : Byte) (s : State) : Out :=
  s.admitted (.sendChar b) <| s.onNode fun n => .next (s.putNode (n.pushTx b))

/-- CHAR_AVAILABLE (R242). -/
def execCharAvailable (s : State) : Out :=
  s.admitted .charAvailable <| s.onNode fun n =>
    .next (s.putNode (n.addResult (.bool n.rx.hasData)))

/-- RECEIVE_CHAR (R243): 0x00 if the ring is empty. -/
def execReceiveChar (s : State) : Out :=
  s.admitted .receiveChar <| s.onNode fun n =>
    .next (s.putNode ({ n with rx := n.rx.pop.2 }.addResult (.byte (n.rx.pop.1.getD 0x00))))

/-- SLEEP (R244): Fault SLEEP_WITH_RX_PENDING if rx holds data at the call; else the foreground is
halted until an event clears the flag, and has no step meanwhile (R47). -/
def execSleep (s : State) : Out :=
  s.admitted .sleep <| s.onNode fun n =>
    if n.rx.hasData then .next (s.raiseFault (.slave s.ctx.node) .sleepWithRxPending)
    else .next (s.putNode { n with sleeping := true })

end Sys2Proof.Machine
end

