-- ==== Sys2Proof/Machine/SlaveHal.lean ====
section
/-! DEFINITION. The slave HAL actions as operations of their own, group 0x4 (41_hal.md R161-R165). The
handlers and INITIALIZE apply the same actions inside their own step, which is where R340 places them;
on its own an action is issued by the HAL bench (log 8). -/

namespace Sys2Proof.Machine

/-- ARM_SHIFT (R161); a k other than 1 or 8 has been refused by WF_K. -/
def execArmShift (k : Nat) (s : State) : Out :=
  s.admitted (.armShift k) <| s.onNode fun n => .next (s.putNode (n.armShift k))

/-- SET_LINE_DRIVEN (R162). -/
def execSetLineDriven (d : Bool) (s : State) : Out :=
  s.admitted (.setLineDriven d) <| s.onNode fun n => .next (s.putNode (n.setLineDriven d))

/-- READ_SR (R163): the value read is returned. -/
def execReadSr (s : State) : Out :=
  s.admitted .readSr <| s.onNode fun n => .next (s.putNode (n.readSr.addResult (.byte n.sr)))

/-- WRITE_SR (R164). -/
def execWriteSr (v : Byte) (s : State) : Out :=
  s.admitted (.writeSr v) <| s.onNode fun n => .next (s.putNode (n.writeSr v))

/-- REARM_START (R165). -/
def execRearmStart (s : State) : Out :=
  s.admitted .rearmStart <| s.onNode fun n => .next (s.putNode n.rearmStart)

end Sys2Proof.Machine
end

