-- ==== Sys2Proof/Machine/WireRows.lean ====
section
/-! DEFINITION. The wire rows of opcode_table.json that a slave sees: an address byte (30_encoding.md
R101-R103) is eight bit slots on the wire, an acknowledge bit (R105) is one. Every node takes the
slots (45_bus.md R301-R304), and a node in WaitForAddress classifies the byte when its eighth bit is
in (42_slave_engine.md R205). An unnamed master puts them on the wire, in the environment
`bits`. The spec gives a row no step: each is one atomic step here, an address byte with all its eight slots
(DESIGN CHOICE, log 16). -/

namespace Sys2Proof.Machine

/-- ADDR_GENERAL_CALL: the byte 0x00 (R102). -/
def execAddrGeneralCall (s : State) : Out := s.admitted .addrGeneralCall (.next (s.wireByte 0x00))

/-- ADDR_OWN_WRITE: the address a with rw = 0 (R101). -/
def execAddrOwnWrite (a : Addr7) (s : State) : Out :=
  s.admitted (.addrOwnWrite a) (.next (s.wireByte (addrByte a false)))

/-- ADDR_OWN_READ: the address a with rw = 1 (R101). -/
def execAddrOwnRead (a : Addr7) (s : State) : Out :=
  s.admitted (.addrOwnRead a) (.next (s.wireByte (addrByte a true)))

/-- ADDR_NO_MATCH: any other address byte (R103). -/
def execAddrNoMatch (a : Addr7) (rw : Bool) (s : State) : Out :=
  s.admitted (.addrNoMatch a rw) (.next (s.wireByte (addrByte a rw)))

/-- WIRE_ACK: an acknowledge slot in which the receiver pulls the line low (R105). -/
def execWireAck (s : State) : Out := s.admitted .wireAck (.next (s.wireBit false))

/-- WIRE_NACK: an acknowledge slot in which the receiver leaves the line high (R105). -/
def execWireNack (s : State) : Out := s.admitted .wireNack (.next (s.wireBit true))

end Sys2Proof.Machine
end

