-- ==== Sys2Proof/Machine/Dispatch.lean ====
section
/-! DEFINITION. The dispatch: one arm per operation, each the call of that operation's meaning. -/

namespace Sys2Proof.Machine

def exec (i : Instr) (s : State) : Host.Outcome State Fault Refusal :=
  match i with
  | .evStart => Sys2Proof.Machine.execEvStart s
  | .evShift w => Sys2Proof.Machine.execEvShift w s
  | .evOther => Sys2Proof.Machine.execEvOther s
  | .initEngine a => Sys2Proof.Machine.execInitEngine a s
  | .sendChar b => Sys2Proof.Machine.execSendChar b s
  | .charAvailable => Sys2Proof.Machine.execCharAvailable s
  | .receiveChar => Sys2Proof.Machine.execReceiveChar s
  | .sleep => Sys2Proof.Machine.execSleep s
  | .rbInit q n => Sys2Proof.Machine.execRbInit q n s
  | .rbPush q x => Sys2Proof.Machine.execRbPush q x s
  | .rbPop q => Sys2Proof.Machine.execRbPop q s
  | .rbHasData q => Sys2Proof.Machine.execRbHasData q s
  | .mTransmit a buf len => Sys2Proof.Machine.execMTransmit a buf len s
  | .mReceive a out len => Sys2Proof.Machine.execMReceive a out len s
  | .armShift k => Sys2Proof.Machine.execArmShift k s
  | .setLineDriven d => Sys2Proof.Machine.execSetLineDriven d s
  | .readSr => Sys2Proof.Machine.execReadSr s
  | .writeSr v => Sys2Proof.Machine.execWriteSr v s
  | .rearmStart => Sys2Proof.Machine.execRearmStart s
  | .mhStart => Sys2Proof.Machine.execMhStart s
  | .mhWrite v => Sys2Proof.Machine.execMhWrite v s
  | .mhReadAck => Sys2Proof.Machine.execMhReadAck s
  | .mhReadNack => Sys2Proof.Machine.execMhReadNack s
  | .mhStop => Sys2Proof.Machine.execMhStop s
  | .mhPoll => Sys2Proof.Machine.execMhPoll s
  | .mhStatus => Sys2Proof.Machine.execMhStatus s
  | .mhReadData => Sys2Proof.Machine.execMhReadData s
  | .envMComplete st d => Sys2Proof.Machine.execEnvMComplete st d s
  | .addrGeneralCall => Sys2Proof.Machine.execAddrGeneralCall s
  | .addrOwnWrite a => Sys2Proof.Machine.execAddrOwnWrite a s
  | .addrOwnRead a => Sys2Proof.Machine.execAddrOwnRead a s
  | .addrNoMatch a rw => Sys2Proof.Machine.execAddrNoMatch a rw s
  | .masterAddrWrite a => Sys2Proof.Machine.execMasterAddrWrite a s
  | .masterAddrRead a => Sys2Proof.Machine.execMasterAddrRead a s
  | .wireAck => Sys2Proof.Machine.execWireAck s
  | .wireNack => Sys2Proof.Machine.execWireNack s

end Sys2Proof.Machine
end

