-- ==== Sys2Proof/Machine/Turns.lean ====
section
/-! DEFINITION. Who moves: the turns of the schedule, and the agents that move by themselves when nothing
is scheduled (log 5, log 15). Every turn that performs an operation performs it by `exec`. -/

namespace Sys2Proof.Machine

/-- The agent R340 lets issue an operation, for an operation placed without one. -/
def issuerOf (env : Env) (node : Nat) (i : Instr) : Agent :=
  match i with
  | .evStart | .evShift _ | .evOther => .env
  | .initEngine _ | .sendChar _ | .charAvailable | .receiveChar | .sleep => .slaveFg
  | .rbInit _ _ => .creator
  | .rbPush 0 _ => .isr
  | .rbPush 1 _ => .slaveFg
  | .rbPush q _ => .ringProducer q
  | .rbPop 0 => .slaveFg
  | .rbPop 1 => .isr
  | .rbPop q => .ringConsumer q
  | .rbHasData 0 => .slaveFg
  | .rbHasData 1 => .tester
  | .rbHasData q => .ringConsumer q
  | .mTransmit _ _ _ | .mReceive _ _ _ => .masterFg
  | .armShift _ | .setLineDriven _ | .readSr | .writeSr _ | .rearmStart => .isr
  | .mhStart | .mhWrite _ | .mhReadAck | .mhReadNack | .mhStop | .mhPoll | .mhStatus | .mhReadData
  | .masterAddrWrite _ | .masterAddrRead _ => .masterEngine
  | .envMComplete _ _ => if env = .wire node then .wire else .env
  | .addrGeneralCall | .addrOwnWrite _ | .addrOwnRead _ | .addrNoMatch _ _ | .wireAck | .wireNack => .env

/-- The own address an address byte is decoded against: that of the issuing node (R103). -/
def State.ownHere (s : State) : Addr7 := (s.node?.map (·.own)).getD 0

/-- Something undecodable is refused as UNASSIGNED_WORD, and has no effect (R117, R333). -/
def State.refuseUndecoded (s : State) (fmt : Format) (word : Byte) : Out :=
  if (s.statusOf (s.instOfWord fmt word)).any Status.quiescent then .fault .quiescent
  else
    match s.stall with
    | some f => .fault f
    | none   => .next (s.refuse (s.instOfWord fmt word) .unassignedWord)

/-- An agent issues an encoded operation on a node: it is decoded and executed. -/
def State.issueTurn (agent : Agent) (node : Nat) (op : Encoded) (s : State) : Out :=
  let s := { s with ctx := ⟨agent, node⟩ }
  match decode s.ownHere op.fmt op.bits op.fields with
  | .ok i     => exec i s
  | .reject _ => s.refuseUndecoded op.fmt op.bits

/-- The schedule with what is left of an expansion in front, if anything is. -/
def pushExpand (node : Nat) (rest : List BusEvent) (sched : List Turn) : List Turn :=
  match rest with
  | [] => sched
  | _ :: _ => .expand node rest :: sched

/-- An expansion of BUS_WRITE or BUS_READ (30_encoding.md R121): its events are delivered one a step,
and it "ends early at the first EV_SHIFT that is not admissible". -/
def State.expandTurn (node : Nat) (events : List BusEvent) (s : State) : Out :=
  match events with
  | [] => .next s
  | .start :: rest =>
    exec .evStart { s with ctx := ⟨.env, node⟩, sched := pushExpand node rest s.sched }
  | .shift w :: rest =>
    match exec (.evShift w) { s with ctx := ⟨.env, node⟩, sched := pushExpand node rest s.sched } with
    | .fault .notAdmissible => .next s
    | o => o

/-- The HAL action the call of node j's master issues next. -/
def State.nextActAt (s : State) (j : Nat) : Option MAct := (s.masterAt j).bind Master.nextAct

/-- The master engine of node j issues the next HAL action of its call (44_master.md R264). -/
def State.masterTurn (j : Nat) (s : State) : Out :=
  match s.nextActAt j with
  | none   => .fault .noStep
  | some a => exec a.toInstr { s with ctx := ⟨.masterEngine, j⟩ }

/-- The wire carries its next symbol, or, when the symbols of the operation in flight are complete,
completes it (45_bus.md R308). The symbols a master's action has put on the wire are due whether or not
that master has become quiescent since (R334): a step of the wire is no step of an agent of the master
(DEDUCED, log 15). A quiescent master's operation is not completed. -/
def State.wireTurn (s : State) : Out :=
  match s.cfg.env with
  | .events | .halBench | .bits => .fault .noStep
  | .wire j =>
    match s.bus.pending with
    | x :: xs => .next ({ s with bus := { s.bus with pending := xs } }.carrySym x)
    | [] =>
      match s.masterAt j with
      | none => .fault .noStep
      | some m =>
        if m.inFlight then
          let c := s.bus.completion s.cfg m.op
          exec (.envMComplete c.1 c.2) { s with ctx := ⟨.wire, j⟩ }
        else .fault .noStep

/-- The environment answers the operation in flight of node j's master from its status script, if the
wire is not that master's environment (30_encoding.md R122). -/
def State.scriptDue (s : State) (j : Nat) : Bool :=
  s.cfg.env != .wire j && (s.masterAt j).any (fun m => m.takesSteps && m.inFlight) &&
  (s.scripts[j]?).any (fun l => !l.isEmpty)

def State.scriptTurn (j : Nat) (s : State) : Out :=
  match s.scripts[j]? with
  | some ((st, d) :: xs) =>
    exec (.envMComplete st d) { s with scripts := s.scripts.set j xs, ctx := ⟨.env, j⟩ }
  | _ => .fault .noStep

/-- A call of node j's master is in progress, and the master takes steps. -/
def State.callAt (s : State) (j : Nat) : Bool :=
  (s.masterAt j).any (fun m => m.takesSteps && m.call.isSome)

/-- The lowest node of which p holds. -/
def State.firstNode (s : State) (p : Nat → Bool) : Option Nat := (List.range s.masters.length).find? p

/-- Nothing is scheduled: the wire moves if it has something to do, else a status script answers, else a
call in progress takes its next step, which may be one more MH_POLL without end (R261), the lowest
node first in each case (log 15); else the run has ended (R386). -/
def State.idleTurn (s : State) : Out :=
  if s.wireDue then s.wireTurn
  else
    match s.firstNode s.scriptDue with
    | some j => s.scriptTurn j
    | none =>
      match s.firstNode s.callAt with
      | some j => s.masterTurn j
      | none   => .fault .noStep

/-- Something moves without being scheduled. -/
def State.movesAlone (s : State) : Bool :=
  s.wireDue || (s.firstNode s.scriptDue).isSome || (s.firstNode s.callAt).isSome

/-- The schedule waits: what moves by itself moves, and the wait ends when nothing does. -/
def State.awaitTurn (s : State) : Out :=
  if s.movesAlone then State.idleTurn { s with sched := .await :: s.sched } else .next s

/-- One turn of the schedule, already taken off it. -/
def State.takeTurn (t : Turn) (s : State) : Out :=
  match t with
  | .issue agent node op => s.issueTurn agent node op
  | .expand node events  => s.expandTurn node events
  | .master node         => s.masterTurn node
  | .wire                => s.wireTurn
  | .await               => s.awaitTurn

/-- The turn in which the operation the bits w stand for is issued, by an agent that may issue it. Bits
that are no operation, a reserved word or a listed word with a bad record, no row of R340 gives an issuer,
and R113 gives the reserved groups none: they are issued by the environment of the node (DESIGN CHOICE,
log 31), so the refusal of R117 falls where `State.instOfWord` has it for the environment. -/
def State.turnOfBits (s : State) (nbits w : Nat) : Turn :=
  let f := tableFields nbits w
  let agent :=
    match decodeOp f.1 f.2 with
    | .ok i     => issuerOf s.cfg.env s.ctx.node i
    | .reject _ => .env
  .issue agent s.ctx.node (.op f.1 f.2)

end Sys2Proof.Machine
end

