-- ==== Sys2Proof/Machine/Step.lean ====
section
/-! DEFINITION. One step of the machine: the next turn of the schedule, or what moves by itself when
nothing is scheduled. -/

namespace Sys2Proof.Machine

/-- One step (00_scope.md R8, R14): the first turn of the schedule is taken off it and performed. -/
def step (s : State) : Host.Outcome State Fault Refusal :=
  match s.sched with
  | []        => s.idleTurn
  | t :: rest => State.takeTurn t { s with sched := rest }

/-- The state with the operation the bits w stand for placed first on the schedule, so that the very
next step issues it (log 5). -/
def State.withFetchWord (s : State) (nbits w : Nat) : State :=
  { s with sched := s.turnOfBits nbits w :: s.sched }

end Sys2Proof.Machine
end

