-- ==== Sys2Proof/Machine/Pseudo.lean ====
section
/-! DEFINITION. Programs from outside (30_encoding.md R120-R122): the pseudo-operations BUS_WRITE and
BUS_READ, the status script, and the text form of an operation. None of it is run by `step`: it is
how a schedule, a script and the caller's memory are written down before a run (log 5). -/

namespace Sys2Proof.Machine

/-! ### BUS_WRITE and BUS_READ (R121) -/

/-- The events of `BUS_WRITE a, [d0, ...]`: the address byte and its ACK slot, then each data byte and
its ACK slot. The w of a slot the handler does not read is 0x00 by convention. -/
def busWriteEvents (a : Addr7) (data : List Byte) : List BusEvent :=
  [.start, .shift (addrByte a false), .shift 0x00] ++
    data.flatMap (fun d => [.shift d, .shift 0x00])

/-- The events of `BUS_READ a, n`: the address byte and its ACK slot, then n data bytes, each answered
with ACK but the last with NACK. -/
def busReadEvents (a : Addr7) (n : Nat) : List BusEvent :=
  [.start, .shift (addrByte a true), .shift 0x00] ++
    (List.range n).flatMap (fun j => [.shift 0x00, .shift (if j + 1 < n then 0x00 else 0x01)])

def busWrite (node : Nat) (a : Addr7) (data : List Byte) : Turn := .expand node (busWriteEvents a data)

def busRead (node : Nat) (a : Addr7) (n : Nat) : Turn := .expand node (busReadEvents a n)

/-- An operation as a turn: issued on a node by an agent R340 lets issue it. -/
def issue (node : Nat) (i : Instr) : Turn := .issue (issuerOf .events node i) node (encode i)

/-- A master whose caller's memory has been given these bytes. -/
def Master.loadMem (cells : List Host.Cell) (m : Master) : Master :=
  { m with mem := cells.foldl (fun x c => Memory.write x c.1 c.2) m.mem }

/-- A program placed from outside: its turns, the status script of each node's master (R122), and bytes
in each node's caller's memory (R65). -/
def State.load (turns : List Turn) (scripts : List (List (Byte × Byte)))
    (cells : List (List Host.Cell)) (s : State) : State :=
  { s with
    sched   := turns
    scripts := scripts
    masters := s.masters.mapIdx (fun j m => m.map (Master.loadMem ((cells[j]?).getD []))) }

/-! ### The text form of a line (R120): `MNEMONIC [operand (, operand)] [-> name]` -/

/-- A token of a line. -/
inductive Token where
  | word (w : List Char)
  | num (n : Nat)
  | comma
  | open_
  | close
  | arrow
  deriving DecidableEq, Repr

/-- The value of a hexadecimal digit, either case. -/
def digitValue (c : Char) : Nat :=
  if c.isDigit then c.toNat - '0'.toNat
  else if c.isLower then c.toNat - 'a'.toNat + 10
  else c.toNat - 'A'.toNat + 10

def isHexDigit (c : Char) : Bool :=
  c.isDigit || (('a' ≤ c && c ≤ 'f') || ('A' ≤ c && c ≤ 'F'))

def isWordChar (c : Char) : Bool := c.isAlphanum || c == '_'

def digitsValue (base : Nat) (ds : List Char) : Nat := ds.foldl (fun v c => v * base + digitValue c) 0

/-- Lexing, with fuel for the number of characters left. A `;` starts a comment. -/
def lex (fuel : Nat) (cs : List Char) : Option (List Token) :=
  match fuel, cs with
  | 0, _ => none
  | _ + 1, [] => some []
  | _ + 1, ';' :: _ => some []
  | f + 1, ' ' :: cs => lex f cs
  | f + 1, ',' :: cs => (lex f cs).map (.comma :: ·)
  | f + 1, '[' :: cs => (lex f cs).map (.open_ :: ·)
  | f + 1, ']' :: cs => (lex f cs).map (.close :: ·)
  | f + 1, '-' :: '>' :: cs => (lex f cs).map (.arrow :: ·)
  | f + 1, '0' :: 'x' :: cs =>
    let ds := cs.takeWhile isHexDigit
    if ds.isEmpty then none
    else (lex f (cs.dropWhile isHexDigit)).map (.num (digitsValue 16 ds) :: ·)
  | f + 1, c :: cs =>
    if c.isDigit then
      (lex f (cs.dropWhile Char.isDigit)).map
        (.num (digitsValue 10 (c :: cs.takeWhile Char.isDigit)) :: ·)
    else if isWordChar c then
      (lex f (cs.dropWhile isWordChar)).map (.word (c :: cs.takeWhile isWordChar) :: ·)
    else none

/-- An operand of a line: a number or a buffer `[b0, b1, ...]`. -/
inductive Operand where
  | num (n : Nat)
  | buf (bytes : List Nat)
  deriving DecidableEq, Repr

/-- The rest of a buffer after its `[`. -/
def parseBytes (fuel : Nat) (acc : List Nat) (ts : List Token) : Option (List Nat × List Token) :=
  match fuel, ts with
  | _ + 1, .close :: ts => some (acc, ts)
  | _ + 1, .num n :: .close :: ts => some (acc ++ [n], ts)
  | f + 1, .num n :: .comma :: ts => parseBytes f (acc ++ [n]) ts
  | _, _ => none

/-- The operands of a line, and what follows them. -/
def parseOperands (fuel : Nat) (acc : List Operand) (ts : List Token) :
    Option (List Operand × List Token) :=
  match fuel, ts with
  | f + 1, .num n :: ts =>
    match ts with
    | .comma :: ts => parseOperands f (acc ++ [.num n]) ts
    | ts           => some (acc ++ [.num n], ts)
  | f + 1, .open_ :: ts =>
    match parseBytes f [] ts with
    | some (bs, .comma :: ts) => parseOperands f (acc ++ [.buf bs]) ts
    | some (bs, ts)           => some (acc ++ [.buf bs], ts)
    | none                    => none
  | _ + 1, ts => some (acc, ts)
  | 0, _ => none

/-- The operation words of R114 by mnemonic. -/
def wordTable : List (String × Byte) :=
  [("EV_START", 0x00), ("EV_SHIFT", 0x01), ("EV_OTHER", 0x02), ("INITIALIZE", 0x10),
   ("SEND_CHAR", 0x11), ("CHAR_AVAILABLE", 0x12), ("RECEIVE_CHAR", 0x13), ("SLEEP", 0x14),
   ("RB_INIT", 0x20), ("RB_PUSH", 0x21), ("RB_POP", 0x22), ("RB_HAS_DATA", 0x23)] ++
  [("M_TRANSMIT", 0x30), ("M_RECEIVE", 0x31), ("ARM_SHIFT", 0x40), ("SET_LINE_DRIVEN", 0x41),
   ("READ_SR", 0x42), ("WRITE_SR", 0x43), ("REARM_START", 0x44), ("MH_START", 0x50),
   ("MH_WRITE", 0x51), ("MH_READ_ACK", 0x52), ("MH_READ_NACK", 0x53), ("MH_STOP", 0x54)] ++
  [("MH_POLL", 0x55), ("MH_STATUS", 0x56), ("MH_READ_DATA", 0x57), ("ENV_M_COMPLETE", 0x60)]

/-- A line: the operation, the bytes of a buffer written in it, and the name its result is bound to. -/
structure Line where
  op     : Instr
  bytes  : List Nat
  result : Option (List Char)
  deriving DecidableEq, Repr

/-- The record fields of an operand; a buffer is placed in the caller's memory at `base`. -/
def Operand.fields (base : Nat) : Operand → List Nat
  | .num n  => [n]
  | .buf bs => [base, 0, bs.length]

def Operand.bytes : Operand → List Nat
  | .num _  => []
  | .buf bs => bs

/-- The end of a line: nothing, or `-> name`. -/
def parseResult (ts : List Token) : Option (Option (List Char)) :=
  match ts with
  | []                => some none
  | [.arrow, .word w] => some (some w)
  | _                 => none

/-- A line from its tokens: "the encoded form of a line is its operation word followed by its operand
record" (R120), which is then decoded. -/
def parseLine (base : Nat) (ts : List Token) : Option Line :=
  match ts with
  | .word w :: ts =>
    match wordTable.find? (fun e => e.1.toList == w), parseOperands (ts.length + 1) [] ts with
    | some (_, word), some (ops, rest) =>
      match parseResult rest, decodeOp word (ops.flatMap (Operand.fields base)) with
      | some r, .ok i => some ⟨i, ops.flatMap Operand.bytes, r⟩
      | _, _          => none
    | _, _ => none
  | _ => none

/-- The text of a line, assembled with its buffer at `base`. -/
def assemble (base : Nat) (line : String) : Option Line :=
  match lex (line.toList.length + 1) line.toList with
  | some ts => parseLine base ts
  | none    => none

end Sys2Proof.Machine
end

