-- ==== Sys2Proof/Safety.lean ====
section
/-! DEFINITION. What claims are stated in: when an instance is free to take an operation, the legal
values of the registers (10_state.md R62), the invariant every step keeps, the correspondence of
42_slave_engine.md R213, a clean state and a final state (60_exceptions.md R334, R386). -/

namespace Sys2Proof.Machine

/-! ### When an operation may run, on the state alone -/

/-- The issuing node's slave engine is n, created with admitted capacities (R119), has recorded no fault
and no refusal, and agent a issues. -/
def NodeReady (s : State) (n : Slave) (a : Agent) : Prop :=
  s.node? = some n ∧ n.rxCreated = true ∧ n.txCreated = true ∧ n.status = Status.clean ∧
  s.ctx.agent = a ∧ n.configOk s.cfg.indexBits = true

/-- The node's foreground can step: it is not halted in SLEEP (R47) and not inside a call of the node's
master (R343). -/
def ForegroundFree (s : State) (n : Slave) : Prop :=
  n.sleeping = false ∧ ∀ m, s.master? = some m → m.call = none

/-- The issuing node's master engine is m, has recorded no fault and no refusal, agent a issues, and the
foreground of the node is not halted in SLEEP (R343, R47). -/
def MasterReady (s : State) (m : Master) (a : Agent) : Prop :=
  s.master? = some m ∧ m.status = Status.clean ∧ s.ctx.agent = a ∧
  ∀ n, s.node? = some n → n.sleeping = false

/-- Stand-alone ring r is the ring q, clean, with an admitted capacity (R119), and agent a issues. -/
def RingReady (s : State) (q : Nat) (r : Standalone) (a : Agent) : Prop :=
  2 ≤ q ∧ s.ring? q = some r ∧ r.status = Status.clean ∧ s.ctx.agent = a ∧
  ringConfigOk s.cfg.indexBits r.ring.n = true

/-- An unnamed master, which has been refused nothing, clocks bits on the wire (log 16, log 13). -/
def WireReady (s : State) : Prop :=
  recordOf s.outside ⟨s.ctx, none⟩ = Status.clean ∧ s.ctx.agent = .env ∧ s.cfg.env = .bits

/-- The slave HAL surface is exercised on its own, on a node that has not been initialized (log 8). -/
def HalReady (s : State) (n : Slave) : Prop :=
  NodeReady s n .isr ∧ s.cfg.env = .halBench ∧ n.enabled = false

/-! ### Legal values and the invariant -/

/-- The legal values of a ring (R30, R62): 1 <= N <= 2^INDEX_BITS, indices in [0, N), N slots. -/
def Ring.wf {α : Type} (indexBits : Nat) (r : Ring α) : Prop :=
  1 ≤ r.n ∧ r.n ≤ 2 ^ indexBits ∧ r.read < r.n ∧ r.write < r.n ∧ r.storage.length = r.n

/-- The legal values of a slave node's registers (R62): created rings legal, hal.armed in 0..8,
eng.state not the encoding 7, eng.ownAddress legal from the first INITIALIZE on, faults a set; before that
INITIALIZE rx is empty and nothing has been taken from tx (R371). -/
def Slave.wf (p : Params) (n : Slave) : Prop :=
  (n.rxCreated = true → n.rx.wf p.indexBits) ∧ (n.txCreated = true → n.tx.wf p.indexBits) ∧
  n.armed ≤ 8 ∧ n.state ≠ .corrupt ∧ (n.enabled = true → n.own ≠ 0) ∧ n.status.faults.Nodup ∧
  (n.enabled = false → n.rx.read = n.rx.write ∧ n.tx.read = 0)

/-- The legal values of the transaction registers between two steps of a call (R51, R64, R260): its MH_START
has been issued (R264), and m.phase is one of the three that wait. -/
def Call.wf (p : Params) (c : Call) : Prop :=
  c.pos ≠ .begin ∧ (c.phase = .waitStart ∨ c.phase = .waitAddr ∨ c.phase = .waitData) ∧
  c.len ≤ p.lenMax ∧ c.len ≤ bufLen c.buf ∧
  (c.phase = .waitData → c.i < c.len) ∧ (c.phase ≠ .waitData → c.i = 0) ∧
  (c.pos = .readData ∨ c.pos = .stored → c.rw = true ∧ c.phase = .waitData)

/-- The registers of a master instance: a legal call; an operation is in flight only while a call polls
for it, so that the engine "never issues an operation while a previous one is in flight" (R175); past the
poll the operation has completed, and what MH_STATUS and MH_READ_DATA read has been written (R334). -/
def Master.registersWf (p : Params) (m : Master) : Prop :=
  m.status.faults.Nodup ∧
  (m.inFlight = true → ∃ c, m.call = some c ∧ c.pos = .poll) ∧
  ∀ c, m.call = some c → c.wf p ∧ (c.pos = .poll → m.inFlight = true ∨ m.complete = true) ∧
    (c.pos ≠ .poll → m.complete = true)

/-- A master instance with its caller's memory, which is canonical (log 11). -/
def Master.wf (p : Params) (m : Master) : Prop := m.mem.wf ∧ m.registersWf p

/-- A stand-alone ring instance has a number of its own kind (R115) and a legal ring. -/
def Standalone.wf (p : Params) (r : Standalone) : Prop :=
  2 ≤ r.q ∧ r.ring.wf p.indexBits ∧ r.status.faults.Nodup

/-- The invariant: the statuses told apart (R10), every register legal, every caller's memory canonical,
ring numbers distinct, and one record for each issuer that is an agent of no instance. -/
def State.Inv (s : State) : Prop :=
  s.cfg.statusesDiffer = true ∧ (∀ n ∈ s.slaves, n.wf s.cfg) ∧
  (∀ m, some m ∈ s.masters → m.wf s.cfg) ∧ (∀ r ∈ s.rings, r.wf s.cfg) ∧
  (s.rings.map (·.q)).Nodup ∧ (s.outside.map (·.1)).Nodup

/-! ### The HAL registers stand with eng.state (R213) -/

/-- R213's table for one node, at an event boundary. -/
def Slave.inStep (n : Slave) : Prop :=
  match n.state with
  | .waitForStart   => n.armed = 0 ∧ n.driven = false
  | .waitForAddress => n.armed = 8 ∧ n.driven = false
  | .sendAck        => n.armed = 1
  | .waitForData    => n.armed = 8 ∧ n.driven = false
  | .sendData       => n.armed = 1 ∧ n.driven = true
  | .requestAck     => n.armed = 8 ∧ n.driven = true
  | .waitAck        => n.armed = 1 ∧ n.driven = false
  | .corrupt        => False

/-- R213's table with the shift in progress: between bit slots hal.armed may have counted down, but a
shift still armed is not yet over (R43, R304). -/
def Slave.inStepOnWire (n : Slave) : Prop :=
  match n.state with
  | .waitForStart   => n.armed = 0 ∧ n.driven = false
  | .waitForAddress => 1 ≤ n.armed ∧ n.armed ≤ 8 ∧ n.driven = false
  | .sendAck        => n.armed = 1
  | .waitForData    => 1 ≤ n.armed ∧ n.armed ≤ 8 ∧ n.driven = false
  | .sendData       => n.armed = 1 ∧ n.driven = true
  | .requestAck     => 1 ≤ n.armed ∧ n.armed ≤ 8 ∧ n.driven = true
  | .waitAck        => n.armed = 1 ∧ n.driven = false
  | .corrupt        => False

/-- R213's correspondence for a node under its environment: exactly the table where events are
delivered whole, the table with the shift in progress where bits are clocked. Before its INITIALIZE the
HAL bench drives the HAL of a node by itself, and there nothing is said (log 8). -/
def Slave.standsUnder (env : Env) (n : Slave) : Prop :=
  match env with
  | .events        => n.inStep
  | .halBench      => n.enabled = true → n.inStep
  | .bits | .wire _ => n.inStepOnWire

/-! ### Clean and final states -/

/-- No fault is recorded and nothing was refused (R334). -/
def State.clean (s : State) : Bool :=
  s.slaves.all (fun n => !n.status.quiescent) &&
  s.masters.all (fun m => m.all Master.takesSteps) &&
  s.rings.all (fun r => !r.status.quiescent) && s.outside.all (fun x => !x.2.quiescent)

/-- A run's final state (R386): clean; every foreground agent has issued the last operation of its
program and the environment has no further event, so nothing is scheduled; no call is in progress
and no foreground asleep; no master operation is in flight and the wire owes no symbol. -/
def State.final (s : State) : Bool :=
  s.clean && s.sched.isEmpty && s.slaves.all (fun n => !n.sleeping) &&
  s.masters.all (fun m => m.all (fun m => m.call.isNone && m.op == .none)) && s.bus.pending.isEmpty

/-- What is observed of a slave node (R386): the results and hal.trace. -/
def Slave.observation (n : Slave) : List Result × List SAct := (n.results, n.trace)

/-- What is observed of a master (R386): the results and mh.trace. -/
def Master.observation (m : Master) : List Result × List MAct := (m.results, m.trace)

end Sys2Proof.Machine
end

