-- ==== Sys2Proof/Certificates/Slice0/Obligations.lean ====
section
/-! DEFINITION. The statements for the provers. Each docstring names the rules of spec/ it formalises. A
free value (log 10) is only ever said to exist; no statement rests on a parameter's value or on a
register's value at reset, but for `RegistersAfterReset` and `ResetIsLegal`. -/

open Sys2Proof Sys2Proof.Machine

/-! ## Encoding -/

/-- Decode and encode agree: every operation, with every operand the encoding admits, and every wire
row coherent with the slave's own address, decodes from its encoded form to itself (R114, R115, R123,
R103, R104, R105). -/
def Obligations.EncodedOperationDecodesToItself : Prop :=
  ∀ (own : Addr7) (i : Instr), i.coherent own = true →
    decode own (encode i).fmt (encode i).bits (encode i).fields = .ok i

/-- The other direction: what decodes is the encoded form of what it decodes to, so no two encoded
forms of one format mean the same operation and no bit is dropped (R114, R123). -/
def Obligations.DecodedFormIsTheEncodedForm : Prop :=
  ∀ (own : Addr7) (fmt : Format) (bits : Byte) (fields : List Nat) (i : Instr),
    decode own fmt bits fields = .ok i → encode i = ⟨fmt, bits, fields⟩

/-- Words written out from R114's map and records from R115; that a record is its fields in R114's order,
and a buffer reference the three fields base, tag and size, is the model's choice (log 6). -/
def Obligations.SampleOperationWordsDecode : Prop :=
  decodeOp 0x00 [] = .ok .evStart ∧
  decodeOp 0x01 [0x42] = .ok (.evShift 0x42) ∧
  decodeOp 0x10 [0x21] = .ok (.initEngine 0x21) ∧
  decodeOp 0x21 [5, 300] = .ok (.rbPush 5 300) ∧
  decodeOp 0x30 [5, 16, 0, 2, 2] = .ok (.mTransmit 5 ⟨16, some 2⟩ 2) ∧
  decodeOp 0x40 [8] = .ok (.armShift 8) ∧
  decodeOp 0x41 [1] = .ok (.setLineDriven true) ∧
  decodeOp 0x51 [0x0A] = .ok (.mhWrite 0x0A) ∧
  decodeOp 0x60 [0x08, 0] = .ok (.envMComplete 0x08 0) ∧
  decode 0x21 .addrByte 0x43 [] = .ok (.addrOwnRead 0x21) ∧
  decode 0x21 .ackBit 1 [] = .ok .wireNack

/-- The operation words listed in R114. -/
def listedWords : List Nat :=
  [0x00, 0x01, 0x02, 0x10, 0x11, 0x12, 0x13, 0x14, 0x20, 0x21, 0x22, 0x23, 0x30, 0x31] ++
  [0x40, 0x41, 0x42, 0x43, 0x44, 0x50, 0x51, 0x52, 0x53, 0x54, 0x55, 0x56, 0x57, 0x60]

/-- A record R115 admits for a listed word: its fields in R114's order, a u8 below 256, a Bool 0 or 1,
and a buffer reference its base, its tag and its size, the size 0 where it is not known (log 6). -/
def RecordFits (word : Nat) (fields : List Nat) : Prop :=
  word ∈ [0x00, 0x02, 0x12, 0x13, 0x14, 0x42, 0x44, 0x50, 0x52, 0x53, 0x54, 0x55, 0x56, 0x57] ∧
    fields = [] ∨
  word ∈ [0x01, 0x10, 0x11, 0x43, 0x51] ∧ (∃ b, b < 256 ∧ fields = [b]) ∨
  word ∈ [0x20, 0x21] ∧ (∃ q x, fields = [q, x]) ∨
  word ∈ [0x22, 0x23, 0x40] ∧ (∃ q, fields = [q]) ∨
  word = 0x41 ∧ (fields = [0] ∨ fields = [1]) ∨
  word ∈ [0x30, 0x31] ∧ (∃ a base tag size len, fields = [a, base, tag, size, len] ∧ a < 256 ∧
    (tag = 0 ∨ tag = 1 ∧ size = 0)) ∨
  word = 0x60 ∧ (∃ st d, st < 256 ∧ d < 256 ∧ fields = [st, d])

/-- What is no operation is refused with UNASSIGNED_WORD and has no other effect (R117, R333): a reserved
word; a listed word whose record R115 does not admit; an address byte with a record, and an acknowledge bit
with one or that is no bit, since a wire row has none (R101, R105); and RB_PUSH on a byte ring with an element
that is no byte (log 25). That UNASSIGNED_WORD is the reason whoever issues it, also where WF_RING or WF_AGENT
fails too, is the order of the checks, the model's choice (log 17). There is always a record that it is
charged to (log 13; for the environment and the wire log 31), and where that one has recorded something
there is no step (R334). -/
def Obligations.WhatIsNoOperationIsRefused : Prop :=
  (∀ (s : State) (agent : Agent) (node : Nat) (fmt : Format) (bits : Byte) (fields : List Nat)
    (rest : List Turn), s.sched = .issue agent node ⟨fmt, bits, fields⟩ :: rest →
    (fmt = .opword ∧ (bits.toNat ∉ listedWords ∨ ¬ RecordFits bits.toNat fields) ∨
     fmt ≠ .opword ∧ fields ≠ [] ∨ fmt = .ackBit ∧ 2 ≤ bits.toNat) →
    let s' : State := { s with sched := rest, ctx := ⟨agent, node⟩ }
    ∃ st, s'.statusOf (s'.instOfWord fmt bits) = some st ∧
      (st ≠ Status.clean → step s = .fault .quiescent) ∧
      (st = Status.clean → s'.stall = none →
        step s = .next (s'.refuse (s'.instOfWord fmt bits) .unassignedWord))) ∧
  (∀ (s : State) (q x : Nat), q < 2 → 256 ≤ x → s.stall = none →
    s.statusOf (s.instOf (.rbPush q x)) = some Status.clean →
    exec (.rbPush q x) s = .next (s.refuse (s.instOf (.rbPush q x)) .unassignedWord))

/-- What recording a fault and recording a refusal do: the instance's `faults` gains the code, or its
`refused` is set, and nothing else changes; no other instance's record does (R48, R49, R332). -/
def Obligations.RecordingTouchesOneRecordOnly : Prop :=
  ∀ (s : State) (k : Inst) (st : Status) (c : FaultCode) (r : RefuseReason), s.statusOf k = some st →
    (∃ st', (s.raiseFault k c).statusOf k = some st' ∧ st'.refusal = st.refusal ∧
      ∀ x, x ∈ st'.faults ↔ x ∈ st.faults ∨ x = c) ∧
    (∃ st', (s.refuse k r).statusOf k = some st' ∧ st'.faults = st.faults ∧ st'.refusal.isSome = true ∧
      (st.refusal = none → st'.refusal = some r)) ∧
    (∀ j, j ≠ k → (s.raiseFault k c).statusOf j = s.statusOf j ∧ (s.refuse k r).statusOf j = s.statusOf j) ∧
    (∀ t : State, t = s.raiseFault k c ∨ t = s.refuse k r →
      t.cfg = s.cfg ∧ t.bus = s.bus ∧ t.ctx = s.ctx ∧ t.sched = s.sched ∧
      t.scripts = s.scripts ∧ t.draws = s.draws ∧
      t.slaves.map (fun n => { n with status := Status.clean }) =
        s.slaves.map (fun n => { n with status := Status.clean }) ∧
      t.masters.map (Option.map fun m => { m with status := Status.clean }) =
        s.masters.map (Option.map fun m => { m with status := Status.clean }) ∧
      t.rings.map (fun n => { n with status := Status.clean }) =
        s.rings.map (fun n => { n with status := Status.clean }))

/-- The class of an address byte at a slave with a legal own address (R101, R102, R103). -/
def Obligations.AddressByteClass : Prop :=
  ∀ (own : Addr7) (b : Byte), own ≠ 0 →
    (classify b own = .generalCall ↔ b = 0) ∧
    (classify b own = .ownWrite ↔ b.toNat / 2 = own.toNat ∧ b.toNat % 2 = 0) ∧
    (classify b own = .ownRead ↔ b.toNat / 2 = own.toNat ∧ b.toNat % 2 = 1) ∧
    (classify b own = .noMatch ↔ b ≠ 0 ∧ b.toNat / 2 ≠ own.toNat) ∧
    classify 0x01 own = .noMatch

/-- The address byte as the master assembles it: `(address << 1) | rw`, no bit lost (R104). -/
def Obligations.MasterAddressByte : Prop :=
  ∀ (own a : Addr7) (rw : Bool),
    (addrByte a rw).toNat = 2 * a.toNat + (if rw then 1 else 0) ∧
    addrField (addrByte a rw) = a ∧ rwField (addrByte a rw) = rw ∧
    decode own .masterAddrByte (addrByte a rw) [] =
      .ok (if rw then .masterAddrRead a else .masterAddrWrite a)

/-! ## The step -/

/-- A step runs the decoded operation: when the schedule's first turn issues bits that decode to i, the
step is exec of i at the state with the turn taken off and the issuer set (R112, R123; that the agents
move by a schedule whose first turn is next is the model's choice, log 5). -/
def Obligations.StepRunsTheDecodedOperation : Prop :=
  ∀ (s : State) (agent : Agent) (node : Nat) (op : Encoded) (rest : List Turn) (i : Instr),
    s.sched = .issue agent node op :: rest →
    decode (((s.slaves[node]?).map (·.own)).getD 0) op.fmt op.bits op.fields = .ok i →
    step s = exec i { s with sched := rest, ctx := ⟨agent, node⟩ }

/-- An operation placed by its bits is what the next step runs, issued by an agent R340 names for it (how
an operation is placed is the model's own: log 5, log 7). -/
def Obligations.StepRunsThePlacedWord : Prop :=
  ∀ (s : State) (nbits w : Nat) (i : Instr), decodeTableWord nbits w = some i →
    step (s.withFetchWord nbits w) =
      exec i { s with ctx := ⟨issuerOf s.cfg.env s.ctx.node i, s.ctx.node⟩ }

/-- The turns that name no operation (the schedule, and the order of agents that move by themselves, are
the model's choice: log 5, log 15). A master's turn performs the next HAL action of its call
(44_master.md R264). The wire's turn carries the next symbol due, and once none is due it completes the
operation in flight with what R308 gives (`WireCompletesAnOperation` says what that is). A node's status
script answers the operation in flight of its master (R122). With nothing scheduled, or where the
schedule awaits, the wire moves first, else the script of the lowest node that has one due, else the
call of the lowest node that is in one; where nothing moves by itself, an await ends, and with nothing
scheduled there is no step (R386). -/
def Obligations.StepOfAgentsThatMoveAlone : Prop :=
  ∀ (s : State) (rest : List Turn) (j : Nat),
    (∀ a, s.sched = .master j :: rest → s.nextActAt j = some a →
      step s = exec a.toInstr { s with sched := rest, ctx := ⟨.masterEngine, j⟩ }) ∧
    (∀ x xs, s.sched = .wire :: rest → s.cfg.env = .wire j → s.bus.pending = x :: xs →
      step s = .next ({ s with sched := rest, bus := { s.bus with pending := xs } }.carrySym x)) ∧
    (∀ m, s.sched = .wire :: rest → s.cfg.env = .wire j → s.bus.pending = [] →
      s.masterAt j = some m → m.inFlight = true →
      step s = exec (.envMComplete (s.bus.completion s.cfg m.op).1 (s.bus.completion s.cfg m.op).2)
        { s with sched := rest, ctx := ⟨.wire, j⟩ }) ∧
    (s.sched = [] ∨ s.sched = .await :: rest →
      (s.wireDue = true → step s = s.wireTurn) ∧
      (∀ st d xs, s.wireDue = false → s.scriptDue j = true → (∀ k, k < j → s.scriptDue k = false) →
        s.scripts[j]? = some ((st, d) :: xs) →
        step s = exec (.envMComplete st d)
          { s with scripts := s.scripts.set j xs, ctx := ⟨.env, j⟩ }) ∧
      (∀ a, s.wireDue = false → (∀ k, s.scriptDue k = false) → s.callAt j = true →
        (∀ k, k < j → s.callAt k = false) → s.nextActAt j = some a →
        step s = exec a.toInstr { s with ctx := ⟨.masterEngine, j⟩ })) ∧
    (s.wireDue = false → (∀ k, s.scriptDue k = false) → (∀ k, s.callAt k = false) →
      (s.sched = .await :: rest → step s = .next { s with sched := rest }) ∧
      (s.sched = [] → step s = .fault .noStep))

/-! ## Ring buffers -/

/-- RB_PUSH on the slave's rings (R143): full drops the element and returns false; else it is stored at
`write`, which advances, and true is returned. The frame is the equation's: nothing else changes. On rx it
is the ISR's, whose WaitForData handler alone pushes (R340, R207), after an INITIALIZE (R371; log 8). -/
def Obligations.PushOnSlaveRings : Prop :=
  ∀ (s : State) (n : Slave) (x : Nat), x < 256 →
    (NodeReady s n .isr → n.enabled = true → n.state = .waitForData →
      exec (.rbPush 0 x) s = .next (s.putNode
        (if (n.rx.write + 1) % n.rx.n = n.rx.read then { n with results := n.results ++ [.bool false] }
         else { n with
           rx := { n.rx with
             storage := n.rx.storage.set n.rx.write (BitVec.ofNat 8 x)
             write   := (n.rx.write + 1) % n.rx.n }
           results := n.results ++ [.bool true] }))) ∧
    (NodeReady s n .slaveFg → ForegroundFree s n →
      exec (.rbPush 1 x) s = .next (s.putNode
        (if (n.tx.write + 1) % n.tx.n = n.tx.read then { n with results := n.results ++ [.bool false] }
         else { n with
           tx := { n.tx with
             storage := n.tx.storage.set n.tx.write (BitVec.ofNat 8 x)
             write   := (n.tx.write + 1) % n.tx.n }
           results := n.results ++ [.bool true] })))

/-- RB_POP on the slave's rings (R144): empty returns no value and changes nothing; else the element at
`read` is returned and `read` advances. On tx it is the ISR's, whose SendData logic alone pops (R340,
R203), in the handlers of SendData and WaitAck (R208, R210), after an INITIALIZE (R371; log 8). -/
def Obligations.PopOnSlaveRings : Prop :=
  ∀ (s : State) (n : Slave),
    (NodeReady s n .slaveFg → ForegroundFree s n →
      exec (.rbPop 0) s = .next (s.putNode
        (if n.rx.read = n.rx.write then { n with results := n.results ++ [.popped none] }
         else { n with
           rx      := { n.rx with read := (n.rx.read + 1) % n.rx.n }
           results := n.results ++ [.popped ((n.rx.storage[n.rx.read]?).map BitVec.toNat)] }))) ∧
    (NodeReady s n .isr → n.enabled = true → n.state = .sendData ∨ n.state = .waitAck →
      exec (.rbPop 1) s = .next (s.putNode
        (if n.tx.read = n.tx.write then { n with results := n.results ++ [.popped none] }
         else { n with
           tx      := { n.tx with read := (n.tx.read + 1) % n.tx.n }
           results := n.results ++ [.popped ((n.tx.storage[n.tx.read]?).map BitVec.toNat)] })))

/-- RB_HAS_DATA (R145) on the slave's rings and on a stand-alone ring: read != write, no side effect. That a
stand-alone ring's declared consumer (R146) is an agent of its own, which no SLEEP and no call halts, is the
model's choice (log 32). -/
def Obligations.HasDataComparesTheIndices : Prop :=
  ∀ (s : State) (n : Slave),
    (NodeReady s n .slaveFg → ForegroundFree s n →
      exec (.rbHasData 0) s =
        .next (s.putNode { n with results := n.results ++ [.bool (n.rx.read != n.rx.write)] })) ∧
    (NodeReady s n .tester →
      exec (.rbHasData 1) s =
        .next (s.putNode { n with results := n.results ++ [.bool (n.tx.read != n.tx.write)] })) ∧
    (∀ (q : Nat) (r : Standalone), RingReady s q r (.ringConsumer q) →
      exec (.rbHasData q) s =
        .next (s.putRing { r with results := r.results ++ [.bool (r.ring.read != r.ring.write)] }))

/-- RB_PUSH and RB_POP on a stand-alone ring (R143, R144), by its declared producer and consumer (R146). That
these two are agents of their own, named by the ring's number, which no SLEEP and no call halts, is the
model's choice (log 32). -/
def Obligations.PushAndPopOnStandaloneRings : Prop :=
  ∀ (s : State) (q : Nat) (r : Standalone) (x : Nat),
    (RingReady s q r (.ringProducer q) →
      exec (.rbPush q x) s = .next (s.putRing
        (if (r.ring.write + 1) % r.ring.n = r.ring.read then { r with results := r.results ++ [.bool false] }
         else { r with
           ring := { r.ring with
             storage := r.ring.storage.set r.ring.write x
             write   := (r.ring.write + 1) % r.ring.n }
           results := r.results ++ [.bool true] }))) ∧
    (RingReady s q r (.ringConsumer q) →
      exec (.rbPop q) s = .next (s.putRing
        (if r.ring.read = r.ring.write then { r with results := r.results ++ [.popped none] }
         else { r with
           ring    := { r.ring with read := (r.ring.read + 1) % r.ring.n }
           results := r.results ++ [.popped (r.ring.storage[r.ring.read]?)] })))

/-- RB_INIT at creation (R140): indices 0, N slots of any value, for a stand-alone ring that does not
exist yet and for a slave ring not created yet (log 23); nothing else of the node changes. What the creation
of a stand-alone ring has been refused before is on its own record (log 13). -/
def Obligations.RingCreation : Prop :=
  ∀ (s : State) (q n : Nat), s.ctx.agent = .creator → 1 ≤ n → n ≤ 2 ^ s.cfg.indexBits →
    (2 ≤ q → s.ring? q = none → s.statusOf (.outside ⟨s.ctx, some q⟩) = some Status.clean →
      ∃ (storage : List Nat) (d : Nat), storage.length = n ∧
        exec (.rbInit q n) s = .next { s with
          rings := s.rings ++ [⟨q, ⟨n, 0, 0, storage⟩, Status.clean, []⟩], draws := d }) ∧
    (∀ x, s.node? = some x → x.status = Status.clean → x.configOk s.cfg.indexBits = true →
      (x.rxCreated = false → ∃ (storage : List Byte) (d : Nat), storage.length = n ∧
        exec (.rbInit 0 n) s = .next { s.putNode { x with
          rx := ⟨n, 0, 0, storage⟩, rxCreated := true } with draws := d }) ∧
      (x.txCreated = false → ∃ (storage : List Byte) (d : Nat), storage.length = n ∧
        exec (.rbInit 1 n) s = .next { s.putNode { x with
          tx := ⟨n, 0, 0, storage⟩, txCreated := true } with draws := d }))

/-- Refused ring operations, each with no other effect (R140, R333). A capacity outside 1..2^INDEX_BITS is
refused with BAD_CONFIG, where RB_INIT at creation names it, and where a node is created with it. An
RB_INIT other than at creation, of a ring that exists or by an agent that does not create, is refused
with WRONG_AGENT, also where its capacity is bad (the order of the checks is the model's choice, log 17;
what counts as not created yet is log 23). RB_PUSH, RB_POP and RB_HAS_DATA with q naming no ring are
refused with BAD_OPERAND, and an operation on an instance a ring of which has a bad capacity with
BAD_CONFIG. On a node without slave engine the four are refused likewise for q = 0 and 1 (log 31). The record
that holds the refusal is the one the operation is charged to (log 13). -/
def Obligations.RingOperationsRefused : Prop :=
  (∀ (s : State) (q n : Nat), s.ctx.agent = .creator → n = 0 ∨ 2 ^ s.cfg.indexBits < n →
    (2 ≤ q → s.ring? q = none → s.statusOf (.outside ⟨s.ctx, some q⟩) = some Status.clean →
      exec (.rbInit q n) s = .next (s.refuse (.outside ⟨s.ctx, some q⟩) .badConfig)) ∧
    (∀ x, s.node? = some x → x.status = Status.clean →
      (q = 0 ∧ x.rxCreated = false ∨ q = 1 ∧ x.txCreated = false) →
      exec (.rbInit q n) s = .next (s.putNode { x with status := ⟨[], some .badConfig⟩ }))) ∧
  (∀ (p : Params) (rx tx : Nat), rx = 0 ∨ 2 ^ p.indexBits < rx ∨ tx = 0 ∨ 2 ^ p.indexBits < tx →
    (Slave.created p rx tx).status = ⟨[], some .badConfig⟩) ∧
  (∀ (s : State) (q n : Nat), s.stall = none →
    s.statusOf (s.instOf (.rbInit q n)) = some Status.clean →
    (s.ctx.agent ≠ .creator ∨
     q = 0 ∧ (∀ x, s.node? = some x → x.rxCreated = true) ∨
     q = 1 ∧ (∀ x, s.node? = some x → x.txCreated = true) ∨
     2 ≤ q ∧ (s.ring? q).isSome = true) →
    exec (.rbInit q n) s = .next (s.refuse (s.instOf (.rbInit q n)) .wrongAgent)) ∧
  (∀ (s : State) (q x : Nat) (i : Instr), s.stall = none → (q < 2 → x < 256) →
    (i = .rbPush q x ∨ i = .rbPop q ∨ i = .rbHasData q) →
    s.statusOf (s.instOf i) = some Status.clean →
    (q = 0 ∧ (∀ n, s.node? = some n → n.rxCreated = false) ∨
     q = 1 ∧ (∀ n, s.node? = some n → n.txCreated = false) ∨
     2 ≤ q ∧ s.ring? q = none) →
    exec i s = .next (s.refuse (s.instOf i) .badOperand)) ∧
  (∀ (s : State) (i : Instr), s.stall = none →
    s.statusOf (s.instOf i) = some Status.clean → i.shapeOk = true → i.kOk = true →
    s.ringOk i = true → s.mayIssue i = true → s.configOk (s.instOf i) = false →
    exec i s = .next (s.refuse (s.instOf i) .badConfig))

/-- The ring is a queue (R148, R35): it never holds more than N-1 items; a push returns false exactly
when it holds N-1, and else appends; a pop returns the oldest item and removes it; hasData is false
exactly when nothing is held; a failed push or pop changes nothing. For every element type (R141). -/
def Obligations.RingIsABoundedQueue : Prop :=
  ∀ (α : Type) (indexBits : Nat) (r : Machine.Ring α) (x : α), r.wf indexBits →
    r.items.length = r.count ∧ r.count ≤ r.n - 1 ∧
    ((r.push x).1 = false ↔ r.items.length = r.n - 1) ∧
    ((r.push x).1 = true → (r.push x).2.items = r.items ++ [x]) ∧
    ((r.push x).1 = false → (r.push x).2 = r) ∧
    r.pop.1 = r.items.head? ∧ r.pop.2.items = r.items.tail ∧
    (r.pop.1 = none → r.pop.2 = r) ∧
    (r.hasData = false ↔ r.items = [])

/-! ## Slave events and handlers -/

/-- The environment delivers starts as events to a node that takes them: R167's admission. -/
def EventReady (s : State) (n : Slave) : Prop :=
  NodeReady s n .env ∧ s.cfg.env.starts = true ∧ n.enabled = true

/-- EV_START in any state: the shift is cancelled, the foreground woken, 8 bits armed, the line
floated, and the engine waits for an address (R167, R201). -/
def Obligations.StartConditionInAnyState : Prop :=
  ∀ (s : State) (n : Slave), EventReady s n →
    exec .evStart s = .next (s.putNode { n with
      armed := 8, driven := false, sleeping := false, state := .waitForAddress
      trace := n.trace ++ [.armShift 8, .setLineDriven false] })

/-- An event that is not admissible has no step: a start or a shift completion before INITIALIZE, a shift
completion with no shift armed, a completion with no operation in flight (R167, R168, R184; the stop is
log 2, the environments that deliver such events are log 19's). On the composed wire a completion is the
wire's, and is no step either while a symbol of the operation is still due (R308). -/
def Obligations.InadmissibleEventHasNoStep : Prop :=
  (∀ (s : State) (n : Slave), NodeReady s n .env → n.enabled = false →
    (s.cfg.env.starts = true → exec .evStart s = .fault .notAdmissible) ∧
    (s.cfg.env.shifts = true → ∀ w, exec (.evShift w) s = .fault .notAdmissible)) ∧
  (∀ (s : State) (n : Slave) (w : Byte), NodeReady s n .env → s.cfg.env.shifts = true →
    n.armed ≠ 1 → n.armed ≠ 8 → exec (.evShift w) s = .fault .notAdmissible) ∧
  (∀ (s : State) (m : Master) (st d : Byte), s.master? = some m → m.status = Status.clean →
    (s.ctx.agent = .env ∧ s.cfg.env ≠ .wire s.ctx.node ∨
     s.ctx.agent = .wire ∧ s.cfg.env = .wire s.ctx.node) →
    (m.op = .none ∨ m.complete = true ∨
     s.ctx.agent = .wire ∧ s.bus.pending ≠ []) →
    exec (.envMComplete st d) s = .fault .notAdmissible)

/-- What a shift leaves in hal.sr: the eight sampled bits, or, after a 1-bit shift, the sampled bit in
bit 0 and any value in the others (R168). -/
def SampledAs (n : Slave) (w v : Byte) : Prop :=
  (n.armed = 8 → v = w) ∧ (n.armed = 1 → v.getLsbD 0 = w.getLsbD 0)

/-- EV_SHIFT on a node: the handler of its state has left the node as `after v`, v being what the shift
left in hal.sr; nothing but the node and the free-value counter changes (R168, R200). -/
def ShiftLeaves (s : State) (n : Slave) (w : Byte) (after : Byte → Slave) : Prop :=
  ∃ (v : Byte) (d : Nat), SampledAs n w v ∧ (n.armed = 8 → d = s.draws) ∧
    exec (.evShift w) s = .next { s.putNode (after v) with draws := d }

/-- The environment delivers shifts as events, and EV_SHIFT is admissible (R168). -/
def ShiftReady (s : State) (n : Slave) : Prop :=
  NodeReady s n .env ∧ s.cfg.env.shifts = true ∧ n.enabled = true ∧ (n.armed = 1 ∨ n.armed = 8)

/-- WaitForAddress (R205): a matching byte is ACKed, and its bit 0 selects SendData or SendAck; a
mismatch releases the bus. -/
def Obligations.AddressHandler : Prop :=
  ∀ (s : State) (n : Slave) (w : Byte), ShiftReady s n → n.state = .waitForAddress →
    ShiftLeaves s n w (fun b =>
      if b = 0 ∨ b.toNat / 2 = n.own.toNat then
        { n with
          sr := 0, armed := 1, driven := true, sleeping := false
          state := if b.toNat % 2 = 1 then .sendData else .sendAck
          trace := n.trace ++ [.readSr, .armShift 1, .writeSr 0, .setLineDriven true] }
      else
        { n with
          sr := b, armed := 0, driven := false, sleeping := false, state := .waitForStart
          trace := n.trace ++ [.readSr, .rearmStart] })

/-- SendAck and RequestAck (R206, R209): the next shift is armed and the line floated. -/
def Obligations.AckSlotHandlers : Prop :=
  ∀ (s : State) (n : Slave) (w : Byte), ShiftReady s n →
    (n.state = .sendAck → ShiftLeaves s n w (fun v =>
      { n with
        sr := v, armed := 8, driven := false, sleeping := false, state := .waitForData
        trace := n.trace ++ [.armShift 8, .setLineDriven false] })) ∧
    (n.state = .requestAck → ShiftLeaves s n w (fun v =>
      { n with
        sr := v, armed := 1, driven := false, sleeping := false, state := .waitAck
        trace := n.trace ++ [.armShift 1, .setLineDriven false] }))

/-- WaitForData (R207): the byte is pushed into rx and ACKed; with rx full it is dropped and the NACK
slot is counted. -/
def Obligations.DataHandler : Prop :=
  ∀ (s : State) (n : Slave) (w : Byte), ShiftReady s n → n.state = .waitForData →
    ShiftLeaves s n w (fun b =>
      if (n.rx.write + 1) % n.rx.n = n.rx.read then
        { n with
          sr := b, armed := 1, driven := false, sleeping := false, state := .sendAck
          trace := n.trace ++ [.readSr, .setLineDriven false, .armShift 1] }
      else
        { n with
          rx := { n.rx with
            storage := n.rx.storage.set n.rx.write b, write := (n.rx.write + 1) % n.rx.n }
          sr := 0, armed := 1, driven := true, sleeping := false, state := .sendAck
          trace := n.trace ++ [.readSr, .armShift 1, .writeSr 0, .setLineDriven true] })

/-- The SendData logic from hal.sr = v, with the trace `before` (R203). -/
def SendDataLeaves (n : Slave) (v : Byte) (before : List SAct) : Slave :=
  if n.tx.read = n.tx.write then
    { n with
      sr := v, armed := 0, driven := false, sleeping := false, state := .waitForStart
      trace := n.trace ++ before ++ [.rearmStart] }
  else
    { n with
      tx := { n.tx with read := (n.tx.read + 1) % n.tx.n }
      sr := (n.tx.storage[n.tx.read]?).getD 0, armed := 8, driven := true, sleeping := false
      state := .requestAck
      trace := n.trace ++ before ++
        [.writeSr ((n.tx.storage[n.tx.read]?).getD 0), .setLineDriven true, .armShift 8] }

/-- SendData (R208, R203): the oldest tx byte is loaded, driven and shifted out; with tx empty the bus
is released. The tx ring is a legal one, so that the slot read exists. -/
def Obligations.SendDataHandler : Prop :=
  ∀ (s : State) (n : Slave) (w : Byte), ShiftReady s n → n.state = .sendData →
    n.tx.wf s.cfg.indexBits → ShiftLeaves s n w (fun v => SendDataLeaves n v [])

/-- WaitAck (R210, R203): a sampled 1 (NACK) releases the bus; a 0 (ACK) runs the SendData logic in the
same event. -/
def Obligations.MasterAckHandler : Prop :=
  ∀ (s : State) (n : Slave) (w : Byte), ShiftReady s n → n.state = .waitAck →
    n.tx.wf s.cfg.indexBits →
    ShiftLeaves s n w (fun v =>
      if v.toNat % 2 = 1 then
        { n with
          sr := v, armed := 0, driven := false, sleeping := false, state := .waitForStart
          trace := n.trace ++ [.readSr, .rearmStart] }
      else SendDataLeaves n v [.readSr])

/-- The two dispatch rows no run reaches (R200, R204): WaitForStart's handler is a no-op, and the
register encoding 7 is refused with CORRUPT_STATE and no effect: hal.sr, hal.armed and fg.sleeping stay
as they were (that the refusal comes before the HAL part of R168 is DEDUCED, log 30). -/
def Obligations.DispatchOfUnreachedStates : Prop :=
  ∀ (s : State) (n : Slave) (w : Byte), ShiftReady s n →
    (n.state = .waitForStart → ShiftLeaves s n w (fun v =>
      { n with sr := v, armed := 0, sleeping := false })) ∧
    (n.state = .corrupt → ShiftLeaves s n w (fun _ =>
      { n with status := ⟨[], some .corruptState⟩ }))

/-- EV_OTHER wakes the foreground and changes no other field of the core (R169). -/
def Obligations.OtherEventWakesOnly : Prop :=
  ∀ (s : State) (n : Slave), NodeReady s n .env →
    exec .evOther s = .next (s.putNode { n with sleeping := false })

/-- No handler raises a local error: after an event of the environment the node's faults are those it
had, and it has been refused nothing, unless its state register held the encoding 7 (R218, R338). -/
def Obligations.EventsRaiseNoFault : Prop :=
  ∀ (s t : State) (n : Slave) (i : Instr), NodeReady s n .env → n.enabled = true → n.state ≠ .corrupt →
    (i = .evStart ∧ s.cfg.env.starts = true ∨ (∃ w, i = .evShift w) ∧ s.cfg.env.shifts = true ∨
      i = .evOther) → exec i s = .next t →
    ∃ m, t.node? = some m ∧ m.status = n.status ∧ m.results = n.results ∧ m.own = n.own ∧
      m.sleeping = false ∧ m.enabled = true

/-- The bit slots of 45_bus.md agree with the events of 41_hal.md (R304): eight slots carrying a byte
most significant bit first do to a node with 8 bits armed what EV_SHIFT of that byte does, and one
slot does to a node with 1 bit armed what EV_SHIFT does for one choice of the open bits. -/
def Obligations.BitSlotsAgreeWithShiftEvents : Prop :=
  ∀ (n : Slave), n.takesSteps = true → n.enabled = true → n.state ≠ .corrupt →
    (n.armed = 8 → ∀ b free : Byte,
      (bitsMsbFirst b).foldl (fun m v => m.busSlot v) n = n.evShift free b) ∧
    (n.armed = 1 → ∀ (v : Bool) (w : Byte), w.getLsbD 0 = v →
      ∃ free : Byte, n.busSlot v = n.evShift free w)

/-- hal.armed and hal.driven stand with eng.state as R213's table says, after every step of every agent,
if they did before: exactly, where the environment delivers whole events; where bits are clocked, with
the shift in progress counted down (R43, R304; log 16); in the HAL bench, on every node that has been
initialized (log 8). -/
def Obligations.HalRegistersStandWithTheState : Prop :=
  ∀ (s t : State), (∀ n ∈ s.slaves, n.standsUnder s.cfg.env) → step s = .next t →
    ∀ n ∈ t.slaves, n.standsUnder t.cfg.env

/-- At event boundaries, exactly R213's table: each bus event and each foreground operation keeps it.
Where it holds, EV_SHIFT is admissible at an initialized node exactly when eng.state is not WaitForStart,
and the node drives the line only in SendAck, SendData and RequestAck (R215). -/
def Obligations.EventsKeepTheHalTable : Prop :=
  (∀ (s t : State) (i : Instr),
    (i = .evStart ∨ (∃ w, i = .evShift w) ∨ i = .evOther ∨ (∃ a, i = .initEngine a) ∨
      (∃ b, i = .sendChar b) ∨ i = .charAvailable ∨ i = .receiveChar ∨ i = .sleep) →
    (∀ n ∈ s.slaves, n.inStep) → exec i s = .next t → ∀ n ∈ t.slaves, n.inStep) ∧
  (∀ n : Slave, n.inStep →
    (n.enabled = true → (n.shiftAdmissible = true ↔ n.state ≠ .waitForStart)) ∧
    (n.driven = true → n.state = .sendAck ∨ n.state = .sendData ∨ n.state = .requestAck))

/-! ## Slave foreground -/

/-- INITIALIZE with a legal address (R240, R372): both rings are kept. -/
def Obligations.InitializeWithALegalAddress : Prop :=
  ∀ (s : State) (n : Slave) (a : Byte), NodeReady s n .slaveFg → ForegroundFree s n →
    1 ≤ a.toNat → a.toNat ≤ 127 →
    (a.setWidth 7).toNat = a.toNat ∧
    exec (.initEngine a) s = .next (s.putNode { n with
      own := a.setWidth 7, state := .waitForStart, armed := 0, driven := false, enabled := true
      trace := n.trace ++ [.rearmStart] })

/-- The two faults of the foreground record their code and do nothing else: INITIALIZE with an address
outside 1..127, SLEEP with rx data pending (R240, R244, R332). -/
def Obligations.ForegroundFaults : Prop :=
  ∀ (s : State) (n : Slave), NodeReady s n .slaveFg → ForegroundFree s n →
    (∀ a : Byte, a.toNat = 0 ∨ 127 < a.toNat →
      exec (.initEngine a) s = .next (s.putNode { n with status := ⟨[.badOwnAddress], none⟩ })) ∧
    (n.rx.read ≠ n.rx.write →
      exec .sleep s = .next (s.putNode { n with status := ⟨[.sleepWithRxPending], none⟩ }))

/-- SEND_CHAR is RB_PUSH on tx (R241, R143). -/
def Obligations.SendCharPushesTx : Prop :=
  ∀ (s : State) (n : Slave) (b : Byte), NodeReady s n .slaveFg → ForegroundFree s n →
    exec (.sendChar b) s = .next (s.putNode
      (if (n.tx.write + 1) % n.tx.n = n.tx.read then { n with results := n.results ++ [.bool false] }
       else { n with
         tx := { n.tx with
           storage := n.tx.storage.set n.tx.write b, write := (n.tx.write + 1) % n.tx.n }
         results := n.results ++ [.bool true] }))

/-- CHAR_AVAILABLE and RECEIVE_CHAR (R242, R243): the oldest rx byte, or 0x00 and no change of the ring
if there is none. The rx ring is a legal one, so that the slot read exists. -/
def Obligations.CharAvailableAndReceiveChar : Prop :=
  ∀ (s : State) (n : Slave), NodeReady s n .slaveFg → ForegroundFree s n →
    exec .charAvailable s =
      .next (s.putNode { n with results := n.results ++ [.bool (n.rx.read != n.rx.write)] }) ∧
    (n.rx.read = n.rx.write →
      exec .receiveChar s = .next (s.putNode { n with results := n.results ++ [.byte 0] })) ∧
    (n.rx.wf s.cfg.indexBits → n.rx.read ≠ n.rx.write →
      ∃ x, n.rx.storage[n.rx.read]? = some x ∧
        exec .receiveChar s = .next (s.putNode { n with
          rx := { n.rx with read := (n.rx.read + 1) % n.rx.n }
          results := n.results ++ [.byte x] }))

/-- SLEEP with no rx data pending halts the foreground and changes nothing else (R244). While it is
halted, no operation of the node's foreground has a step, whatever it is: the slave's, the ring operations
the foreground issues (R340) among them, those of the node's master, and the HAL actions of its call (R47,
R343). Nor has one of the slave's while the node's one foreground is inside a call of its master (R343).
The named stops are the model's (log 20, log 21). -/
def Obligations.SleepHaltsTheForeground : Prop :=
  (∀ (s : State) (n : Slave), NodeReady s n .slaveFg → ForegroundFree s n → n.rx.read = n.rx.write →
    exec .sleep s = .next (s.putNode { n with sleeping := true })) ∧
  (∀ (s : State) (i : Instr), s.statusOf (s.instOf i) = some Status.clean →
    ((s.ctx.agent = .slaveFg ∨ s.ctx.agent = .masterFg ∨ s.ctx.agent = .masterEngine) →
      (∃ n, s.node? = some n ∧ n.sleeping = true) → exec i s = .fault .asleep) ∧
    (s.ctx.agent = .slaveFg → (∀ n, s.node? = some n → n.sleeping = false) →
      (∃ m, s.master? = some m ∧ m.call.isSome = true) → exec i s = .fault .foregroundBusy))

/-! ## The HAL surfaces -/

/-- The slave HAL actions (R161-R165), as the HAL bench exercises them on a node before its INITIALIZE
(log 8): each applies its effect and is appended to hal.trace; a READ_SR before any WRITE_SR would read a
register nothing has written (R334) and is refused. ARM_SHIFT with k other than 1 or 8 is refused with
BAD_OPERAND and has no effect (R161, R333); that it is so also where WF_AGENT would refuse it, after an
INITIALIZE or under another environment, is the order of the checks, the model's choice (log 17). -/
def Obligations.SlaveHalActions : Prop :=
  ∀ (s : State) (n : Slave),
    (HalReady s n →
      (∀ k, k = 1 ∨ k = 8 →
        exec (.armShift k) s = .next (s.putNode { n with armed := k, trace := n.trace ++ [.armShift k] })) ∧
      (∀ d, exec (.setLineDriven d) s =
        .next (s.putNode { n with driven := d, trace := n.trace ++ [.setLineDriven d] })) ∧
      (n.srWritten = true → exec .readSr s = .next (s.putNode { n with
        trace := n.trace ++ [.readSr], results := n.results ++ [.byte n.sr] })) ∧
      (n.srWritten = false →
        exec .readSr s = .next (s.putNode { n with status := ⟨[], some .wrongAgent⟩ })) ∧
      (∀ v, exec (.writeSr v) s =
        .next (s.putNode { n with sr := v, trace := n.trace ++ [.writeSr v] })) ∧
      exec .rearmStart s =
        .next (s.putNode { n with driven := false, armed := 0, trace := n.trace ++ [.rearmStart] })) ∧
    (NodeReady s n .isr → ∀ k, k ≠ 1 → k ≠ 8 →
      exec (.armShift k) s = .next (s.putNode { n with status := ⟨[], some .badOperand⟩ }))

/-- The state after a master HAL action that sets mh.op and clears mh.complete, issued by the issuing
node's master m, `call` being the transaction registers left. -/
def AfterIssue (s : State) (m : Master) (a : MAct) (op : MhOp) (call : Option Call) : State :=
  { s.putMaster { m with call := call, op := op, complete := false, trace := m.trace ++ [a] } with
    bus := if s.cfg.env = .wire s.ctx.node then s.bus.carry a else s.bus }

/-- The master HAL actions are the master engine's inside a call and nowhere else (R340): outside a call
every one is refused with WRONG_AGENT, and inside one every action but the next of the call's rule
(log 8). The master's address bytes are MH_WRITEs (R104; log 16). That a poll and the two reads are
refused outside a call only, not for an operation in flight, is log 18. -/
def Obligations.MasterHalActionsBelongToACall : Prop :=
  ∀ (s : State) (m : Master), MasterReady s m .masterEngine →
    (m.call = none → ∀ i : Instr,
      (i = .mhStart ∨ (∃ v, i = .mhWrite v) ∨ i = .mhReadAck ∨ i = .mhReadNack ∨ i = .mhStop ∨
        i = .mhPoll ∨ i = .mhStatus ∨ i = .mhReadData ∨
        (∃ a, i = .masterAddrWrite a) ∨ (∃ a, i = .masterAddrRead a)) →
      exec i s = .next (s.putMaster { m with status := ⟨[], some .wrongAgent⟩ })) ∧
    (∀ (c : Call) (a : MAct) (c' : Call) (b : MAct), m.call = some c → c.plan m.mem = some (a, c') →
      b ≠ a → exec b.toInstr s = .next (s.putMaster { m with status := ⟨[], some .wrongAgent⟩ })) ∧
    (∀ (c : Call) (a : Addr7), m.call = some c → ¬ (c.phase = .waitStart ∧ c.pos = .good) →
      exec (.masterAddrWrite a) s = .next (s.putMaster { m with status := ⟨[], some .wrongAgent⟩ }) ∧
      exec (.masterAddrRead a) s = .next (s.putMaster { m with status := ⟨[], some .wrongAgent⟩ }))

/-- What a completion with status st and data d leaves (R184). -/
def AfterCompletion (s : State) (m : Master) (st d : Byte) : State :=
  s.putMaster { m with
    mhStatus := st
    mhData   := if m.op = .readAck ∨ m.op = .readNack then d else m.mhData
    op       := .none
    complete := true }

/-- ENV_M_COMPLETE (R184): the status is set, the data byte if the operation is a read, mh.op becomes
NONE and mh.complete 1; no trace gains an entry. It comes from the environment with any status and data, or
from the wire where the wire is this master's environment (R340): then once no symbol is due, and with the
values R308 fixes (`WireCompletesAnOperation` says what they are), whatever the operands are (DEDUCED, log
19). -/
def Obligations.CompletionOfTheOperationInFlight : Prop :=
  ∀ (s : State) (m : Master) (st d : Byte), s.master? = some m → m.status = Status.clean →
    m.inFlight = true →
    (s.ctx.agent = .env → s.cfg.env ≠ .wire s.ctx.node →
      exec (.envMComplete st d) s = .next (AfterCompletion s m st d)) ∧
    (s.ctx.agent = .wire → s.cfg.env = .wire s.ctx.node → s.bus.pending = [] →
      exec (.envMComplete st d) s =
        .next (AfterCompletion s m (s.bus.completion s.cfg m.op).1 (s.bus.completion s.cfg m.op).2))

/-! ## The master's call -/

/-- A call begins (R260, R262, R263): with legal arguments M_TRANSMIT and M_RECEIVE set the transaction
registers and issue MH_START, all in the one step of that action (R8, R264), which leaves m.phase WAIT_START
and the call polling (R176). MH_START's own row has the same effect where a call has its MH_START still to
come (R340), a position of the model's own that no step leaves a call at (log 9). -/
def Obligations.CallBegins : Prop :=
  (∀ (s : State) (m : Master) (a : Byte) (base size len : Nat), MasterReady s m .masterFg →
    m.call = none → m.inFlight = false → a.toNat ≤ 127 → len ≤ s.cfg.lenMax → len ≤ size →
    (a.setWidth 7).toNat = a.toNat ∧
    exec (.mTransmit a ⟨base, some size⟩ len) s = .next (AfterIssue s m .start .start
      (some ⟨.waitStart, false, a.setWidth 7, len, 0, 0, ⟨base, some size⟩, .poll⟩)) ∧
    exec (.mReceive a ⟨base, some size⟩ len) s = .next (AfterIssue s m .start .start
      (some ⟨.waitStart, true, a.setWidth 7, len, 0, 0, ⟨base, some size⟩, .poll⟩))) ∧
  (∀ (s : State) (m : Master) (c : Call), MasterReady s m .masterEngine → m.call = some c →
    c.pos = .begin → m.inFlight = false →
    exec .mhStart s = .next (AfterIssue s m .start .start
      (some { c with phase := .waitStart, pos := .poll })))

/-- Bad arguments fault before any HAL action, the address before the length (R260, R332, R336). -/
def Obligations.BadCallArgumentsFault : Prop :=
  ∀ (s : State) (m : Master) (a : Byte) (base size len : Nat), MasterReady s m .masterFg →
    m.call = none → m.inFlight = false →
    (127 < a.toNat →
      exec (.mTransmit a ⟨base, some size⟩ len) s =
        .next (s.putMaster { m with status := ⟨[.badTargetAddress], none⟩ }) ∧
      exec (.mReceive a ⟨base, some size⟩ len) s =
        .next (s.putMaster { m with status := ⟨[.badTargetAddress], none⟩ })) ∧
    (a.toNat ≤ 127 → s.cfg.lenMax < len ∨ size < len →
      exec (.mTransmit a ⟨base, some size⟩ len) s =
        .next (s.putMaster { m with status := ⟨[.badLength], none⟩ }) ∧
      exec (.mReceive a ⟨base, some size⟩ len) s =
        .next (s.putMaster { m with status := ⟨[.badLength], none⟩ }))

/-- Refused master operations: one call at a time (R267, R340), a buffer of known size (R119), no
operation issued while one is in flight (R175), by a call's MH_START neither (log 18); each sets `refused`
and does nothing else (R333). A second call is refused with WRONG_AGENT whatever its buffer (the order of
the checks is the model's choice, log 17); the master's address bytes are MH_WRITEs (log 16). -/
def Obligations.MasterOperationsRefused : Prop :=
  (∀ (s : State) (m : Master) (a : Byte) (buf : BufRef) (len : Nat) (i : Instr),
    MasterReady s m .masterFg → (i = .mTransmit a buf len ∨ i = .mReceive a buf len) →
    (m.call.isSome = true ∨ m.inFlight = true →
      exec i s = .next (s.putMaster { m with status := ⟨[], some .wrongAgent⟩ })) ∧
    (m.call = none → m.inFlight = false → buf.size = none →
      exec i s = .next (s.putMaster { m with status := ⟨[], some .badOperand⟩ }))) ∧
  (∀ (s : State) (m : Master) (i : Instr), MasterReady s m .masterEngine → m.inFlight = true →
    (i = .mhStart ∨ (∃ v, i = .mhWrite v) ∨ i = .mhReadAck ∨ i = .mhReadNack ∨ i = .mhStop ∨
      (∃ a, i = .masterAddrWrite a) ∨ (∃ a, i = .masterAddrRead a)) →
    exec i s = .next (s.putMaster { m with status := ⟨[], some .wrongAgent⟩ }))

/-- The busy-wait (R261, R264): a poll that finds mh.complete = 0 changes nothing but mh.trace, so the
wait goes on; one that finds 1 ends it, and the status is read next, except for a receive's last byte,
whose data are read next (R263). -/
def Obligations.PollOfACall : Prop :=
  ∀ (s : State) (m : Master) (c : Call), MasterReady s m .masterEngine → m.call = some c →
    c.pos = .poll →
    exec .mhPoll s = .next (s.putMaster { m with
      trace := m.trace ++ [.poll]
      call := some { c with pos :=
        if m.complete = false then .poll
        else if c.rw = true ∧ c.phase = .waitData ∧ c.len ≤ c.i + 1 then .readData
        else .status } })

/-- The status test (R262, R263, R108): the expected status goes on; any other ends the call, with code
1 after the start, 2 after the address, 3 after a data byte. The stop follows, but for a transmit's
codes 1 and 2 where TX_STOP_ON_EARLY_FAIL is false: there the call returns at once. -/
def Obligations.StatusOfACall : Prop :=
  ∀ (s : State) (m : Master) (c : Call), MasterReady s m .masterEngine → m.call = some c →
    c.pos = .status → ∀ (expected : Byte) (code : Rc),
    (c.phase = .waitStart ∧ expected = s.cfg.stStartSent ∧ code = 1 ∨
     c.phase = .waitAddr ∧ expected = (if c.rw then s.cfg.stAddrRAck else s.cfg.stAddrWAck) ∧ code = 2 ∨
     c.phase = .waitData ∧ expected = (if c.rw then s.cfg.stDataRxAck else s.cfg.stDataTxAck) ∧
       code = 3) →
    exec .mhStatus s = .next (s.putMaster (
      if m.mhStatus = expected then
        { m with trace := m.trace ++ [.status], call := some { c with pos := .good } }
      else if c.rw = false ∧ code ≠ 3 ∧ s.cfg.txStopOnEarlyFail = false then
        { m with trace := m.trace ++ [.status], call := none, results := m.results ++ [.code code] }
      else
        { m with trace := m.trace ++ [.status], call := some { c with pos := .fail code } }))

/-- The actions of a call that goes on (R262, R263, R264): the address byte after the start; then the
first data action, and the next one after each byte, m.i having advanced: a write of buf[m.i], or a
read with ACK for every byte except the last, which is read with NACK; buf is in the memory of the
node's own caller (log 11). That the rows MASTER_ADDR_WRITE
and MASTER_ADDR_READ, executed, are the MH_WRITE of the address byte is DEDUCED (log 16). -/
def Obligations.ActionsOfACall : Prop :=
  ∀ (s : State) (m : Master) (c : Call), MasterReady s m .masterEngine → m.call = some c →
    m.inFlight = false →
    (c.phase = .waitStart → c.pos = .good →
      exec (.mhWrite (addrByte c.addr c.rw)) s = .next (AfterIssue s m (.write (addrByte c.addr c.rw))
        .write (some { c with phase := .waitAddr, pos := .poll })) ∧
      exec (if c.rw then .masterAddrRead c.addr else .masterAddrWrite c.addr) s =
        .next (AfterIssue s m (.write (addrByte c.addr c.rw)) .write
          (some { c with phase := .waitAddr, pos := .poll }))) ∧
    (∀ j, (c.phase = .waitAddr ∧ c.pos = .good ∧ j = c.i ∨
           c.phase = .waitData ∧ c.pos = .good ∧ c.rw = false ∧ j = c.i + 1 ∨
           c.phase = .waitData ∧ c.pos = .stored ∧ j = c.i + 1) → j < c.len →
      (c.rw = false → exec (.mhWrite (m.mem.read (c.buf.base + j))) s =
        .next (AfterIssue s m (.write (m.mem.read (c.buf.base + j))) .write
          (some { c with phase := .waitData, i := j, pos := .poll }))) ∧
      (c.rw = true → j + 1 < c.len → exec .mhReadAck s =
        .next (AfterIssue s m .readAck .readAck
          (some { c with phase := .waitData, i := j, pos := .poll }))) ∧
      (c.rw = true → j + 1 = c.len → exec .mhReadNack s =
        .next (AfterIssue s m .readNack .readNack
          (some { c with phase := .waitData, i := j, pos := .poll }))))

/-- A received byte is stored at out[m.i] (R263): after a good status, or at once for the last byte. The
store is the only change of the caller's memory, at the address the buffer reference gives element m.i. -/
def Obligations.ReceivedByteIsStored : Prop :=
  ∀ (s : State) (m : Master) (c : Call), MasterReady s m .masterEngine → m.call = some c →
    (c.pos = .readData ∨ c.pos = .good ∧ c.phase = .waitData ∧ c.rw = true) → m.mem.wf →
    ∃ mem : Memory,
      exec .mhReadData s = .next (s.putMaster { m with
        trace := m.trace ++ [.readData], call := some { c with pos := .stored }, mem := mem }) ∧
      mem.read (bufAddr c.buf c.i) = m.mhData ∧
      (∀ a, a ≠ bufAddr c.buf c.i → mem.read a = m.mem.read a) ∧ mem.wf

/-- The end of a call (R262, R263, R264): where no byte is left the code is 0; after a bad status it is
that status's code. MH_STOP is issued, the code returned, and m.phase is IDLE. The caller's memory is
changed only by a failed receive, and there only in the positions not received, whose values are open. -/
def Obligations.StopEndsTheCall : Prop :=
  ∀ (s : State) (m : Master) (c : Call) (rc : Rc), MasterReady s m .masterEngine → m.call = some c →
    m.inFlight = false →
    (c.pos = .fail rc ∨
     rc = 0 ∧ c.pos = .good ∧ c.phase = .waitAddr ∧ c.len ≤ c.i ∨
     rc = 0 ∧ c.pos = .good ∧ c.phase = .waitData ∧ c.rw = false ∧ c.len ≤ c.i + 1 ∨
     rc = 0 ∧ c.pos = .stored ∧ c.len ≤ c.i + 1) →
    ∃ (mem : Memory) (d : Nat),
      exec .mhStop s = .next { s.putMaster { m with
          call := none, op := .none, trace := m.trace ++ [.stop], results := m.results ++ [.code rc]
          mem := mem } with
        draws := d
        bus := if s.cfg.env = .wire s.ctx.node then s.bus.carry .stop else s.bus } ∧
      (c.rw = false ∨ rc = 0 → mem = m.mem ∧ d = s.draws) ∧
      (m.mem.wf → mem.wf ∧ ∀ a,
        (a < bufAddr c.buf (if rc = 3 then c.i else 0) ∨ bufAddr c.buf c.len ≤ a) →
        mem.read a = m.mem.read a)

/-! ## The wire -/

/-- An address byte on the wire (R101-R105, R205, R301-R304): where every node floats the line and
stands at the beginning of a byte or with nothing armed, each node that waits for an address has the
byte, ACKs it if it is 0x00 or carries its own address, and else waits for a start. Nothing but the
nodes and the line changes. That a wire row is the slots of its byte is the model's reading (log 16). -/
def Obligations.AddressByteOnTheWire : Prop :=
  ∀ (s : State) (i : Instr) (b : Byte), WireReady s →
    (i = .addrGeneralCall ∧ b = 0 ∨ (∃ a, i = .addrOwnWrite a ∧ b = addrByte a false) ∨
     (∃ a, i = .addrOwnRead a ∧ b = addrByte a true) ∨
     (∃ a rw, i = .addrNoMatch a rw ∧ b = addrByte a rw)) →
    ∃ t, exec i s = .next t ∧ t = { s with slaves := t.slaves, bus := { s.bus with line := t.bus.line } } ∧
      ((∀ n ∈ s.slaves, n.driven = false ∧ (n.armed = 0 ∨ n.armed = 8)) →
        t.bus.line = b.getLsbD 0 ∧
        ∀ (j : Nat) (n : Slave), s.slaves[j]? = some n →
          (n.armed = 0 → t.slaves[j]? = some n) ∧
          (n.takesSteps = true → n.enabled = true → n.armed = 8 → n.state = .waitForAddress →
            t.slaves[j]? = some (
              if b = 0 ∨ b.toNat / 2 = n.own.toNat then
                { n with
                  sr := 0, armed := 1, driven := true, sleeping := false
                  state := if b.toNat % 2 = 1 then .sendData else .sendAck
                  trace := n.trace ++ [.readSr, .armShift 1, .writeSr 0, .setLineDriven true] }
              else
                { n with
                  sr := b, armed := 0, driven := false, sleeping := false, state := .waitForStart
                  trace := n.trace ++ [.readSr, .rearmStart] })))

/-- An acknowledge bit on the wire (R105, R301, R304): an ACK slot reads 0; a NACK slot reads 1 unless
a node drives 0 into it. Each node that waits for one bit takes it as its EV_SHIFT; one with nothing
armed ignores it (log 16). -/
def Obligations.AcknowledgeBitOnTheWire : Prop :=
  ∀ (s : State) (nack : Bool), WireReady s →
    ∃ t, exec (if nack then .wireNack else .wireAck) s = .next t ∧
      t = { s with slaves := t.slaves, bus := { s.bus with line := t.bus.line } } ∧
      (t.bus.line = false ↔
        nack = false ∨ ∃ n ∈ s.slaves, n.driven = true ∧ n.sr.getLsbD 7 = false) ∧
      ∀ (j : Nat) (n : Slave), s.slaves[j]? = some n →
        (n.armed = 0 → t.slaves[j]? = some n) ∧
        (n.takesSteps = true → n.enabled = true → n.armed = 1 → n.state ≠ .corrupt →
          ∃ free w : Byte, w.getLsbD 0 = t.bus.line ∧ t.slaves[j]? = some (n.evShift free w))

/-- The symbols of each master action (R303), most significant bit first (R302), with the master's part
in each: a false bit is driven, a true one released. The wire keeps the byte a write puts out, and
whether it is the first MH_WRITE after MH_START, the address phase of R308 (how the wire keeps this:
log 14); no action changes the line or what has been sampled. -/
def Obligations.SymbolsOfMasterActions : Prop :=
  ∀ (b : Bus),
    b.carry .start = { b with pending := b.pending ++ [Sym.start], addrNext := true } ∧
    (∀ v : Byte, b.carry (.write v) = { b with
      pending := b.pending ++
        [Sym.slot (v.getLsbD 7) false, Sym.slot (v.getLsbD 6) false, Sym.slot (v.getLsbD 5) false,
         Sym.slot (v.getLsbD 4) false, Sym.slot (v.getLsbD 3) false, Sym.slot (v.getLsbD 2) false,
         Sym.slot (v.getLsbD 1) false, Sym.slot (v.getLsbD 0) false, Sym.slot true true]
      out := v, isAddr := b.addrNext, addrNext := false }) ∧
    b.carry .readAck = { b with
      pending := b.pending ++ (List.replicate 8 (Sym.slot true false) ++ [Sym.slot false true]) } ∧
    b.carry .readNack = { b with
      pending := b.pending ++ (List.replicate 8 (Sym.slot true false) ++ [Sym.slot true true]) } ∧
    b.carry .stop = { b with pending := b.pending ++ [Sym.stop] } ∧
    (∀ a, a = MAct.poll ∨ a = MAct.status ∨ a = MAct.readData → b.carry a = b) ∧
    (∀ v w : Byte, ((b.carry .start).carry (.write v)).isAddr = true ∧
      (((b.carry .start).carry (.write v)).carry (.write w)).isAddr = false)

/-- A symbol of the wire, one step (R301, R303, R304, R305, R306), carried also where the wire's
master has become quiescent since (DEDUCED, log 15). A stop moves no node. A start is
EV_START at every enabled node that takes steps (a quiescent node takes none: R334, log 13). A slot has
the wired-AND of the master's part and the driving nodes' sr[7], and the master samples it; a node with
nothing armed, or not enabled, ignores it; one with more than one bit armed samples and counts it; one
with exactly one bit armed takes it as the last bit, as its EV_SHIFT with that bit sampled. -/
def Obligations.WireCarriesASymbol : Prop :=
  ∀ (s : State) (rest : List Turn) (k : Nat) (x : Sym) (xs : List Sym), s.sched = .wire :: rest →
    s.cfg.env = .wire k → s.bus.pending = x :: xs →
    ∃ t, step s = .next t ∧
      t = { s with sched := rest, slaves := t.slaves, bus := t.bus } ∧
      t.bus = { s.bus with
        pending := xs, line := t.bus.line, ack := t.bus.ack, sampled := t.bus.sampled } ∧
      (x = .stop → t.slaves = s.slaves ∧ t.bus = { s.bus with pending := xs }) ∧
      (x = .start → t.bus = { s.bus with pending := xs } ∧ ∀ (j : Nat) (n : Slave),
        s.slaves[j]? = some n →
        t.slaves[j]? = some (if n.enabled = true ∧ n.takesSteps = true then n.evStart else n)) ∧
      (∀ bit ack, x = .slot bit ack →
        (t.bus.line = true ↔ bit = true ∧ ∀ n ∈ s.slaves, n.driven = true → n.sr.getLsbD 7 = true) ∧
        (ack = true → t.bus.ack = t.bus.line ∧ t.bus.sampled = s.bus.sampled) ∧
        (ack = false → t.bus.ack = s.bus.ack ∧
          t.bus.sampled.toNat = (2 * s.bus.sampled.toNat + t.bus.line.toNat) % 256) ∧
        ∀ (j : Nat) (n : Slave), s.slaves[j]? = some n →
          (n.armed = 0 ∨ n.enabled = false → t.slaves[j]? = some n) ∧
          (n.takesSteps = true → n.enabled = true → 1 < n.armed → t.slaves[j]? = some { n with
            sr := (n.sr <<< 1) ||| (if t.bus.line then 1 else 0), armed := n.armed - 1 }) ∧
          (n.takesSteps = true → n.enabled = true → n.armed = 1 → ∃ free w : Byte,
            w.getLsbD 0 = t.bus.line ∧ oneBitSample free w = shiftIn n.sr t.bus.line ∧
            t.slaves[j]? = some (n.evShift free w)))

/-- What the master is told when the symbols of an operation are complete (R308); where the statuses are
told apart as R10 asks, a good status after a write says that the acknowledge slot read 0. -/
def Obligations.WireCompletesAnOperation : Prop :=
  ∀ (s : State) (rest : List Turn) (j : Nat) (m : Master), s.sched = .wire :: rest →
    s.cfg.env = .wire j → s.bus.pending = [] → s.masterAt j = some m → m.inFlight = true →
    m.status = Status.clean →
    ∃ t m', step s = .next t ∧ t.masterAt j = some m' ∧ m'.op = .none ∧ m'.complete = true ∧
      m'.trace = m.trace ∧ m'.call = m.call ∧ t.slaves = s.slaves ∧ t.bus = s.bus ∧
      (m.op = .start → m'.mhStatus = s.cfg.stStartSent) ∧
      (m.op = .write → m'.mhStatus =
        (if s.bus.isAddr = true then
          (if s.bus.ack = true then (if s.bus.out.toNat % 2 = 1 then s.cfg.stAddrRNack else s.cfg.stAddrWNack)
           else (if s.bus.out.toNat % 2 = 1 then s.cfg.stAddrRAck else s.cfg.stAddrWAck))
         else (if s.bus.ack = true then s.cfg.stDataTxNack else s.cfg.stDataTxAck))) ∧
      (m.op = .readAck → m'.mhStatus = s.cfg.stDataRxAck ∧ m'.mhData = s.bus.sampled) ∧
      (m.op = .readNack → m'.mhStatus = s.cfg.stDataRxNack ∧ m'.mhData = s.bus.sampled) ∧
      (m.op = .write → s.cfg.statusesDiffer = true →
        (s.bus.isAddr = true → (m'.mhStatus = (if s.bus.out.toNat % 2 = 1 then s.cfg.stAddrRAck
          else s.cfg.stAddrWAck) ↔ s.bus.ack = false)) ∧
        (s.bus.isAddr = false → (m'.mhStatus = s.cfg.stDataTxAck ↔ s.bus.ack = false)))

/-! ## Whole-machine rules -/

/-- After a fault or a refusal the instance is quiescent: no agent of it takes a further step, on whatever
instance the operation would act (R334; that R340's agents are those of one engine or ring, a stand-alone
ring's being agents of their own (log 32), and what an operation of the environment, the wire or a creation
is charged to, is log 13). Nothing else stops but a foreground that is halted or busy (R47, R343): whatever
is charged to a clean record has a step, if only its refusal (R333), or is an event that is not admissible
(R334). -/
def Obligations.QuiescentInstanceHasNoStep : Prop :=
  (∀ (s : State) (i : Instr) (st : Status), s.statusOf (s.instOf i) = some st → st ≠ Status.clean →
    exec i s = .fault .quiescent) ∧
  (∀ (s : State) (i : Instr),
    (∃ n, s.node? = some n ∧ n.status ≠ Status.clean ∧
      (s.ctx.agent = .isr ∨ s.ctx.agent = .slaveFg ∨ s.ctx.agent = .tester)) ∨
    (∃ m, s.master? = some m ∧ m.status ≠ Status.clean ∧
      (s.ctx.agent = .masterFg ∨ s.ctx.agent = .masterEngine)) ∨
    (∃ q r, s.ring? q = some r ∧ r.status ≠ Status.clean ∧
      (s.ctx.agent = .ringProducer q ∨ s.ctx.agent = .ringConsumer q)) →
    exec i s = .fault .quiescent) ∧
  (∀ (s : State) (i : Instr), s.statusOf (s.instOf i) = some Status.clean → s.stall = none →
    (∃ t, exec i s = .next t) ∨
    exec i s = .fault .notAdmissible ∧
      (i = .evStart ∨ (∃ w, i = .evShift w) ∨ ∃ st d, i = .envMComplete st d))

/-- R340's table: agent a may issue the operation. The completion is the wire's where the wire is the
master's environment (R340, last row); the address bytes of a master are its MH_WRITEs, and the wire
rows a slave sees are the environment's (log 16). R340 says of a stand-alone ring's producer and consumer that
each is declared; that they are `ringProducer q` and `ringConsumer q`, and so no context of a node, is the
model's choice (log 32). -/
def AllowedBy340 (s : State) (a : Agent) : Instr → Prop
  | .evStart | .evShift _ | .evOther => a = .env
  | .initEngine _ | .sendChar _ | .charAvailable | .receiveChar | .sleep => a = .slaveFg
  | .rbInit _ _ => a = .creator
  | .rbPush q _ => a = if q = 0 then .isr else if q = 1 then .slaveFg else .ringProducer q
  | .rbPop q => a = if q = 0 then .slaveFg else if q = 1 then .isr else .ringConsumer q
  | .rbHasData q => a = if q = 0 then .slaveFg else if q = 1 then .tester else .ringConsumer q
  | .mTransmit _ _ _ | .mReceive _ _ _ => a = .masterFg
  | .armShift _ | .setLineDriven _ | .readSr | .writeSr _ | .rearmStart => a = .isr
  | .mhStart | .mhWrite _ | .mhReadAck | .mhReadNack | .mhStop | .mhPoll | .mhStatus | .mhReadData
  | .masterAddrWrite _ | .masterAddrRead _ => a = .masterEngine
  | .envMComplete _ _ => a = if s.cfg.env = .wire s.ctx.node then .wire else .env
  | .addrGeneralCall | .addrOwnWrite _ | .addrOwnRead _ | .addrNoMatch _ _ | .wireAck | .wireNack => a = .env

/-- The operations that act on a slave engine as a whole (groups 0x0, 0x1 and 0x4 of R113). -/
def SlaveOperation : Instr → Prop
  | .evStart | .evShift _ | .evOther | .initEngine _ | .sendChar _ | .charAvailable | .receiveChar | .sleep
  | .armShift _ | .setLineDriven _ | .readSr | .writeSr _ | .rearmStart => True
  | .rbInit _ _ | .rbPush _ _ | .rbPop _ | .rbHasData _ | .mTransmit _ _ _ | .mReceive _ _ _ | .mhStart
  | .mhWrite _ | .mhReadAck | .mhReadNack | .mhStop | .mhPoll | .mhStatus | .mhReadData | .envMComplete _ _
  | .masterAddrWrite _ | .masterAddrRead _ | .addrGeneralCall | .addrOwnWrite _ | .addrOwnRead _
  | .addrNoMatch _ _ | .wireAck | .wireNack => False

/-- The operations that act on a master engine (groups 0x3, 0x5 and 0x6 of R113, and R104's bytes). -/
def MasterOperation : Instr → Prop
  | .mTransmit _ _ _ | .mReceive _ _ _ | .mhStart | .mhWrite _ | .mhReadAck | .mhReadNack | .mhStop | .mhPoll
  | .mhStatus | .mhReadData | .envMComplete _ _ | .masterAddrWrite _ | .masterAddrRead _ => True
  | .evStart | .evShift _ | .evOther | .initEngine _ | .sendChar _ | .charAvailable | .receiveChar | .sleep
  | .armShift _ | .setLineDriven _ | .readSr | .writeSr _ | .rearmStart | .rbInit _ _ | .rbPush _ _ | .rbPop _
  | .rbHasData _ | .addrGeneralCall | .addrOwnWrite _ | .addrOwnRead _ | .addrNoMatch _ _ | .wireAck
  | .wireNack => False

/-- R340, every row: an operation issued by any agent but the one the table names is refused with
WRONG_AGENT and has no other effect (R333), where what it is charged to may take a step (log 13), its issuer
is not halted, and it passes the checks that come before WF_AGENT (log 17); whether the node holds the
engine the operation would act on is no matter. On a stand-alone ring that refuses every context of a node,
by the model's choice of who its declared producer and consumer are (log 32). The same where the node holds
no such engine, or one not wholly created, whoever issues it: no row's agent is an agent of it (log 31, log
23). The same where the table's agent issues it and the environment is not of the kind that has the
operation: no wire row but where bits are clocked, no event where the wire delivers it, no slave HAL action
outside a handler but in the HAL bench before INITIALIZE (log 8, log 16, log 19). And the same for the ring
operations of the ISR where none of its handlers does it: before INITIALIZE no handler runs (R371), and only
WaitForData's pushes on rx, only those of SendData and WaitAck pop tx (R207, R203, R210; log 8). -/
def Obligations.WrongAgentIsRefused : Prop :=
  ∀ (s : State) (i : Instr), s.statusOf (s.instOf i) = some Status.clean →
    s.stall = none → i.shapeOk = true → i.kOk = true → s.ringOk i = true →
    (¬ AllowedBy340 s s.ctx.agent i ∨
     SlaveOperation i ∧ (∀ n, s.node? = some n → n.isCreated = false) ∨
     MasterOperation i ∧ s.master? = none ∨
     i = .evStart ∧ s.cfg.env.starts = false ∨
     (∃ w, i = .evShift w) ∧ s.cfg.env.shifts = false ∨
     (i = .addrGeneralCall ∨ (∃ a, i = .addrOwnWrite a) ∨ (∃ a, i = .addrOwnRead a) ∨
       (∃ a rw, i = .addrNoMatch a rw) ∨ i = .wireAck ∨ i = .wireNack) ∧ s.cfg.env ≠ .bits ∨
     ((∃ k, i = .armShift k) ∨ (∃ d, i = .setLineDriven d) ∨ i = .readSr ∨ (∃ v, i = .writeSr v) ∨
       i = .rearmStart) ∧ (s.cfg.env ≠ .halBench ∨ ∃ n, s.node? = some n ∧ n.enabled = true) ∨
     (∃ x, i = .rbPush 0 x) ∧
       (∃ n, s.node? = some n ∧ (n.enabled = false ∨ n.state ≠ .waitForData)) ∨
     i = .rbPop 1 ∧
       (∃ n, s.node? = some n ∧ (n.enabled = false ∨ n.state ≠ .sendData ∧ n.state ≠ .waitAck))) →
    exec i s = .next (s.refuse (s.instOf i) .wrongAgent)

/-- Every register as 70_reset_and_hazards.md R370 lists it after the creation of any instances, and so
after reset. The values R62 leaves unspecified are the model's own (log 3) and are not stated. Two clauses
rest on a choice of the model: that the initial context, "the foreground", is the slave foreground (log 14),
and that the instances of `State.reset`, whose capacities log 4 chooses, are clean. -/
def Obligations.RegistersAfterReset : Prop :=
  (∀ (p : Params) (rings : List (Nat × Nat)) (masters : List Bool),
    let s := State.created p rings masters
    (∀ n ∈ s.slaves, n.rx.read = 0 ∧ n.rx.write = 0 ∧ n.tx.read = 0 ∧ n.tx.write = 0 ∧
      n.state = .waitForStart ∧ n.armed = 0 ∧ n.driven = false ∧ n.enabled = false ∧ n.trace = [] ∧
      n.sleeping = false ∧ n.status.faults = []) ∧
    (∀ m, some m ∈ s.masters → m.phase = .idle ∧ m.op = .none ∧ m.complete = false ∧ m.trace = [] ∧
      m.status = Status.clean) ∧
    s.ctx.agent = .slaveFg) ∧
  (∀ (p : Params) (rx tx : Nat), 1 ≤ rx → rx ≤ 2 ^ p.indexBits → 1 ≤ tx → tx ≤ 2 ^ p.indexBits →
    let n := Slave.created p rx tx
    n.status = Status.clean ∧ n.rxCreated = true ∧ n.rx.n = rx ∧ n.txCreated = true ∧ n.tx.n = tx) ∧
  (∀ n ∈ State.reset.slaves, n.status = Status.clean)

/-- The invariant and R213's table hold after the creation of any instances under parameters that tell
the statuses apart (R10), and so after reset. -/
def Obligations.ResetIsLegal : Prop :=
  (∀ (p : Params) (rings : List (Nat × Nat)) (masters : List Bool), p.statusesDiffer = true →
    (State.created p rings masters).Inv ∧ ∀ n ∈ (State.created p rings masters).slaves, n.inStep) ∧
  State.reset.Inv ∧ ∀ n ∈ State.reset.slaves, n.inStep

/-- Every step of every agent keeps the statuses told apart (R10), every register legal, every caller's
memory canonical (log 11), each master from issuing an operation while one is in flight, each node that
has not been initialized with rx empty and nothing taken from tx (R30, R51, R62, R175, R371), ring numbers
distinct, and one record for each issuer that is an agent of no instance (log 13). -/
def Obligations.StepKeepsTheInvariant : Prop :=
  ∀ (s t : State), s.Inv → step s = .next t → t.Inv

/-- A step changes no parameter (R10), creates and removes no slave node and no master (R343) and removes no
stand-alone ring (it may create one: `RingCreation`); the capacity N of a created ring, the slaves' and the
stand-alone ones, stays with the ring (R30, R147), and hal.enabled, once set, is never cleared (R171). -/
def Obligations.StepKeepsTheConfiguration : Prop :=
  ∀ (s t : State), step s = .next t →
    t.cfg = s.cfg ∧ t.slaves.length = s.slaves.length ∧
    (∀ (j : Nat) (n m : Slave), s.slaves[j]? = some n → t.slaves[j]? = some m →
      (n.rxCreated = true → m.rxCreated = true ∧ m.rx.n = n.rx.n) ∧
      (n.txCreated = true → m.txCreated = true ∧ m.tx.n = n.tx.n) ∧
      (n.enabled = true → m.enabled = true)) ∧
    (∀ j, (t.masterAt j).isSome = (s.masterAt j).isSome) ∧
    (∀ (q : Nat) (r : Standalone), s.ring? q = some r →
      ∃ r', t.ring? q = some r' ∧ r'.ring.n = r.ring.n)

/-- Fault codes and the refusal mark are never cleared, on any instance: slave engines, masters,
stand-alone rings and the records of issuers that are agents of none; and the traces only grow (R48, R49,
R334, R46, R56). -/
def Obligations.RecordsAreNeverCleared : Prop :=
  ∀ (s t : State), step s = .next t →
    (∀ (k : Inst) (st : Status), s.statusOf k = some st → ∃ st', t.statusOf k = some st' ∧
      (∀ c ∈ st.faults, c ∈ st'.faults) ∧
      (st.refusal.isSome = true → st'.refusal = st.refusal)) ∧
    (∀ (j : Nat) (n m : Slave), s.slaves[j]? = some n → t.slaves[j]? = some m →
      ∃ l, m.trace = n.trace ++ l) ∧
    (∀ (j : Nat) (m m' : Master), s.masterAt j = some m → t.masterAt j = some m' →
      ∃ l, m'.trace = m.trace ++ l)

/-- The frame of memory, for each node's caller (log 11): only MH_READ_DATA and MH_STOP of that node's own
master, inside a receive, write it (R65, R263, R343); the bytes they may write are out[m.i] and the
positions not received. -/
def Obligations.MemoryFrame : Prop :=
  ∀ (s t : State) (i : Instr) (j : Nat) (m m' : Master), exec i s = .next t →
    s.masterAt j = some m → t.masterAt j = some m' →
    (i ≠ .mhReadData → i ≠ .mhStop → m'.mem = m.mem) ∧
    (j ≠ s.ctx.node → m'.mem = m.mem) ∧
    (m.call = none → m'.mem = m.mem) ∧
    (∀ c, m.call = some c → m.mem.wf → c.wf s.cfg →
      (c.rw = false → m'.mem = m.mem) ∧
      (i = .mhReadData → ∀ a, a ≠ bufAddr c.buf c.i → m'.mem.read a = m.mem.read a) ∧
      (i = .mhStop → ∀ a, a < bufAddr c.buf 0 ∨ bufAddr c.buf c.len ≤ a →
        m'.mem.read a = m.mem.read a))

/-- Instances share no state (R343). An operation, its refusal too, is charged to the instance its issuer is
an agent of, or, if it is an agent of none, to an engine of its node or to a record of the issuer's own (log 13);
and it changes nothing else: charged to a node's slave engine, no other node's, no master, no ring and no
other record; to a master, no slave engine, no ring and no other master; to a stand-alone ring, none of them
and no other ring; to an issuer's record, no other record, no master, no ring that exists, and no slave
engine but by bits on the wire, which alone reach several nodes. A master is taken with its caller's memory,
so callers of two nodes share no byte (log 11); a stand-alone ring's agents are those of log 32. -/
def Obligations.InstancesShareNoState : Prop :=
  ∀ (s t : State) (i : Instr), exec i s = .next t →
    (∀ n, s.node? = some n → s.ctx.agent = .isr ∨ s.ctx.agent = .slaveFg ∨ s.ctx.agent = .tester →
      s.instOf i = .slave s.ctx.node) ∧
    (∀ m, s.master? = some m → s.ctx.agent = .masterFg ∨ s.ctx.agent = .masterEngine →
      s.instOf i = .master s.ctx.node) ∧
    (∀ q r, s.ring? q = some r → s.ctx.agent = .ringProducer q ∨ s.ctx.agent = .ringConsumer q →
      s.instOf i = .ring q) ∧
    (∀ j, s.instOf i = .slave j → j = s.ctx.node ∧ t.masters = s.masters ∧ t.rings = s.rings ∧
      t.outside = s.outside ∧ t.bus = s.bus ∧ ∀ k, k ≠ j → t.slaves[k]? = s.slaves[k]?) ∧
    (∀ j, s.instOf i = .master j → j = s.ctx.node ∧ t.slaves = s.slaves ∧ t.rings = s.rings ∧
      t.outside = s.outside ∧ ∀ k, k ≠ j → t.masterAt k = s.masterAt k) ∧
    (∀ q, s.instOf i = .ring q → (s.ctx.agent = .ringProducer q ∨ s.ctx.agent = .ringConsumer q) ∧
      t.slaves = s.slaves ∧ t.masters = s.masters ∧ t.outside = s.outside ∧ t.bus = s.bus ∧
      ∀ p, p ≠ q → t.ring? p = s.ring? p) ∧
    (∀ c, s.instOf i = .outside c → c.issuer = s.ctx ∧ t.masters = s.masters ∧
      (s.cfg.env ≠ .bits → t.slaves = s.slaves ∧ t.bus = s.bus) ∧
      (∀ q r, s.ring? q = some r → t.ring? q = some r) ∧
      ∀ d, d ≠ c → t.statusOf (.outside d) = s.statusOf (.outside d))
end

