-- ==== Sys2Proof/Laws/State.lean ====
section
/-! SUPPORT. What each named update of a record does to each field: true by rfl, for simp. -/

namespace Sys2Proof.Machine

/-! Slave HAL actions -/

@[simp] theorem Slave.record_state (n : Slave) (a : SAct) : (n.record a).state = n.state := rfl
@[simp] theorem Slave.record_own (n : Slave) (a : SAct) : (n.record a).own = n.own := rfl
@[simp] theorem Slave.record_rx (n : Slave) (a : SAct) : (n.record a).rx = n.rx := rfl
@[simp] theorem Slave.record_tx (n : Slave) (a : SAct) : (n.record a).tx = n.tx := rfl
@[simp] theorem Slave.record_sr (n : Slave) (a : SAct) : (n.record a).sr = n.sr := rfl
@[simp] theorem Slave.record_armed (n : Slave) (a : SAct) : (n.record a).armed = n.armed := rfl
@[simp] theorem Slave.record_driven (n : Slave) (a : SAct) : (n.record a).driven = n.driven := rfl
@[simp] theorem Slave.record_enabled (n : Slave) (a : SAct) : (n.record a).enabled = n.enabled := rfl
@[simp] theorem Slave.record_trace (n : Slave) (a : SAct) : (n.record a).trace = n.trace ++ [a] := rfl
@[simp] theorem Slave.record_sleeping (n : Slave) (a : SAct) : (n.record a).sleeping = n.sleeping := rfl
@[simp] theorem Slave.record_status (n : Slave) (a : SAct) : (n.record a).status = n.status := rfl
@[simp] theorem Slave.record_results (n : Slave) (a : SAct) : (n.record a).results = n.results := rfl
@[simp] theorem Slave.record_rxCreated (n : Slave) (a : SAct) : (n.record a).rxCreated = n.rxCreated := rfl
@[simp] theorem Slave.record_txCreated (n : Slave) (a : SAct) : (n.record a).txCreated = n.txCreated := rfl

/-! ARM_SHIFT -/

@[simp] theorem Slave.armShift_state (n : Slave) (k : Nat) : (n.armShift k).state = n.state := rfl
@[simp] theorem Slave.armShift_own (n : Slave) (k : Nat) : (n.armShift k).own = n.own := rfl
@[simp] theorem Slave.armShift_rx (n : Slave) (k : Nat) : (n.armShift k).rx = n.rx := rfl
@[simp] theorem Slave.armShift_tx (n : Slave) (k : Nat) : (n.armShift k).tx = n.tx := rfl
@[simp] theorem Slave.armShift_sr (n : Slave) (k : Nat) : (n.armShift k).sr = n.sr := rfl
@[simp] theorem Slave.armShift_armed (n : Slave) (k : Nat) : (n.armShift k).armed = k := rfl
@[simp] theorem Slave.armShift_driven (n : Slave) (k : Nat) : (n.armShift k).driven = n.driven := rfl
@[simp] theorem Slave.armShift_enabled (n : Slave) (k : Nat) : (n.armShift k).enabled = n.enabled := rfl
@[simp] theorem Slave.armShift_trace (n : Slave) (k : Nat) : (n.armShift k).trace = n.trace ++ [.armShift k] := rfl
@[simp] theorem Slave.armShift_sleeping (n : Slave) (k : Nat) : (n.armShift k).sleeping = n.sleeping := rfl
@[simp] theorem Slave.armShift_status (n : Slave) (k : Nat) : (n.armShift k).status = n.status := rfl
@[simp] theorem Slave.armShift_results (n : Slave) (k : Nat) : (n.armShift k).results = n.results := rfl
@[simp] theorem Slave.armShift_rxCreated (n : Slave) (k : Nat) : (n.armShift k).rxCreated = n.rxCreated := rfl
@[simp] theorem Slave.armShift_txCreated (n : Slave) (k : Nat) : (n.armShift k).txCreated = n.txCreated := rfl

/-! SET_LINE_DRIVEN -/

@[simp] theorem Slave.setLineDriven_state (n : Slave) (d : Bool) : (n.setLineDriven d).state = n.state := rfl
@[simp] theorem Slave.setLineDriven_own (n : Slave) (d : Bool) : (n.setLineDriven d).own = n.own := rfl
@[simp] theorem Slave.setLineDriven_rx (n : Slave) (d : Bool) : (n.setLineDriven d).rx = n.rx := rfl
@[simp] theorem Slave.setLineDriven_tx (n : Slave) (d : Bool) : (n.setLineDriven d).tx = n.tx := rfl
@[simp] theorem Slave.setLineDriven_sr (n : Slave) (d : Bool) : (n.setLineDriven d).sr = n.sr := rfl
@[simp] theorem Slave.setLineDriven_armed (n : Slave) (d : Bool) : (n.setLineDriven d).armed = n.armed := rfl
@[simp] theorem Slave.setLineDriven_driven (n : Slave) (d : Bool) : (n.setLineDriven d).driven = d := rfl
@[simp] theorem Slave.setLineDriven_enabled (n : Slave) (d : Bool) : (n.setLineDriven d).enabled = n.enabled := rfl
@[simp] theorem Slave.setLineDriven_trace (n : Slave) (d : Bool) : (n.setLineDriven d).trace = n.trace ++ [.setLineDriven d] := rfl
@[simp] theorem Slave.setLineDriven_sleeping (n : Slave) (d : Bool) : (n.setLineDriven d).sleeping = n.sleeping := rfl
@[simp] theorem Slave.setLineDriven_status (n : Slave) (d : Bool) : (n.setLineDriven d).status = n.status := rfl
@[simp] theorem Slave.setLineDriven_results (n : Slave) (d : Bool) : (n.setLineDriven d).results = n.results := rfl
@[simp] theorem Slave.setLineDriven_rxCreated (n : Slave) (d : Bool) : (n.setLineDriven d).rxCreated = n.rxCreated := rfl
@[simp] theorem Slave.setLineDriven_txCreated (n : Slave) (d : Bool) : (n.setLineDriven d).txCreated = n.txCreated := rfl

/-! READ_SR -/

@[simp] theorem Slave.readSr_state (n : Slave) : (n.readSr).state = n.state := rfl
@[simp] theorem Slave.readSr_own (n : Slave) : (n.readSr).own = n.own := rfl
@[simp] theorem Slave.readSr_rx (n : Slave) : (n.readSr).rx = n.rx := rfl
@[simp] theorem Slave.readSr_tx (n : Slave) : (n.readSr).tx = n.tx := rfl
@[simp] theorem Slave.readSr_sr (n : Slave) : (n.readSr).sr = n.sr := rfl
@[simp] theorem Slave.readSr_armed (n : Slave) : (n.readSr).armed = n.armed := rfl
@[simp] theorem Slave.readSr_driven (n : Slave) : (n.readSr).driven = n.driven := rfl
@[simp] theorem Slave.readSr_enabled (n : Slave) : (n.readSr).enabled = n.enabled := rfl
@[simp] theorem Slave.readSr_trace (n : Slave) : (n.readSr).trace = n.trace ++ [.readSr] := rfl
@[simp] theorem Slave.readSr_sleeping (n : Slave) : (n.readSr).sleeping = n.sleeping := rfl
@[simp] theorem Slave.readSr_status (n : Slave) : (n.readSr).status = n.status := rfl
@[simp] theorem Slave.readSr_results (n : Slave) : (n.readSr).results = n.results := rfl
@[simp] theorem Slave.readSr_rxCreated (n : Slave) : (n.readSr).rxCreated = n.rxCreated := rfl
@[simp] theorem Slave.readSr_txCreated (n : Slave) : (n.readSr).txCreated = n.txCreated := rfl

/-! WRITE_SR -/

@[simp] theorem Slave.writeSr_state (n : Slave) (v : Byte) : (n.writeSr v).state = n.state := rfl
@[simp] theorem Slave.writeSr_own (n : Slave) (v : Byte) : (n.writeSr v).own = n.own := rfl
@[simp] theorem Slave.writeSr_rx (n : Slave) (v : Byte) : (n.writeSr v).rx = n.rx := rfl
@[simp] theorem Slave.writeSr_tx (n : Slave) (v : Byte) : (n.writeSr v).tx = n.tx := rfl
@[simp] theorem Slave.writeSr_sr (n : Slave) (v : Byte) : (n.writeSr v).sr = v := rfl
@[simp] theorem Slave.writeSr_armed (n : Slave) (v : Byte) : (n.writeSr v).armed = n.armed := rfl
@[simp] theorem Slave.writeSr_driven (n : Slave) (v : Byte) : (n.writeSr v).driven = n.driven := rfl
@[simp] theorem Slave.writeSr_enabled (n : Slave) (v : Byte) : (n.writeSr v).enabled = n.enabled := rfl
@[simp] theorem Slave.writeSr_trace (n : Slave) (v : Byte) : (n.writeSr v).trace = n.trace ++ [.writeSr v] := rfl
@[simp] theorem Slave.writeSr_sleeping (n : Slave) (v : Byte) : (n.writeSr v).sleeping = n.sleeping := rfl
@[simp] theorem Slave.writeSr_status (n : Slave) (v : Byte) : (n.writeSr v).status = n.status := rfl
@[simp] theorem Slave.writeSr_results (n : Slave) (v : Byte) : (n.writeSr v).results = n.results := rfl
@[simp] theorem Slave.writeSr_rxCreated (n : Slave) (v : Byte) : (n.writeSr v).rxCreated = n.rxCreated := rfl
@[simp] theorem Slave.writeSr_txCreated (n : Slave) (v : Byte) : (n.writeSr v).txCreated = n.txCreated := rfl

/-! REARM_START -/

@[simp] theorem Slave.rearmStart_state (n : Slave) : (n.rearmStart).state = n.state := rfl
@[simp] theorem Slave.rearmStart_own (n : Slave) : (n.rearmStart).own = n.own := rfl
@[simp] theorem Slave.rearmStart_rx (n : Slave) : (n.rearmStart).rx = n.rx := rfl
@[simp] theorem Slave.rearmStart_tx (n : Slave) : (n.rearmStart).tx = n.tx := rfl
@[simp] theorem Slave.rearmStart_sr (n : Slave) : (n.rearmStart).sr = n.sr := rfl
@[simp] theorem Slave.rearmStart_armed (n : Slave) : (n.rearmStart).armed = 0 := rfl
@[simp] theorem Slave.rearmStart_driven (n : Slave) : (n.rearmStart).driven = false := rfl
@[simp] theorem Slave.rearmStart_enabled (n : Slave) : (n.rearmStart).enabled = n.enabled := rfl
@[simp] theorem Slave.rearmStart_trace (n : Slave) : (n.rearmStart).trace = n.trace ++ [.rearmStart] := rfl
@[simp] theorem Slave.rearmStart_sleeping (n : Slave) : (n.rearmStart).sleeping = n.sleeping := rfl
@[simp] theorem Slave.rearmStart_status (n : Slave) : (n.rearmStart).status = n.status := rfl
@[simp] theorem Slave.rearmStart_results (n : Slave) : (n.rearmStart).results = n.results := rfl
@[simp] theorem Slave.rearmStart_rxCreated (n : Slave) : (n.rearmStart).rxCreated = n.rxCreated := rfl
@[simp] theorem Slave.rearmStart_txCreated (n : Slave) : (n.rearmStart).txCreated = n.txCreated := rfl

/-! state <- X -/

@[simp] theorem Slave.goto_state (n : Slave) (x : SlaveState) : (n.goto x).state = x := rfl
@[simp] theorem Slave.goto_own (n : Slave) (x : SlaveState) : (n.goto x).own = n.own := rfl
@[simp] theorem Slave.goto_rx (n : Slave) (x : SlaveState) : (n.goto x).rx = n.rx := rfl
@[simp] theorem Slave.goto_tx (n : Slave) (x : SlaveState) : (n.goto x).tx = n.tx := rfl
@[simp] theorem Slave.goto_sr (n : Slave) (x : SlaveState) : (n.goto x).sr = n.sr := rfl
@[simp] theorem Slave.goto_armed (n : Slave) (x : SlaveState) : (n.goto x).armed = n.armed := rfl
@[simp] theorem Slave.goto_driven (n : Slave) (x : SlaveState) : (n.goto x).driven = n.driven := rfl
@[simp] theorem Slave.goto_enabled (n : Slave) (x : SlaveState) : (n.goto x).enabled = n.enabled := rfl
@[simp] theorem Slave.goto_trace (n : Slave) (x : SlaveState) : (n.goto x).trace = n.trace := rfl
@[simp] theorem Slave.goto_sleeping (n : Slave) (x : SlaveState) : (n.goto x).sleeping = n.sleeping := rfl
@[simp] theorem Slave.goto_status (n : Slave) (x : SlaveState) : (n.goto x).status = n.status := rfl
@[simp] theorem Slave.goto_results (n : Slave) (x : SlaveState) : (n.goto x).results = n.results := rfl
@[simp] theorem Slave.goto_rxCreated (n : Slave) (x : SlaveState) : (n.goto x).rxCreated = n.rxCreated := rfl
@[simp] theorem Slave.goto_txCreated (n : Slave) (x : SlaveState) : (n.goto x).txCreated = n.txCreated := rfl

/-! faults and refused -/

@[simp] theorem Slave.mapStatus_state (n : Slave) (f : Status → Status) : (n.mapStatus f).state = n.state := rfl
@[simp] theorem Slave.mapStatus_own (n : Slave) (f : Status → Status) : (n.mapStatus f).own = n.own := rfl
@[simp] theorem Slave.mapStatus_rx (n : Slave) (f : Status → Status) : (n.mapStatus f).rx = n.rx := rfl
@[simp] theorem Slave.mapStatus_tx (n : Slave) (f : Status → Status) : (n.mapStatus f).tx = n.tx := rfl
@[simp] theorem Slave.mapStatus_sr (n : Slave) (f : Status → Status) : (n.mapStatus f).sr = n.sr := rfl
@[simp] theorem Slave.mapStatus_armed (n : Slave) (f : Status → Status) : (n.mapStatus f).armed = n.armed := rfl
@[simp] theorem Slave.mapStatus_driven (n : Slave) (f : Status → Status) : (n.mapStatus f).driven = n.driven := rfl
@[simp] theorem Slave.mapStatus_enabled (n : Slave) (f : Status → Status) : (n.mapStatus f).enabled = n.enabled := rfl
@[simp] theorem Slave.mapStatus_trace (n : Slave) (f : Status → Status) : (n.mapStatus f).trace = n.trace := rfl
@[simp] theorem Slave.mapStatus_sleeping (n : Slave) (f : Status → Status) : (n.mapStatus f).sleeping = n.sleeping := rfl
@[simp] theorem Slave.mapStatus_status (n : Slave) (f : Status → Status) : (n.mapStatus f).status = f n.status := rfl
@[simp] theorem Slave.mapStatus_results (n : Slave) (f : Status → Status) : (n.mapStatus f).results = n.results := rfl
@[simp] theorem Slave.mapStatus_rxCreated (n : Slave) (f : Status → Status) : (n.mapStatus f).rxCreated = n.rxCreated := rfl
@[simp] theorem Slave.mapStatus_txCreated (n : Slave) (f : Status → Status) : (n.mapStatus f).txCreated = n.txCreated := rfl

/-! results -/

@[simp] theorem Slave.addResult_state (n : Slave) (r : Result) : (n.addResult r).state = n.state := rfl
@[simp] theorem Slave.addResult_own (n : Slave) (r : Result) : (n.addResult r).own = n.own := rfl
@[simp] theorem Slave.addResult_rx (n : Slave) (r : Result) : (n.addResult r).rx = n.rx := rfl
@[simp] theorem Slave.addResult_tx (n : Slave) (r : Result) : (n.addResult r).tx = n.tx := rfl
@[simp] theorem Slave.addResult_sr (n : Slave) (r : Result) : (n.addResult r).sr = n.sr := rfl
@[simp] theorem Slave.addResult_armed (n : Slave) (r : Result) : (n.addResult r).armed = n.armed := rfl
@[simp] theorem Slave.addResult_driven (n : Slave) (r : Result) : (n.addResult r).driven = n.driven := rfl
@[simp] theorem Slave.addResult_enabled (n : Slave) (r : Result) : (n.addResult r).enabled = n.enabled := rfl
@[simp] theorem Slave.addResult_trace (n : Slave) (r : Result) : (n.addResult r).trace = n.trace := rfl
@[simp] theorem Slave.addResult_sleeping (n : Slave) (r : Result) : (n.addResult r).sleeping = n.sleeping := rfl
@[simp] theorem Slave.addResult_status (n : Slave) (r : Result) : (n.addResult r).status = n.status := rfl
@[simp] theorem Slave.addResult_results (n : Slave) (r : Result) : (n.addResult r).results = n.results ++ [r] := rfl
@[simp] theorem Slave.addResult_rxCreated (n : Slave) (r : Result) : (n.addResult r).rxCreated = n.rxCreated := rfl
@[simp] theorem Slave.addResult_txCreated (n : Slave) (r : Result) : (n.addResult r).txCreated = n.txCreated := rfl

/-! sendAck() (R202) -/

@[simp] theorem Slave.sendAck_state (n : Slave) : (n.sendAck).state = n.state := rfl
@[simp] theorem Slave.sendAck_own (n : Slave) : (n.sendAck).own = n.own := rfl
@[simp] theorem Slave.sendAck_rx (n : Slave) : (n.sendAck).rx = n.rx := rfl
@[simp] theorem Slave.sendAck_tx (n : Slave) : (n.sendAck).tx = n.tx := rfl
@[simp] theorem Slave.sendAck_sr (n : Slave) : (n.sendAck).sr = 0x00#8 := rfl
@[simp] theorem Slave.sendAck_armed (n : Slave) : (n.sendAck).armed = 1 := rfl
@[simp] theorem Slave.sendAck_driven (n : Slave) : (n.sendAck).driven = true := rfl
@[simp] theorem Slave.sendAck_enabled (n : Slave) : (n.sendAck).enabled = n.enabled := rfl
@[simp] theorem Slave.sendAck_trace (n : Slave) : (n.sendAck).trace = ((n.trace ++ [.armShift 1]) ++ [.writeSr 0x00]) ++ [.setLineDriven true] := rfl
@[simp] theorem Slave.sendAck_sleeping (n : Slave) : (n.sendAck).sleeping = n.sleeping := rfl
@[simp] theorem Slave.sendAck_status (n : Slave) : (n.sendAck).status = n.status := rfl
@[simp] theorem Slave.sendAck_results (n : Slave) : (n.sendAck).results = n.results := rfl
@[simp] theorem Slave.sendAck_rxCreated (n : Slave) : (n.sendAck).rxCreated = n.rxCreated := rfl
@[simp] theorem Slave.sendAck_txCreated (n : Slave) : (n.sendAck).txCreated = n.txCreated := rfl

/-! INITIALIZE (R240) -/

@[simp] theorem Slave.initEngine_state (n : Slave) (a : Addr7) : (n.initEngine a).state = .waitForStart := rfl
@[simp] theorem Slave.initEngine_own (n : Slave) (a : Addr7) : (n.initEngine a).own = a := rfl
@[simp] theorem Slave.initEngine_rx (n : Slave) (a : Addr7) : (n.initEngine a).rx = n.rx := rfl
@[simp] theorem Slave.initEngine_tx (n : Slave) (a : Addr7) : (n.initEngine a).tx = n.tx := rfl
@[simp] theorem Slave.initEngine_sr (n : Slave) (a : Addr7) : (n.initEngine a).sr = n.sr := rfl
@[simp] theorem Slave.initEngine_armed (n : Slave) (a : Addr7) : (n.initEngine a).armed = 0 := rfl
@[simp] theorem Slave.initEngine_driven (n : Slave) (a : Addr7) : (n.initEngine a).driven = false := rfl
@[simp] theorem Slave.initEngine_enabled (n : Slave) (a : Addr7) : (n.initEngine a).enabled = true := rfl
@[simp] theorem Slave.initEngine_trace (n : Slave) (a : Addr7) : (n.initEngine a).trace = n.trace ++ [.rearmStart] := rfl
@[simp] theorem Slave.initEngine_sleeping (n : Slave) (a : Addr7) : (n.initEngine a).sleeping = n.sleeping := rfl
@[simp] theorem Slave.initEngine_status (n : Slave) (a : Addr7) : (n.initEngine a).status = n.status := rfl
@[simp] theorem Slave.initEngine_results (n : Slave) (a : Addr7) : (n.initEngine a).results = n.results := rfl
@[simp] theorem Slave.initEngine_rxCreated (n : Slave) (a : Addr7) : (n.initEngine a).rxCreated = n.rxCreated := rfl
@[simp] theorem Slave.initEngine_txCreated (n : Slave) (a : Addr7) : (n.initEngine a).txCreated = n.txCreated := rfl

/-! EV_START (R167, R201) -/

@[simp] theorem Slave.evStart_state (n : Slave) : (n.evStart).state = .waitForAddress := rfl
@[simp] theorem Slave.evStart_own (n : Slave) : (n.evStart).own = n.own := rfl
@[simp] theorem Slave.evStart_rx (n : Slave) : (n.evStart).rx = n.rx := rfl
@[simp] theorem Slave.evStart_tx (n : Slave) : (n.evStart).tx = n.tx := rfl
@[simp] theorem Slave.evStart_sr (n : Slave) : (n.evStart).sr = n.sr := rfl
@[simp] theorem Slave.evStart_armed (n : Slave) : (n.evStart).armed = 8 := rfl
@[simp] theorem Slave.evStart_driven (n : Slave) : (n.evStart).driven = false := rfl
@[simp] theorem Slave.evStart_enabled (n : Slave) : (n.evStart).enabled = n.enabled := rfl
@[simp] theorem Slave.evStart_trace (n : Slave) : (n.evStart).trace = (n.trace ++ [.armShift 8]) ++ [.setLineDriven false] := rfl
@[simp] theorem Slave.evStart_sleeping (n : Slave) : (n.evStart).sleeping = false := rfl
@[simp] theorem Slave.evStart_status (n : Slave) : (n.evStart).status = n.status := rfl
@[simp] theorem Slave.evStart_results (n : Slave) : (n.evStart).results = n.results := rfl
@[simp] theorem Slave.evStart_rxCreated (n : Slave) : (n.evStart).rxCreated = n.rxCreated := rfl
@[simp] theorem Slave.evStart_txCreated (n : Slave) : (n.evStart).txCreated = n.txCreated := rfl

/-! master results -/

@[simp] theorem Master.addResult_call (m : Master) (r : Result) : (m.addResult r).call = m.call := rfl
@[simp] theorem Master.addResult_op (m : Master) (r : Result) : (m.addResult r).op = m.op := rfl
@[simp] theorem Master.addResult_complete (m : Master) (r : Result) : (m.addResult r).complete = m.complete := rfl
@[simp] theorem Master.addResult_mhStatus (m : Master) (r : Result) : (m.addResult r).mhStatus = m.mhStatus := rfl
@[simp] theorem Master.addResult_mhData (m : Master) (r : Result) : (m.addResult r).mhData = m.mhData := rfl
@[simp] theorem Master.addResult_trace (m : Master) (r : Result) : (m.addResult r).trace = m.trace := rfl
@[simp] theorem Master.addResult_mem (m : Master) (r : Result) : (m.addResult r).mem = m.mem := rfl
@[simp] theorem Master.addResult_status (m : Master) (r : Result) : (m.addResult r).status = m.status := rfl
@[simp] theorem Master.addResult_results (m : Master) (r : Result) : (m.addResult r).results = m.results ++ [r] := rfl

/-! ENV_M_COMPLETE (R184) -/

@[simp] theorem Master.completeOp_call (m : Master) (st d : Byte) : (m.completeOp st d).call = m.call := rfl
@[simp] theorem Master.completeOp_op (m : Master) (st d : Byte) : (m.completeOp st d).op = .none := rfl
@[simp] theorem Master.completeOp_complete (m : Master) (st d : Byte) : (m.completeOp st d).complete = true := rfl
@[simp] theorem Master.completeOp_mhStatus (m : Master) (st d : Byte) : (m.completeOp st d).mhStatus = st := rfl
@[simp] theorem Master.completeOp_mhData (m : Master) (st d : Byte) : (m.completeOp st d).mhData = if m.op = .readAck ∨ m.op = .readNack then d else m.mhData := rfl
@[simp] theorem Master.completeOp_trace (m : Master) (st d : Byte) : (m.completeOp st d).trace = m.trace := rfl
@[simp] theorem Master.completeOp_mem (m : Master) (st d : Byte) : (m.completeOp st d).mem = m.mem := rfl
@[simp] theorem Master.completeOp_status (m : Master) (st d : Byte) : (m.completeOp st d).status = m.status := rfl
@[simp] theorem Master.completeOp_results (m : Master) (st d : Byte) : (m.completeOp st d).results = m.results := rfl

/-! the issuing node -/

@[simp] theorem State.putNode_cfg (s : State) (n : Slave) : (s.putNode n).cfg = s.cfg := rfl
@[simp] theorem State.putNode_slaves (s : State) (n : Slave) : (s.putNode n).slaves = s.slaves.set s.ctx.node n := rfl
@[simp] theorem State.putNode_masters (s : State) (n : Slave) : (s.putNode n).masters = s.masters := rfl
@[simp] theorem State.putNode_rings (s : State) (n : Slave) : (s.putNode n).rings = s.rings := rfl
@[simp] theorem State.putNode_bus (s : State) (n : Slave) : (s.putNode n).bus = s.bus := rfl
@[simp] theorem State.putNode_outside (s : State) (n : Slave) : (s.putNode n).outside = s.outside := rfl
@[simp] theorem State.putNode_ctx (s : State) (n : Slave) : (s.putNode n).ctx = s.ctx := rfl
@[simp] theorem State.putNode_sched (s : State) (n : Slave) : (s.putNode n).sched = s.sched := rfl
@[simp] theorem State.putNode_scripts (s : State) (n : Slave) : (s.putNode n).scripts = s.scripts := rfl
@[simp] theorem State.putNode_draws (s : State) (n : Slave) : (s.putNode n).draws = s.draws := rfl

/-! the issuing node's master -/

@[simp] theorem State.putMaster_cfg (s : State) (m : Master) : (s.putMaster m).cfg = s.cfg := rfl
@[simp] theorem State.putMaster_slaves (s : State) (m : Master) : (s.putMaster m).slaves = s.slaves := rfl
@[simp] theorem State.putMaster_masters (s : State) (m : Master) : (s.putMaster m).masters = s.masters.set s.ctx.node (some m) := rfl
@[simp] theorem State.putMaster_rings (s : State) (m : Master) : (s.putMaster m).rings = s.rings := rfl
@[simp] theorem State.putMaster_bus (s : State) (m : Master) : (s.putMaster m).bus = s.bus := rfl
@[simp] theorem State.putMaster_outside (s : State) (m : Master) : (s.putMaster m).outside = s.outside := rfl
@[simp] theorem State.putMaster_ctx (s : State) (m : Master) : (s.putMaster m).ctx = s.ctx := rfl
@[simp] theorem State.putMaster_sched (s : State) (m : Master) : (s.putMaster m).sched = s.sched := rfl
@[simp] theorem State.putMaster_scripts (s : State) (m : Master) : (s.putMaster m).scripts = s.scripts := rfl
@[simp] theorem State.putMaster_draws (s : State) (m : Master) : (s.putMaster m).draws = s.draws := rfl

/-! a stand-alone ring -/

@[simp] theorem State.putRing_cfg (s : State) (r : Standalone) : (s.putRing r).cfg = s.cfg := rfl
@[simp] theorem State.putRing_slaves (s : State) (r : Standalone) : (s.putRing r).slaves = s.slaves := rfl
@[simp] theorem State.putRing_masters (s : State) (r : Standalone) : (s.putRing r).masters = s.masters := rfl
@[simp] theorem State.putRing_rings (s : State) (r : Standalone) : (s.putRing r).rings = modifyRing s.rings r.q (fun _ => r) := rfl
@[simp] theorem State.putRing_bus (s : State) (r : Standalone) : (s.putRing r).bus = s.bus := rfl
@[simp] theorem State.putRing_outside (s : State) (r : Standalone) : (s.putRing r).outside = s.outside := rfl
@[simp] theorem State.putRing_ctx (s : State) (r : Standalone) : (s.putRing r).ctx = s.ctx := rfl
@[simp] theorem State.putRing_sched (s : State) (r : Standalone) : (s.putRing r).sched = s.sched := rfl
@[simp] theorem State.putRing_scripts (s : State) (r : Standalone) : (s.putRing r).scripts = s.scripts := rfl
@[simp] theorem State.putRing_draws (s : State) (r : Standalone) : (s.putRing r).draws = s.draws := rfl

/-! the transaction registers -/

@[simp] theorem Master.setCall_call (m : Master) (c : Call) : (m.setCall c).call = some c := rfl
@[simp] theorem Master.setCall_op (m : Master) (c : Call) : (m.setCall c).op = m.op := rfl
@[simp] theorem Master.setCall_complete (m : Master) (c : Call) : (m.setCall c).complete = m.complete := rfl
@[simp] theorem Master.setCall_mhStatus (m : Master) (c : Call) : (m.setCall c).mhStatus = m.mhStatus := rfl
@[simp] theorem Master.setCall_mhData (m : Master) (c : Call) : (m.setCall c).mhData = m.mhData := rfl
@[simp] theorem Master.setCall_trace (m : Master) (c : Call) : (m.setCall c).trace = m.trace := rfl
@[simp] theorem Master.setCall_mem (m : Master) (c : Call) : (m.setCall c).mem = m.mem := rfl
@[simp] theorem Master.setCall_status (m : Master) (c : Call) : (m.setCall c).status = m.status := rfl
@[simp] theorem Master.setCall_results (m : Master) (c : Call) : (m.setCall c).results = m.results := rfl

/-! return rc -/

@[simp] theorem Master.returnCall_call (m : Master) (rc : Rc) : (m.returnCall rc).call = none := rfl
@[simp] theorem Master.returnCall_op (m : Master) (rc : Rc) : (m.returnCall rc).op = m.op := rfl
@[simp] theorem Master.returnCall_complete (m : Master) (rc : Rc) : (m.returnCall rc).complete = m.complete := rfl
@[simp] theorem Master.returnCall_mhStatus (m : Master) (rc : Rc) : (m.returnCall rc).mhStatus = m.mhStatus := rfl
@[simp] theorem Master.returnCall_mhData (m : Master) (rc : Rc) : (m.returnCall rc).mhData = m.mhData := rfl
@[simp] theorem Master.returnCall_trace (m : Master) (rc : Rc) : (m.returnCall rc).trace = m.trace := rfl
@[simp] theorem Master.returnCall_mem (m : Master) (rc : Rc) : (m.returnCall rc).mem = m.mem := rfl
@[simp] theorem Master.returnCall_status (m : Master) (rc : Rc) : (m.returnCall rc).status = m.status := rfl
@[simp] theorem Master.returnCall_results (m : Master) (rc : Rc) : (m.returnCall rc).results = m.results ++ [.code rc] := rfl

/-! a master action taken over by the wire -/

@[simp] theorem State.carryAct_cfg (s : State) (a : MAct) : (s.carryAct a).cfg = s.cfg := rfl
@[simp] theorem State.carryAct_slaves (s : State) (a : MAct) : (s.carryAct a).slaves = s.slaves := rfl
@[simp] theorem State.carryAct_masters (s : State) (a : MAct) : (s.carryAct a).masters = s.masters := rfl
@[simp] theorem State.carryAct_rings (s : State) (a : MAct) : (s.carryAct a).rings = s.rings := rfl
@[simp] theorem State.carryAct_bus (s : State) (a : MAct) : (s.carryAct a).bus = if s.cfg.env = .wire s.ctx.node then s.bus.carry a else s.bus := rfl
@[simp] theorem State.carryAct_outside (s : State) (a : MAct) : (s.carryAct a).outside = s.outside := rfl
@[simp] theorem State.carryAct_ctx (s : State) (a : MAct) : (s.carryAct a).ctx = s.ctx := rfl
@[simp] theorem State.carryAct_sched (s : State) (a : MAct) : (s.carryAct a).sched = s.sched := rfl
@[simp] theorem State.carryAct_scripts (s : State) (a : MAct) : (s.carryAct a).scripts = s.scripts := rfl
@[simp] theorem State.carryAct_draws (s : State) (a : MAct) : (s.carryAct a).draws = s.draws := rfl

/-! a bit slot -/

@[simp] theorem State.wireBit_cfg (s : State) (b : Bool) : (s.wireBit b).cfg = s.cfg := rfl
@[simp] theorem State.wireBit_slaves (s : State) (b : Bool) : (s.wireBit b).slaves = s.slaves.map (Slave.busSlot (slotValue b s.slaves)) := rfl
@[simp] theorem State.wireBit_masters (s : State) (b : Bool) : (s.wireBit b).masters = s.masters := rfl
@[simp] theorem State.wireBit_rings (s : State) (b : Bool) : (s.wireBit b).rings = s.rings := rfl
@[simp] theorem State.wireBit_bus (s : State) (b : Bool) : (s.wireBit b).bus = { s.bus with line := slotValue b s.slaves } := rfl
@[simp] theorem State.wireBit_outside (s : State) (b : Bool) : (s.wireBit b).outside = s.outside := rfl
@[simp] theorem State.wireBit_ctx (s : State) (b : Bool) : (s.wireBit b).ctx = s.ctx := rfl
@[simp] theorem State.wireBit_sched (s : State) (b : Bool) : (s.wireBit b).sched = s.sched := rfl
@[simp] theorem State.wireBit_scripts (s : State) (b : Bool) : (s.wireBit b).scripts = s.scripts := rfl
@[simp] theorem State.wireBit_draws (s : State) (b : Bool) : (s.wireBit b).draws = s.draws := rfl

/-! The fields no master HAL action touches (R176-R183) -/

@[simp] theorem Master.hal_call (m : Master) (a : MAct) : (m.hal a).call = m.call := by cases a <;> rfl
@[simp] theorem Master.hal_mhStatus (m : Master) (a : MAct) : (m.hal a).mhStatus = m.mhStatus := by cases a <;> rfl
@[simp] theorem Master.hal_mhData (m : Master) (a : MAct) : (m.hal a).mhData = m.mhData := by cases a <;> rfl
@[simp] theorem Master.hal_mem (m : Master) (a : MAct) : (m.hal a).mem = m.mem := by cases a <;> rfl
@[simp] theorem Master.hal_status (m : Master) (a : MAct) : (m.hal a).status = m.status := by cases a <;> rfl
@[simp] theorem Master.hal_results (m : Master) (a : MAct) : (m.hal a).results = m.results := by cases a <;> rfl
@[simp] theorem Master.hal_trace (m : Master) (a : MAct) : (m.hal a).trace = m.trace ++ [a] := by cases a <;> rfl

/-! Raising and refusing touch `faults` and `refused` alone (R332, R333) -/

@[simp] theorem State.mapStatus_cfg (s : State) (k : Inst) (f : Status → Status) : (s.mapStatus k f).cfg = s.cfg := by cases k <;> rfl
@[simp] theorem State.mapStatus_bus (s : State) (k : Inst) (f : Status → Status) : (s.mapStatus k f).bus = s.bus := by cases k <;> rfl
@[simp] theorem State.mapStatus_ctx (s : State) (k : Inst) (f : Status → Status) : (s.mapStatus k f).ctx = s.ctx := by cases k <;> rfl
@[simp] theorem State.mapStatus_sched (s : State) (k : Inst) (f : Status → Status) : (s.mapStatus k f).sched = s.sched := by cases k <;> rfl
@[simp] theorem State.mapStatus_scripts (s : State) (k : Inst) (f : Status → Status) : (s.mapStatus k f).scripts = s.scripts := by cases k <;> rfl
@[simp] theorem State.mapStatus_draws (s : State) (k : Inst) (f : Status → Status) : (s.mapStatus k f).draws = s.draws := by cases k <;> rfl

/-! faults and refused of a master -/

@[simp] theorem Master.mapStatus_call (m : Master) (f : Status → Status) : (m.mapStatus f).call = m.call := rfl
@[simp] theorem Master.mapStatus_op (m : Master) (f : Status → Status) : (m.mapStatus f).op = m.op := rfl
@[simp] theorem Master.mapStatus_complete (m : Master) (f : Status → Status) : (m.mapStatus f).complete = m.complete := rfl
@[simp] theorem Master.mapStatus_mhStatus (m : Master) (f : Status → Status) : (m.mapStatus f).mhStatus = m.mhStatus := rfl
@[simp] theorem Master.mapStatus_mhData (m : Master) (f : Status → Status) : (m.mapStatus f).mhData = m.mhData := rfl
@[simp] theorem Master.mapStatus_trace (m : Master) (f : Status → Status) : (m.mapStatus f).trace = m.trace := rfl
@[simp] theorem Master.mapStatus_mem (m : Master) (f : Status → Status) : (m.mapStatus f).mem = m.mem := rfl
@[simp] theorem Master.mapStatus_status (m : Master) (f : Status → Status) : (m.mapStatus f).status = f m.status := rfl
@[simp] theorem Master.mapStatus_results (m : Master) (f : Status → Status) : (m.mapStatus f).results = m.results := rfl

/-! A step of a call, on the state: the fields it changes, and those it leaves -/

@[simp] theorem State.callStep_cfg (s : State) (a : MAct) (c : Call) (m : Master) : (s.callStep a c m).cfg = s.cfg := rfl
@[simp] theorem State.callStep_slaves (s : State) (a : MAct) (c : Call) (m : Master) : (s.callStep a c m).slaves = s.slaves := rfl
@[simp] theorem State.callStep_masters (s : State) (a : MAct) (c : Call) (m : Master) : (s.callStep a c m).masters = s.masters.set s.ctx.node (some { m.callStep s.cfg a c with mem := c.memAfter s.draws a m }) := rfl
@[simp] theorem State.callStep_rings (s : State) (a : MAct) (c : Call) (m : Master) : (s.callStep a c m).rings = s.rings := rfl
@[simp] theorem State.callStep_bus (s : State) (a : MAct) (c : Call) (m : Master) : (s.callStep a c m).bus = (s.carryAct a).bus := rfl
@[simp] theorem State.callStep_outside (s : State) (a : MAct) (c : Call) (m : Master) : (s.callStep a c m).outside = s.outside := rfl
@[simp] theorem State.callStep_ctx (s : State) (a : MAct) (c : Call) (m : Master) : (s.callStep a c m).ctx = s.ctx := rfl
@[simp] theorem State.callStep_sched (s : State) (a : MAct) (c : Call) (m : Master) : (s.callStep a c m).sched = s.sched := rfl
@[simp] theorem State.callStep_scripts (s : State) (a : MAct) (c : Call) (m : Master) : (s.callStep a c m).scripts = s.scripts := rfl
@[simp] theorem State.callStep_draws (s : State) (a : MAct) (c : Call) (m : Master) : (s.callStep a c m).draws = s.draws + c.drawn a := rfl

end Sys2Proof.Machine
end

