-- ==== Sys2Proof/Laws/Ring.lean ====
section
/-! SUPPORT. The ring operations (40_ringbuffer.md): what a push and a pop can do, said once, and that
each keeps the ring's registers legal. -/

namespace Sys2Proof.Machine

variable {α : Type}

theorem Ring.isEmpty_iff {r : Ring α} : r.isEmpty = true ↔ r.read = r.write := by
  simp [Ring.isEmpty]

theorem Ring.isFull_iff {r : Ring α} : r.isFull = true ↔ (r.write + 1) % r.n = r.read := by
  simp [Ring.isFull]

theorem Ring.hasData_eq_not_isEmpty (r : Ring α) : r.hasData = !r.isEmpty := rfl

/-- A push on a full ring fails and changes nothing (R143). -/
theorem Ring.push_of_full {r : Ring α} (h : r.isFull = true) (x : α) : r.push x = (false, r) := by
  simp [Ring.push, h]

/-- A push on a ring with room stores the element and advances the write index (R143). -/
theorem Ring.push_of_room {r : Ring α} (h : r.isFull = false) (x : α) :
    r.push x =
      (true, { r with storage := r.storage.set r.write x, write := (r.write + 1) % r.n }) := by
  simp [Ring.push, h]

/-- A pop of an empty ring has no value and changes nothing (R144). -/
theorem Ring.pop_of_empty {r : Ring α} (h : r.isEmpty = true) : r.pop = (none, r) := by
  simp [Ring.pop, h]

/-- A pop of a ring with data loads the oldest slot and advances the read index (R144). -/
theorem Ring.pop_of_data {r : Ring α} (h : r.isEmpty = false) :
    r.pop = (r.storage[r.read]?, { r with read := (r.read + 1) % r.n }) := by
  simp [Ring.pop, h]

@[simp] theorem Ring.push_n (r : Ring α) (x : α) : (r.push x).2.n = r.n := by
  unfold Ring.push; split <;> rfl

@[simp] theorem Ring.push_read (r : Ring α) (x : α) : (r.push x).2.read = r.read := by
  unfold Ring.push; split <;> rfl

@[simp] theorem Ring.pop_n (r : Ring α) : r.pop.2.n = r.n := by
  unfold Ring.pop; split <;> rfl

@[simp] theorem Ring.pop_write (r : Ring α) : r.pop.2.write = r.write := by
  unfold Ring.pop; split <;> rfl

@[simp] theorem Ring.pop_storage (r : Ring α) : r.pop.2.storage = r.storage := by
  unfold Ring.pop; split <;> rfl

theorem Ring.wf_push {ib : Nat} {r : Ring α} (h : r.wf ib) (x : α) : (r.push x).2.wf ib := by
  unfold Ring.push
  split
  · exact h
  · obtain ⟨h1, h2, h3, h4, h5⟩ := h
    exact ⟨h1, h2, h3, Nat.mod_lt _ h1, by simpa using h5⟩

theorem Ring.wf_pop {ib : Nat} {r : Ring α} (h : r.wf ib) : r.pop.2.wf ib := by
  unfold Ring.pop
  split
  · exact h
  · obtain ⟨h1, h2, h3, h4, h5⟩ := h
    exact ⟨h1, h2, Nat.mod_lt _ h1, h4, h5⟩

/-- In a legal ring the slot a pop reads exists. -/
theorem Ring.storage_read_isSome {ib : Nat} {r : Ring α} (h : r.wf ib) :
    (r.storage[r.read]?).isSome = true := by
  simp [List.getElem?_eq_getElem (h.2.2.2.2 ▸ h.2.2.1)]

/-- A created ring is legal where its capacity is admitted (R140). -/
theorem Ring.wf_created {ib : Nat} {l : List α} (h : ringConfigOk ib l.length = true) :
    (Ring.created l).wf ib := by
  simp only [ringConfigOk, Bool.and_eq_true, decide_eq_true_eq] at h
  exact ⟨h.1, h.2, h.1, h.1, rfl⟩

@[simp] theorem freeBytes_length (d n : Nat) : (freeBytes d n).length = n := by simp [freeBytes]

@[simp] theorem freeElems_length (d n : Nat) : (freeElems d n).length = n := by simp [freeElems]

end Sys2Proof.Machine
end

