-- ==== Sys2Proof/Laws/Admit.lean ====
section
/-! SUPPORT. Admission (60_exceptions.md R333, R334, R340): everything it can do, and when it runs the
operation. -/

namespace Sys2Proof.Machine

theorem Status.quiescent_clean : Status.clean.quiescent = false := rfl

theorem Status.quiescent_eq_false {st : Status} : st.quiescent = false ↔ st = Status.clean := by
  obtain ⟨f, r⟩ := st
  cases f <;> cases r <;> simp [Status.quiescent, Status.clean]

/-- What admission can answer: the operation's own outcome, a recorded refusal, or a stop. -/
theorem State.admit_cases (s : State) (i : Instr) (run : Out) :
    (s.failedCheck i = none ∧ s.admitted i run = run) ∨
    (∃ c, s.failedCheck i = some c ∧ s.admitted i run = .next (s.refuse (s.instOf i) c.reason)) ∨
    (∃ f, s.admitted i run = .fault f) := by
  unfold State.admitted
  split
  · exact .inr (.inr ⟨_, rfl⟩)
  · split
    · exact .inr (.inr ⟨_, rfl⟩)
    · split
      · next h => exact .inr (.inl ⟨_, h, rfl⟩)
      · next h => exact .inl ⟨h, rfl⟩

/-- If admission answers a next state, it is the operation's own or that of a refusal. -/
theorem State.admit_next {s t : State} {i : Instr} {run : Out} (h : s.admitted i run = .next t) :
    (s.failedCheck i = none ∧ run = .next t) ∨
    (∃ c, s.failedCheck i = some c ∧ t = s.refuse (s.instOf i) c.reason) := by
  rcases s.admit_cases i run with ⟨h1, h2⟩ | ⟨c, h1, h2⟩ | ⟨f, h2⟩
  · exact .inl ⟨h1, h2 ▸ h⟩
  · rw [h2] at h; exact .inr ⟨c, h1, by injection h with h; exact h.symm⟩
  · rw [h2] at h; cases h

/-- An operation runs when what it is charged to is not quiescent, its issuer is not stalled, and it passes
every check. -/
theorem State.admit_run {s : State} {i : Instr} (run : Out)
    (h2 : (s.statusOf (s.instOf i)).any Status.quiescent = false) (h3 : s.stall = none)
    (h4 : s.failedCheck i = none) : s.admitted i run = run := by
  simp [State.admitted, h2, h3, h4]

/-- Charged to a clean record and issued by an agent that is not stalled, an operation is refused or runs. -/
theorem State.admit_clean {s : State} {i : Instr} (run : Out)
    (h : s.statusOf (s.instOf i) = some Status.clean) (hs : s.stall = none) :
    (∃ t, s.admitted i run = .next t) ∨ s.failedCheck i = none ∧ s.admitted i run = run := by
  have hq : (s.statusOf (s.instOf i)).any Status.quiescent = false := by rw [h]; rfl
  cases hc : s.failedCheck i with
  | some c => exact .inl ⟨_, by simp [State.admitted, hq, hs, hc]; rfl⟩
  | none => exact .inr ⟨rfl, s.admit_run run hq hs hc⟩

/-- An operation charged to a quiescent instance has no step (R334). -/
theorem State.admit_quiescent {s : State} {i : Instr} (run : Out)
    (h : (s.statusOf (s.instOf i)).any Status.quiescent = true) :
    s.admitted i run = .fault .quiescent := by
  simp [State.admitted, h]

/-- An operation of a stalled issuer has no step (R47, R343). -/
theorem State.admit_stalled {s : State} {i : Instr} {f : Fault} (run : Out)
    (h2 : (s.statusOf (s.instOf i)).any Status.quiescent = false)
    (h3 : s.stall = some f) : s.admitted i run = .fault f := by
  simp [State.admitted, h2, h3]

/-- An operation that fails a check is refused and never executed (R119). -/
theorem State.admit_refused {s : State} {i : Instr} {c : WfCheck} (run : Out)
    (h2 : (s.statusOf (s.instOf i)).any Status.quiescent = false) (h3 : s.stall = none)
    (h4 : s.failedCheck i = some c) :
    s.admitted i run = .next (s.refuse (s.instOf i) c.reason) := by
  simp [State.admitted, h2, h3, h4]

theorem State.onNode_of {s : State} {n : Slave} (h : s.node? = some n) (k : Slave → Out) :
    s.onNode k = k n := by simp [State.onNode, h]

theorem State.onMaster_of {s : State} {m : Master} (h : s.master? = some m) (k : Master → Out) :
    s.onMaster k = k m := by simp [State.onMaster, h]

theorem State.onRing_of {s : State} {q : Nat} {r : Standalone} (h : s.ring? q = some r)
    (k : Standalone → Out) : s.onRing q k = k r := by simp [State.onRing, h]

/-- What passing every check says (R119). -/
theorem State.failedCheck_none {s : State} {i : Instr} (h : s.failedCheck i = none) :
    i.shapeOk = true ∧ i.kOk = true ∧ s.ringOk i = true ∧ s.mayIssue i = true ∧
    i.cfgOk s.cfg.indexBits = true ∧ s.configOk (s.instOf i) = true ∧ i.bufOk = true := by
  unfold State.failedCheck at h
  split at h
  · cases h
  · split at h
    · cases h
    · split at h
      · cases h
      · split at h
        · cases h
        · split at h
          · cases h
          · split at h
            · cases h
            · simp_all

theorem exists_of_any {α : Type} {o : Option α} {p : α → Bool} (h : o.any p = true) : ∃ x, o = some x := by
  cases o with
  | none => cases h
  | some x => exact ⟨x, rfl⟩

/-- The operations on the slave engine of the issuing node, the ring operations with q = 0 and 1 among
them. -/
def actsOnNode : Instr → Bool
  | .evStart | .evShift _ | .evOther | .initEngine _ | .sendChar _ | .charAvailable | .receiveChar | .sleep
  | .armShift _ | .setLineDriven _ | .readSr | .writeSr _ | .rearmStart => true
  | .rbInit q _ | .rbPush q _ | .rbPop q | .rbHasData q => decide (q < 2)
  | .mTransmit _ _ _ | .mReceive _ _ _ | .mhStart | .mhWrite _ | .mhReadAck | .mhReadNack | .mhStop | .mhPoll
  | .mhStatus | .mhReadData | .envMComplete _ _ | .masterAddrWrite _ | .masterAddrRead _ | .addrGeneralCall
  | .addrOwnWrite _ | .addrOwnRead _ | .addrNoMatch _ _ | .wireAck | .wireNack => false

/-- An operation on a slave engine that passes every check is issued on a node that holds one. -/
theorem State.node_of_check {s : State} {i : Instr} (hf : s.failedCheck i = none)
    (hi : actsOnNode i = true) : ∃ n, s.node? = some n := by
  obtain ⟨-, -, hr, hI, -⟩ := State.failedCheck_none hf
  cases i with
  | rbInit q _ =>
    rcases q with _ | _ | q <;> simp only [State.mayIssue, Bool.and_eq_true] at hI
    · exact exists_of_any hI.2
    · exact exists_of_any hI.2
    · simp [actsOnNode] at hi
  | rbPush q _ =>
    rcases q with _ | _ | q
    · exact exists_of_any (p := (·.rxCreated)) hr
    · exact exists_of_any (p := (·.txCreated)) hr
    · simp [actsOnNode] at hi
  | rbPop q =>
    rcases q with _ | _ | q
    · exact exists_of_any (p := (·.rxCreated)) hr
    · exact exists_of_any (p := (·.txCreated)) hr
    · simp [actsOnNode] at hi
  | rbHasData q =>
    rcases q with _ | _ | q
    · exact exists_of_any (p := (·.rxCreated)) hr
    · exact exists_of_any (p := (·.txCreated)) hr
    · simp [actsOnNode] at hi
  | _ =>
    first
      | exact absurd hi Bool.false_ne_true
      | (simp only [State.mayIssue, State.onSlave, State.mayDriveHal, Bool.and_eq_true] at hI
         first | exact exists_of_any hI.2 | exact exists_of_any hI.1.2)

/-- A ring operation with another q that passes every check is issued on a stand-alone ring that exists. -/
theorem State.ring_of_check {s : State} {i : Instr} {q : Nat} (hf : s.failedCheck i = none)
    (hi : s.ringOk i = s.ringExists (q + 2)) : ∃ r, s.ring? (q + 2) = some r :=
  Option.isSome_iff_exists.1 (hi.symm.trans (State.failedCheck_none hf).2.2.1)

/-- What an operation on the node answers is what it answers of the engine there. -/
theorem State.onNode_next {s t : State} {i : Instr} {k : Slave → Out} (hf : s.failedCheck i = none)
    (hi : actsOnNode i = true) (h : s.onNode k = .next t) : ∃ n, s.node? = some n ∧ k n = .next t := by
  obtain ⟨n, hn⟩ := State.node_of_check hf hi
  exact ⟨n, hn, State.onNode_of hn k ▸ h⟩

/-- The same of a stand-alone ring. -/
theorem State.onRing_next {s t : State} {i : Instr} {q : Nat} {k : Standalone → Out}
    (hf : s.failedCheck i = none) (hi : s.ringOk i = s.ringExists (q + 2))
    (h : s.onRing (q + 2) k = .next t) : ∃ r, s.ring? (q + 2) = some r ∧ k r = .next t := by
  obtain ⟨r, hr⟩ := State.ring_of_check hf hi
  exact ⟨r, hr, State.onRing_of hr k ▸ h⟩

/-- An operation of another agent than R340 names, where the checks before that one pass. -/
theorem State.failedCheck_agent {s : State} {i : Instr} (h1 : i.shapeOk = true) (h2 : i.kOk = true)
    (h3 : s.ringOk i = true) (h4 : s.mayIssue i = false) : s.failedCheck i = some .agent := by
  simp [State.failedCheck, h1, h2, h3, h4]

/-! ### What an operation is charged to (log 13) -/

theorem State.slaveInst_of {s : State} {n : Slave} (h : s.node? = some n) :
    s.slaveInst = .slave s.ctx.node := by simp [State.slaveInst, h]

theorem State.slaveInst_none {s : State} (h : s.node? = none) : s.slaveInst = .outside ⟨s.ctx, none⟩ := by
  simp [State.slaveInst, h]

theorem State.masterInst_of {s : State} {m : Master} (h : s.master? = some m) :
    s.masterInst = .master s.ctx.node := by simp [State.masterInst, h]

theorem State.masterInst_none {s : State} (h : s.master? = none) : s.masterInst = .outside ⟨s.ctx, none⟩ := by
  simp [State.masterInst, h]

theorem State.ringInst_of {s : State} {q : Nat} {r : Standalone} (h : s.ring? q = some r) :
    s.ringInst q = .ring q := by simp [State.ringInst, h]

/-- An agent of the node's slave engine is charged there, whatever it issues. -/
theorem State.instOf_slave {s : State} {n : Slave} (i : Instr) (h : s.node? = some n)
    (ha : s.ctx.agent = .isr ∨ s.ctx.agent = .slaveFg ∨ s.ctx.agent = .tester) :
    s.instOf i = .slave s.ctx.node := by
  rcases ha with ha | ha | ha <;> simp [State.instOf, State.issuerInst, ha, State.slaveInst_of h]

/-- An agent of the node's master engine is charged there, whatever it issues. -/
theorem State.instOf_master {s : State} {m : Master} (i : Instr) (h : s.master? = some m)
    (ha : s.ctx.agent = .masterFg ∨ s.ctx.agent = .masterEngine) : s.instOf i = .master s.ctx.node := by
  rcases ha with ha | ha <;> simp [State.instOf, State.issuerInst, ha, State.masterInst_of h]

/-- A stand-alone ring's producer or consumer is charged there, whatever it issues. -/
theorem State.instOf_ring {s : State} {q : Nat} {r : Standalone} (i : Instr) (h : s.ring? q = some r)
    (ha : s.ctx.agent = .ringProducer q ∨ s.ctx.agent = .ringConsumer q) : s.instOf i = .ring q := by
  rcases ha with ha | ha <;> simp [State.instOf, State.issuerInst, ha, State.ringInst_of h]

/-- The environment, the wire and the creation are charged where they act. -/
theorem State.instOf_target {s : State} (i : Instr)
    (ha : s.ctx.agent = .env ∨ s.ctx.agent = .wire ∨ s.ctx.agent = .creator) :
    s.instOf i = s.targetInst i := by
  rcases ha with ha | ha | ha <;> simp [State.instOf, State.issuerInst, ha]

/-- What an operation or a word can be charged to: an engine the node holds, a ring that exists, or the
issuer's own record. -/
inductive Charged (s : State) : Inst → Prop where
  | slave (n : Slave) : s.node? = some n → Charged s (.slave s.ctx.node)
  | master (m : Master) : s.master? = some m → Charged s (.master s.ctx.node)
  | ring (q : Nat) (r : Standalone) : s.ring? q = some r →
      s.ctx.agent = .ringProducer q ∨ s.ctx.agent = .ringConsumer q → Charged s (.ring q)
  | outside (q : Option Nat) : Charged s (.outside ⟨s.ctx, q⟩)

theorem Charged.slaveInst (s : State) : Charged s s.slaveInst := by
  cases h : s.node? with
  | none => rw [State.slaveInst_none h]; exact .outside _
  | some n => rw [State.slaveInst_of h]; exact .slave n h

theorem Charged.masterInst (s : State) : Charged s s.masterInst := by
  cases h : s.master? with
  | none => rw [State.masterInst_none h]; exact .outside _
  | some m => rw [State.masterInst_of h]; exact .master m h

theorem Charged.issuerInst {s : State} {k : Inst} (h : s.issuerInst = some k) : Charged s k := by
  have ring : ∀ q, s.ctx.agent = .ringProducer q ∨ s.ctx.agent = .ringConsumer q →
      Charged s (s.ringInst q) := fun q ha => by
    cases hr : s.ring? q with
    | none => simp only [State.ringInst, hr]; exact .outside _
    | some r => rw [State.ringInst_of hr]; exact .ring q r hr ha
  unfold State.issuerInst at h
  split at h <;> cases h
  · exact .slaveInst s
  · exact .slaveInst s
  · exact .slaveInst s
  · exact .masterInst s
  · exact .masterInst s
  · next q ha => exact ring q (.inl ha)
  · next q ha => exact ring q (.inr ha)

theorem Charged.instOf (s : State) (i : Instr) : Charged s (s.instOf i) := by
  unfold State.instOf
  cases h : s.issuerInst with
  | some k => exact .issuerInst h
  | none =>
    simp only [Option.getD_none, State.targetInst]
    split <;> first
      | exact .slaveInst s
      | exact .masterInst s
      | exact .outside _
      | (split <;> first | exact .slaveInst s | exact .outside _)

theorem Charged.instOfWord (s : State) (fmt : Format) (word : Byte) :
    Charged s (s.instOfWord fmt word) := by
  unfold State.instOfWord
  cases h : s.issuerInst with
  | some k => exact .issuerInst h
  | none =>
    simp only [Option.getD_none]
    split
    · split
      · exact .masterInst s
      · exact .slaveInst s
    · exact .masterInst s
    · exact .outside _

/-- There is always a record to charge. -/
theorem Charged.statusOf {s : State} {k : Inst} (h : Charged s k) : ∃ st, s.statusOf k = some st := by
  cases h with
  | slave n h => exact ⟨n.status, by simp only [State.node?] at h; simp [State.statusOf, h]⟩
  | master m h => exact ⟨m.status, by simp only [State.master?] at h; simp [State.statusOf, h]⟩
  | ring q r h _ => exact ⟨r.status, by simp [State.statusOf, h]⟩
  | outside q => exact ⟨_, rfl⟩

/-- What an operation that R340 lets through acts on: an engine of the issuing node, or the stand-alone ring
its issuer is an agent of. -/
def State.actsOn (s : State) (i : Instr) : Inst :=
  match i with
  | .rbPush (q + 2) _ | .rbPop (q + 2) | .rbHasData (q + 2) => s.ringInst (q + 2)
  | i => s.targetInst i

/-- A master engine has no ring, so no capacity to check (R119). -/
theorem State.configOk_masterInst (s : State) : s.configOk s.masterInst = true := by
  unfold State.masterInst
  split <;> rfl

/-- An operation that R340 lets through is charged to what it acts on (log 13). -/
theorem State.instOf_of_mayIssue {s : State} {i : Instr} (h : s.mayIssue i = true) :
    s.instOf i = s.actsOn i := by
  cases i with
  | rbInit q _ =>
    rcases q with _ | _ | q <;> simp_all [State.mayIssue, State.instOf, State.issuerInst, State.actsOn]
  | rbPush q _ =>
    rcases q with _ | _ | q <;>
      simp_all [State.mayIssue, State.instOf, State.issuerInst, State.actsOn, State.targetInst]
  | rbPop q =>
    rcases q with _ | _ | q <;>
      simp_all [State.mayIssue, State.instOf, State.issuerInst, State.actsOn, State.targetInst]
  | rbHasData q =>
    rcases q with _ | _ | q <;>
      simp_all [State.mayIssue, State.instOf, State.issuerInst, State.actsOn, State.targetInst]
  | envMComplete st d =>
    simp only [State.mayIssue] at h
    split at h <;> simp_all [State.instOf, State.issuerInst, State.actsOn]
  | _ =>
    simp_all [State.mayIssue, State.onSlave, State.mayAct, State.mayAddress, State.mayDriveHal,
      State.instOf, State.issuerInst, State.actsOn, State.targetInst]

/-- An operation that R340 lets through and that acts on a slave engine, on a node that holds one. -/
theorem State.instOf_node {s : State} {i : Instr} {n : Slave} (h : s.mayIssue i = true)
    (hn : s.node? = some n) (hi : s.actsOn i = s.slaveInst) : s.instOf i = .slave s.ctx.node := by
  rw [State.instOf_of_mayIssue h, hi, State.slaveInst_of hn]

/-- An operation that R340 lets through and that acts on a master, on a node that holds one. -/
theorem State.instOf_master? {s : State} {i : Instr} {m : Master} (h : s.mayIssue i = true)
    (hm : s.master? = some m) (hi : s.actsOn i = s.masterInst) : s.instOf i = .master s.ctx.node := by
  rw [State.instOf_of_mayIssue h, hi, State.masterInst_of hm]

/-- An operation that passes every check (R119). -/
theorem State.failedCheck_eq_none {s : State} {i : Instr} (h1 : i.shapeOk = true) (h2 : i.kOk = true)
    (h3 : s.ringOk i = true) (h4 : s.mayIssue i = true) (h5 : i.cfgOk s.cfg.indexBits = true)
    (h6 : s.configOk (s.actsOn i) = true) (h7 : i.bufOk = true) : s.failedCheck i = none := by
  rw [← State.instOf_of_mayIssue h4] at h6
  simp [State.failedCheck, h1, h2, h3, h4, h5, h6, h7]

/-- The node an operation on the issuing node leaves behind. -/
theorem State.node?_putNode {s : State} {n m : Slave} (h : s.node? = some n) :
    (s.putNode m).node? = some m := by
  have hlt : s.ctx.node < s.slaves.length := by
    rw [State.node?] at h
    exact (List.getElem?_eq_some_iff.1 h).1
  simp [State.node?, hlt]

theorem State.masters_lt {s : State} {j : Nat} {m : Master} (h : s.masterAt j = some m) :
    s.masters[j]? = some (some m) ∧ j < s.masters.length := by
  unfold State.masterAt at h
  cases hj : s.masters[j]? with
  | none => simp [hj] at h
  | some o =>
    rw [hj] at h
    exact ⟨by rw [show o = some m from h], (List.getElem?_eq_some_iff.1 hj).1⟩

/-- The master an operation on the issuing node's master leaves behind. -/
theorem State.master?_putMaster {s : State} {m m' : Master} (h : s.master? = some m) :
    (s.putMaster m').master? = some m' := by
  have hlt := (State.masters_lt h).2
  simp [State.master?, State.masterAt, hlt]

end Sys2Proof.Machine
end

