-- ==== Sys2Proof/Laws/Memory.lean ====
section
/-! SUPPORT. The laws of the caller's byte memory: a read after a write, and the canonical form. -/

namespace Sys2Proof.Machine

@[simp] theorem Memory.read_nil (a : Nat) : Memory.read [] a = 0#8 := rfl

theorem Memory.read_cons (k : Nat) (w : Byte) (m : Memory) (a : Nat) :
    Memory.read ((k, w) :: m) a = if a = k then w else Memory.read m a := rfl

/-- An address below every listed one reads as an unlisted address does. -/
theorem Memory.read_of_lt {m : Memory} {a : Nat} (h : ∀ x ∈ m, a < x.1) : Memory.read m a = 0#8 := by
  induction m with
  | nil => rfl
  | cons x m ih =>
    obtain ⟨k, w⟩ := x
    have hk : a < k := h (k, w) (by simp)
    rw [Memory.read_cons, if_neg (by omega)]
    exact ih fun x hx => h x (by simp [hx])

theorem Memory.wf_tail {x : Host.Cell} {m : Memory} (h : Memory.wf (x :: m)) : Memory.wf m :=
  ⟨(List.pairwise_cons.1 h.1).2, fun y hy => h.2 y (by simp [hy])⟩

theorem Memory.lt_of_wf_cons {x : Host.Cell} {m : Memory} (h : Memory.wf (x :: m)) :
    ∀ y ∈ m, x.1 < y.1 := (List.pairwise_cons.1 h.1).1

theorem Memory.read_consCell (k : Nat) (v : Byte) (m : Memory) (a : Nat)
    (h : ∀ x ∈ m, k < x.1) :
    Memory.read (Memory.consCell k v m) a = if a = k then v else Memory.read m a := by
  unfold Memory.consCell
  split
  · next hv =>
    split
    · next ha => rw [ha, hv]; exact Memory.read_of_lt h
    · rfl
  · rw [Memory.read_cons]

theorem Memory.wf_consCell {k : Nat} {v : Byte} {m : Memory} (hm : Memory.wf m)
    (h : ∀ x ∈ m, k < x.1) : Memory.wf (Memory.consCell k v m) := by
  unfold Memory.consCell
  split
  · exact hm
  · next hv =>
    refine ⟨List.pairwise_cons.2 ⟨h, hm.1⟩, fun x hx => ?_⟩
    rcases List.mem_cons.1 hx with rfl | hx
    · exact hv
    · exact hm.2 x hx

/-- Where the entries of a written memory come from. -/
theorem Memory.mem_write {m : Memory} {a : Nat} {v : Byte} {x : Host.Cell}
    (h : x ∈ Memory.write m a v) : x.1 = a ∨ x ∈ m := by
  induction m with
  | nil =>
    unfold Memory.write Memory.consCell at h
    split at h <;> simp_all
  | cons y m ih =>
    obtain ⟨k, w⟩ := y
    unfold Memory.write Memory.consCell at h
    split at h
    · split at h
      · exact .inr h
      · rcases List.mem_cons.1 h with rfl | h
        · exact .inl rfl
        · exact .inr h
    · split at h
      · split at h
        · exact .inr (by simp [h])
        · rcases List.mem_cons.1 h with rfl | h
          · exact .inl rfl
          · exact .inr (by simp [h])
      · rcases List.mem_cons.1 h with rfl | h
        · exact .inr (by simp)
        · rcases ih h with h | h
          · exact .inl h
          · exact .inr (by simp [h])

/-- MemWrite keeps the canonical form. -/
theorem Memory.wf_write {m : Memory} (hm : Memory.wf m) (a : Nat) (v : Byte) :
    Memory.wf (Memory.write m a v) := by
  induction m with
  | nil => exact Memory.wf_consCell hm (by simp)
  | cons y m ih =>
    obtain ⟨k, w⟩ := y
    have hlt := Memory.lt_of_wf_cons hm
    unfold Memory.write
    split
    · next h =>
      refine Memory.wf_consCell hm fun x hx => ?_
      rcases List.mem_cons.1 hx with rfl | hx
      · exact h
      · exact Nat.lt_trans h (hlt x hx)
    · split
      · next h => exact Memory.wf_consCell (Memory.wf_tail hm) fun x hx => h ▸ hlt x hx
      · next h1 h2 =>
        have ih := ih (Memory.wf_tail hm)
        refine ⟨List.pairwise_cons.2 ⟨fun x hx => ?_, ih.1⟩, fun x hx => ?_⟩
        · rcases Memory.mem_write hx with h | h
          · show k < x.1
            omega
          · exact hlt x h
        · rcases List.mem_cons.1 hx with rfl | hx
          · exact hm.2 (k, w) (by simp)
          · exact ih.2 x hx

/-- A read after a write, in a canonical memory. -/
theorem Memory.read_write {m : Memory} (hm : Memory.wf m) (a : Nat) (v : Byte) (b : Nat) :
    Memory.read (Memory.write m a v) b = if b = a then v else Memory.read m b := by
  induction m with
  | nil => exact Memory.read_consCell a v [] b (by simp)
  | cons y m ih =>
    obtain ⟨k, w⟩ := y
    have hlt := Memory.lt_of_wf_cons hm
    unfold Memory.write
    split
    · next h =>
      refine Memory.read_consCell a v _ b fun x hx => ?_
      rcases List.mem_cons.1 hx with rfl | hx
      · exact h
      · exact Nat.lt_trans h (hlt x hx)
    · split
      · next h =>
        rw [Memory.read_consCell a v m b fun x hx => h ▸ hlt x hx, Memory.read_cons]
        split
        · rfl
        · rw [if_neg (by omega)]
      · rw [Memory.read_cons, Memory.read_cons, ih (Memory.wf_tail hm)]
        split
        · rw [if_neg (by omega)]
        · rfl

/-- Opening `n` positions to free values keeps the canonical form. -/
theorem Memory.wf_fillFree {m : Memory} (hm : Memory.wf m) (d a n : Nat) :
    Memory.wf (m.fillFree d a n) := by
  induction n with
  | zero => exact hm
  | succ n ih => exact Memory.wf_write ih _ _

/-- Opening positions to free values changes no byte outside them. -/
theorem Memory.read_fillFree_of_outside {m : Memory} (hm : Memory.wf m) (d a n b : Nat)
    (h : b < a ∨ a + n ≤ b) : (m.fillFree d a n).read b = m.read b := by
  induction n with
  | zero => rfl
  | succ n ih =>
    show ((m.fillFree d a n).write (a + n) _).read b = _
    rw [Memory.read_write (Memory.wf_fillFree hm d a n), if_neg (by omega)]
    exact ih (by omega)

/-- Every caller's memory after reset is canonical. -/
theorem reset_mem_wf : ∀ m, some m ∈ State.reset.masters → m.mem.wf := by
  intro m hm
  obtain rfl : m = Master.created := by simpa [State.reset, State.created] using hm
  exact ⟨List.Pairwise.nil, fun x hx => by cases hx⟩

end Sys2Proof.Machine
end

