-- ==== Sys2Proof/Laws/Call.lean ====
section
/-! SUPPORT. The master's call (44_master.md R262-R264): everything its plan can be. -/

namespace Sys2Proof.Machine

/-- What `Call.dataAct` can be. -/
theorem Call.dataAct_cases (mem : Memory) (c : Call) :
    (∃ v, c.dataAct mem = .write v) ∨ c.dataAct mem = .readAck ∨ c.dataAct mem = .readNack := by
  unfold Call.dataAct
  split
  · split
    · exact .inr (.inl rfl)
    · exact .inr (.inr rfl)
  · exact .inl ⟨_, rfl⟩

/-- What a planned HAL action can be, and the registers its step starts from. -/
inductive Planned (mem : Memory) (c : Call) : MAct → Call → Prop where
  | start : c.pos = .begin → Planned mem c .start { c with phase := .waitStart }
  | poll : c.pos = .poll → Planned mem c .poll c
  | status : c.pos = .status → Planned mem c .status c
  | readData : c.pos = .readData ∨ c.pos = .good ∧ c.phase = .waitData ∧ c.rw = true →
      Planned mem c .readData c
  | address : c.pos = .good → c.phase = .waitStart →
      Planned mem c (.write (addrByte c.addr c.rw)) { c with phase := .waitAddr }
  | data (a : MAct) (ph : Phase) (j : Nat) : a = Call.dataAct mem { c with phase := ph, i := j } →
      ph = .waitData ∨ ph = c.phase ∧ c.pos = .stored → j < c.len → c.pos = .good ∨ c.pos = .stored →
      Planned mem c a { c with phase := ph, i := j }
  | stop (rc : Rc) (j : Nat) : c.pos = .fail rc ∧ j = c.i ∨ rc = 0 →
      Planned mem c .stop { c with phase := .finish, rc := rc, i := j }

theorem Planned.of_dataPhase {mem : Memory} {c c' : Call} {a : MAct} {ph : Phase} {j : Nat}
    (hph : ph = .waitData ∨ ph = c.phase ∧ c.pos = .stored) (hpos : c.pos = .good ∨ c.pos = .stored)
    (h : Call.dataPhase mem { c with phase := ph, i := j } = (a, c')) : Planned mem c a c' := by
  unfold Call.dataPhase at h
  split at h
  · next hj =>
    cases h
    exact .data _ ph j rfl hph hj hpos
  · cases h
    exact .stop 0 j (.inr rfl)

/-- Everything the call's rule can have next. -/
theorem Call.plan_cases {mem : Memory} {c c' : Call} {a : MAct} (h : c.plan mem = some (a, c')) :
    Planned mem c a c' := by
  unfold Call.plan at h
  split at h
  · next hp => cases h; exact .start hp
  · next hp => cases h; exact .poll hp
  · next hp => cases h; exact .status hp
  · next rc hp => cases h; exact .stop rc c.i (.inl ⟨hp, rfl⟩)
  · next hp => cases h; exact .readData (.inl hp)
  · next hp =>
    injection h with h
    exact .of_dataPhase (ph := c.phase) (j := c.i + 1) (.inr ⟨rfl, hp⟩) (.inr hp) h
  · next hp =>
    split at h
    · next hph => cases h; exact .address hp hph
    · injection h with h
      exact .of_dataPhase (ph := .waitData) (j := c.i) (.inl rfl) (.inl hp) h
    · next hph =>
      split at h
      · next hrw => cases h; exact .readData (.inr ⟨hp, hph, hrw⟩)
      · injection h with h
        refine .of_dataPhase (ph := .waitData) (j := c.i + 1) (.inl rfl) (.inl hp) ?_
        rw [← hph]; exact h
    · cases h
    · cases h

end Sys2Proof.Machine
end

