-- ==== Sys2Proof/Laws/Handlers.lean ====
section
/-! SUPPORT. The slave handlers (42_slave_engine.md): what each can do, said once. -/

namespace Sys2Proof.Machine

/-- The SendData logic with a byte to send (R203). -/
theorem Slave.sendDataLogic_of_some {n : Slave} {b : Byte} {tx : Ring Byte}
    (h : n.tx.pop = (some b, tx)) :
    n.sendDataLogic =
      { n with
        tx := tx, sr := b, driven := true, armed := 8, state := .requestAck
        trace := n.trace ++ [.writeSr b] ++ [.setLineDriven true] ++ [.armShift 8] } := by
  simp [Slave.sendDataLogic, h, Slave.goto, Slave.armShift, Slave.setLineDriven, Slave.writeSr,
    Slave.record]

/-- The SendData logic with nothing to send releases the bus (R203). -/
theorem Slave.sendDataLogic_of_none {n : Slave} {tx : Ring Byte} (h : n.tx.pop = (none, tx)) :
    n.sendDataLogic =
      { n with
        driven := false, armed := 0, state := .waitForStart, trace := n.trace ++ [.rearmStart] } := by
  simp [Slave.sendDataLogic, h, Slave.goto, Slave.rearmStart, Slave.record]

/-- What the SendData logic can do. -/
theorem Slave.sendDataLogic_cases (n : Slave) :
    (∃ b tx, n.tx.pop = (some b, tx) ∧
      n.sendDataLogic =
        { n with
          tx := tx, sr := b, driven := true, armed := 8, state := .requestAck
          trace := n.trace ++ [.writeSr b] ++ [.setLineDriven true] ++ [.armShift 8] }) ∨
    (∃ tx, n.tx.pop = (none, tx) ∧
      n.sendDataLogic =
        { n with
          driven := false, armed := 0, state := .waitForStart
          trace := n.trace ++ [.rearmStart] }) := by
  rcases hp : n.tx.pop with ⟨o, tx⟩
  cases o with
  | none => exact .inr ⟨tx, rfl, Slave.sendDataLogic_of_none hp⟩
  | some b => exact .inl ⟨b, tx, rfl, Slave.sendDataLogic_of_some hp⟩

/-- The address handler on a match (R205). -/
theorem Slave.onAddress_of_match {n : Slave} (h : n.sr = 0x00#8 ∨ n.sr >>> 1 = n.own.setWidth 8) :
    n.onAddress =
      { n with
        armed := 1, sr := 0x00, driven := true
        state := if n.sr.getLsbD 0 then .sendData else .sendAck
        trace := n.trace ++ [.readSr] ++ [.armShift 1] ++ [.writeSr 0x00] ++ [.setLineDriven true] } := by
  unfold Slave.onAddress
  exact if_pos h

/-- The address handler on a mismatch (R205). -/
theorem Slave.onAddress_of_mismatch {n : Slave}
    (h : ¬(n.sr = 0x00#8 ∨ n.sr >>> 1 = n.own.setWidth 8)) :
    n.onAddress =
      { n with
        armed := 0, driven := false, state := .waitForStart
        trace := n.trace ++ [.readSr] ++ [.rearmStart] } := by
  unfold Slave.onAddress
  exact if_neg h

/-- The data handler with room in rx (R207). -/
theorem Slave.onData_of_room {n : Slave} (h : n.rx.isFull = false) :
    n.onData =
      { n with
        rx := (n.rx.push n.sr).2, armed := 1, sr := 0x00, driven := true, state := .sendAck
        trace := n.trace ++ [.readSr] ++ [.armShift 1] ++ [.writeSr 0x00] ++ [.setLineDriven true] } := by
  unfold Slave.onData
  simp only [Slave.readSr_rx, Ring.push_of_room h]
  rfl

/-- The data handler with rx full: the byte is dropped and NACKed (R207). -/
theorem Slave.onData_of_full {n : Slave} (h : n.rx.isFull = true) :
    n.onData =
      { n with
        armed := 1, driven := false, state := .sendAck
        trace := n.trace ++ [.readSr] ++ [.setLineDriven false] ++ [.armShift 1] } := by
  unfold Slave.onData
  simp only [Slave.readSr_rx, Ring.push_of_full h]
  rfl

/-- No handler touches what only the foreground, a creation or a refusal writes. -/
structure Slave.SameOutside (m n : Slave) : Prop where
  own       : m.own = n.own
  enabled   : m.enabled = n.enabled
  sleeping  : m.sleeping = n.sleeping
  results   : m.results = n.results
  rxCreated : m.rxCreated = n.rxCreated
  txCreated : m.txCreated = n.txCreated

theorem Slave.SameOutside.refl (n : Slave) : Slave.SameOutside n n := ⟨rfl, rfl, rfl, rfl, rfl, rfl⟩

theorem Slave.sendDataLogic_sameOutside (n : Slave) : Slave.SameOutside n.sendDataLogic n := by
  rcases n.sendDataLogic_cases with ⟨b, tx, -, h⟩ | ⟨tx, -, h⟩ <;> rw [h] <;> exact ⟨rfl, rfl, rfl, rfl, rfl, rfl⟩

theorem Slave.shiftHandler_sameOutside (n : Slave) : Slave.SameOutside n.shiftHandler n := by
  unfold Slave.shiftHandler
  split
  · exact .refl n
  · unfold Slave.onAddress
    dsimp only
    split <;> exact ⟨rfl, rfl, rfl, rfl, rfl, rfl⟩
  · exact ⟨rfl, rfl, rfl, rfl, rfl, rfl⟩
  · unfold Slave.onData
    dsimp only
    split <;> exact ⟨rfl, rfl, rfl, rfl, rfl, rfl⟩
  · exact n.sendDataLogic_sameOutside
  · exact ⟨rfl, rfl, rfl, rfl, rfl, rfl⟩
  · unfold Slave.onWaitAck
    dsimp only
    split
    · exact ⟨rfl, rfl, rfl, rfl, rfl, rfl⟩
    · have := n.readSr.sendDataLogic_sameOutside
      exact ⟨this.own, this.enabled, this.sleeping, this.results, this.rxCreated, this.txCreated⟩
  · exact ⟨rfl, rfl, rfl, rfl, rfl, rfl⟩

end Sys2Proof.Machine
end

