-- ==== Sys2Proof/Laws/Exec.lean ====
section
/-! SUPPORT. What an operation and a step can do, said once: every next state of `exec` is one of
`ExecNext`, every next state of `step` one of `StepNext`. Proofs about every operation go by cases on
these and unfold no meaning. -/

namespace Sys2Proof.Machine

/-- What an operation that completes on a node can make of it. -/
inductive NodeChange (p : Params) (n : Slave) : Slave → Prop where
  | start : n.enabled = true → NodeChange p n n.evStart
  | shift (free w : Byte) : p.env.shifts = true → n.enabled = true → n.armed = 1 ∨ n.armed = 8 →
      NodeChange p n (n.evShift free w)
  | other : NodeChange p n n.evOther
  | init (a : Byte) : ownAddressOk a = true → NodeChange p n (n.initEngine (toAddr7 a))
  | result (r : Result) : NodeChange p n (n.addResult r)
  | pushRx (x : Byte) (r : Result) : n.enabled = true →
      NodeChange p n ({ n with rx := (n.rx.push x).2 }.addResult r)
  | pushTx (x : Byte) (r : Result) : NodeChange p n ({ n with tx := (n.tx.push x).2 }.addResult r)
  | popRx (r : Result) : NodeChange p n ({ n with rx := n.rx.pop.2 }.addResult r)
  | popTx (r : Result) : n.enabled = true → NodeChange p n ({ n with tx := n.tx.pop.2 }.addResult r)
  | sleep : NodeChange p n { n with sleeping := true }
  | createRx (l : List Byte) : n.rxCreated = false → ringConfigOk p.indexBits l.length = true →
      NodeChange p n { n with rx := Ring.created l, rxCreated := true }
  | createTx (l : List Byte) : n.txCreated = false → ringConfigOk p.indexBits l.length = true →
      NodeChange p n { n with tx := Ring.created l, txCreated := true }

/-- The slave HAL actions as operations of their own (R161-R165). -/
def isSlaveHal : Instr → Bool
  | .armShift _ | .setLineDriven _ | .readSr | .writeSr _ | .rearmStart => true
  | _ => false

/-- The wire rows a slave sees (R101, R105). -/
def isWireRow : Instr → Bool
  | .addrGeneralCall | .addrOwnWrite _ | .addrOwnRead _ | .addrNoMatch _ _ | .wireAck | .wireNack => true
  | _ => false

/-- What a slave HAL action issued on its own makes of the node (log 8). -/
inductive BareChange (n : Slave) : Slave → Prop where
  | armShift (k : Nat) : k = 1 ∨ k = 8 → BareChange n (n.armShift k)
  | setLineDriven (d : Bool) : BareChange n (n.setLineDriven d)
  | readSr (r : Result) : BareChange n (n.readSr.addResult r)
  | writeSr (v : Byte) : BareChange n (n.writeSr v)
  | rearmStart : BareChange n n.rearmStart

/-- What an operation that completes on a stand-alone ring makes of it. -/
inductive RingChange (r : Standalone) : Standalone → Prop where
  | push (x : Nat) (v : Result) : RingChange r ({ r with ring := (r.ring.push x).2 }.addResult v)
  | pop (v : Result) : RingChange r ({ r with ring := r.ring.pop.2 }.addResult v)
  | result (v : Result) : RingChange r (r.addResult v)

/-- The next states of `exec i s`. -/
inductive ExecNext (i : Instr) (s : State) : State → Prop where
  | refused (c : WfCheck) : s.failedCheck i = some c → ExecNext i s (s.refuse (s.instOf i) c.reason)
  | raised (c : FaultCode) : ExecNext i s (s.raiseFault (s.instOf i) c)
  | node (n m : Slave) (d : Nat) : s.instOf i = .slave s.ctx.node → s.node? = some n →
      NodeChange s.cfg n m → ExecNext i s { s.putNode m with draws := d }
  | bare (n m : Slave) : s.instOf i = .slave s.ctx.node → isSlaveHal i = true → s.node? = some n →
      s.cfg.env = .halBench → n.enabled = false → BareChange n m → ExecNext i s (s.putNode m)
  | ring (q : Nat) (r r' : Standalone) : s.instOf i = .ring q → s.ring? q = some r → RingChange r r' →
      ExecNext i s (s.putRing r')
  | newRing (q : Nat) (l : List Nat) (d : Nat) : s.instOf i = .outside ⟨s.ctx, some q⟩ → 2 ≤ q → s.ring? q = none →
      ringConfigOk s.cfg.indexBits l.length = true →
      ExecNext i s { s with rings := s.rings ++ [⟨q, Ring.created l, Status.clean, []⟩], draws := d }
  | wire (bits : List Bool) : isWireRow i = true → s.instOf i = .outside ⟨s.ctx, none⟩ → s.cfg.env = .bits →
      ExecNext i s (bits.foldl (fun s bit => s.wireBit bit) s)
  | begin_ (rw : Bool) (a : Byte) (buf : BufRef) (len : Nat) (m : Master) :
      s.instOf i = .master s.ctx.node → s.master? = some m → m.call = none →
      lengthOk s.cfg buf len = true → m.inFlight = false →
      ExecNext i s (s.callStep .start { Call.start rw a buf len with phase := .waitStart } m)
  | call (a : MAct) (c c' : Call) (m : Master) : s.instOf i = .master s.ctx.node →
      s.master? = some m → m.call = some c → c.plan m.mem = some (a, c') →
      (actIssues a = true → m.inFlight = false) →
      (a = .readData → i = .mhReadData) → (a = .stop → i = .mhStop) → ExecNext i s (s.callStep a c' m)
  | complete (st d : Byte) (m : Master) : s.instOf i = .master s.ctx.node → s.master? = some m →
      m.inFlight = true → ExecNext i s (s.putMaster (m.completeOp st d))

/-- Every operation is what admission makes of its own outcome. -/
theorem exec_admitted (i : Instr) (s : State) : ∃ run, exec i s = s.admitted i run := by
  cases i <;> exact ⟨_, rfl⟩

/-- Admission leaves a next state that is a refusal, or the operation's own with every check passed. -/
theorem ExecNext.of_admit {s t : State} {i : Instr} {run : Out} (h : s.admitted i run = .next t)
    (hrun : s.failedCheck i = none → run = .next t → ExecNext i s t) : ExecNext i s t := by
  rcases s.admit_next h with ⟨h1, h2⟩ | ⟨c, h1, rfl⟩
  · exact hrun h1 h2
  · exact .refused c h1

/-- What R340 has let through (R119). -/
theorem State.mayIssue_of_failedCheck {s : State} {i : Instr} (h : s.failedCheck i = none) :
    s.mayIssue i = true := (State.failedCheck_none h).2.2.2.1

theorem out_next {s t : State} (h : (Host.Outcome.next s : Out) = .next t) : s = t := by
  injection h

/-- When a call may be made (R267, R175). -/
theorem Master.free_iff {m : Master} : m.free = true ↔ m.call = none ∧ m.inFlight = false := by
  simp [Master.free]

/-- What lets a master HAL action through (R340, R175; log 8, log 18). -/
theorem State.mayAct_iff {s : State} {a : MAct} : s.mayAct a = true ↔
    s.ctx.agent = .masterEngine ∧ ∃ m, s.master? = some m ∧ (actIssues a = true → m.inFlight = false) ∧
      m.nextAct = some a := by
  unfold State.mayAct
  cases s.master? <;> simp [or_iff_not_imp_left]

/-- When a completion is admissible (R184; on the composed wire R308). -/
theorem State.completes_iff {s : State} {m : Master} : s.completes m = true ↔
    m.inFlight = true ∧ (s.cfg.env = .wire s.ctx.node → s.bus.pending = []) := by
  unfold State.completes
  by_cases h : s.cfg.env = .wire s.ctx.node <;> simp [h]

/-- On the composed wire a completion has the wire's values (R308). -/
theorem State.answer_wire {s : State} (h : s.cfg.env = .wire s.ctx.node) (m : Master) (st d : Byte) :
    s.answer m st d = s.bus.completion s.cfg m.op := if_pos h

/-- Elsewhere it has the environment's (R184). -/
theorem State.answer_env {s : State} (h : s.cfg.env ≠ .wire s.ctx.node) (m : Master) (st d : Byte) :
    s.answer m st d = (st, d) := if_neg h

/-- A master HAL action that R340 and R175 let through is a step of the call. -/
theorem ExecNext.of_masterIssue {s t : State} {i : Instr} {a : MAct}
    (hI : s.mayIssue i = true) (hi : s.actsOn i = s.masterInst) (hm : s.mayAct a = true)
    (hr : a = .readData → i = .mhReadData) (hs : a = .stop → i = .mhStop)
    (h : s.masterIssue a = .next t) : ExecNext i s t := by
  obtain ⟨-, m, hs', hf, hn⟩ := State.mayAct_iff.1 hm
  unfold State.masterIssue at h
  rw [State.onMaster_of hs'] at h
  cases hc : m.call with
  | none => simp [Master.nextAct, hc] at hn
  | some c =>
    simp only [Master.nextAct, hc, Option.bind_some] at hn h
    cases hp : c.plan m.mem with
    | none => simp [hp] at hn
    | some p =>
      obtain ⟨b, c'⟩ := p
      rw [hp] at hn h
      obtain rfl : b = a := by simpa using hn
      rw [← out_next h]
      exact .call b c c' m (State.instOf_master? hI hs' hi) hs' hc hp hf hr hs

theorem State.wireByte_eq (b : Byte) (s : State) :
    s.wireByte b = (bitsMsbFirst b).foldl (fun s bit => s.wireBit bit) s := rfl

theorem ExecNext.of_rbInit {s t : State} {q n : Nat} (h : execRbInit q n s = .next t) :
    ExecNext (.rbInit q n) s t := by
  refine .of_admit h fun hf h => ?_
  obtain ⟨-, -, -, hI, hc, -, -⟩ := State.failedCheck_none hf
  have hm := hI
  replace hc : ringConfigOk s.cfg.indexBits n = true := hc
  rcases q with _ | _ | k
  · obtain ⟨x, hx, h⟩ := State.onNode_next hf rfl h
    rw [← out_next h]
    simp only [State.mayIssue, Bool.and_eq_true, hx, Option.any_some, Bool.not_eq_true'] at hm
    exact .node x _ _ (State.instOf_node hI hx rfl) hx (.createRx _ hm.2 (by rw [freeBytes_length]; exact hc))
  · obtain ⟨x, hx, h⟩ := State.onNode_next hf rfl h
    rw [← out_next h]
    simp only [State.mayIssue, Bool.and_eq_true, hx, Option.any_some, Bool.not_eq_true'] at hm
    exact .node x _ _ (State.instOf_node hI hx rfl) hx (.createTx _ hm.2 (by rw [freeBytes_length]; exact hc))
  · simp only [State.mayIssue, Bool.and_eq_true, Option.isNone_iff_eq_none] at hm
    rw [← out_next h]
    refine .newRing _ _ _ ?_ (by omega) hm.2 (by rw [freeElems_length]; exact hc)
    rw [State.instOf_of_mayIssue hI]; simp [State.actsOn, State.targetInst]

theorem ExecNext.of_rbPush {s t : State} {q x : Nat} (h : execRbPush q x s = .next t) :
    ExecNext (.rbPush q x) s t := by
  refine .of_admit h fun hf h => ?_
  have hI := State.mayIssue_of_failedCheck hf
  have hm := hI
  rcases q with _ | _ | k
  · obtain ⟨n, hn, h⟩ := State.onNode_next hf rfl h
    simp only [State.mayIssue, Bool.and_eq_true, hn, Option.any_some, Slave.pushesRx] at hm
    rw [← out_next h]; exact .node n _ _ (State.instOf_node hI hn rfl) hn (.pushRx _ _ hm.2.1)
  · obtain ⟨n, hn, h⟩ := State.onNode_next hf rfl h
    rw [← out_next h]; exact .node n _ _ (State.instOf_node hI hn rfl) hn (.pushTx _ _)
  · obtain ⟨r, hr, h⟩ := State.onRing_next hf rfl h
    rw [← out_next h]
    exact .ring _ r _ ((State.instOf_of_mayIssue hI).trans (State.ringInst_of hr)) hr (.push x _)

theorem ExecNext.of_rbPop {s t : State} {q : Nat} (h : execRbPop q s = .next t) :
    ExecNext (.rbPop q) s t := by
  refine .of_admit h fun hf h => ?_
  have hI := State.mayIssue_of_failedCheck hf
  have hm := hI
  rcases q with _ | _ | k
  · obtain ⟨n, hn, h⟩ := State.onNode_next hf rfl h
    rw [← out_next h]; exact .node n _ _ (State.instOf_node hI hn rfl) hn (.popRx _)
  · obtain ⟨n, hn, h⟩ := State.onNode_next hf rfl h
    simp only [State.mayIssue, Bool.and_eq_true, hn, Option.any_some, Slave.popsTx] at hm
    rw [← out_next h]; exact .node n _ _ (State.instOf_node hI hn rfl) hn (.popTx _ hm.2.1)
  · obtain ⟨r, hr, h⟩ := State.onRing_next hf rfl h
    rw [← out_next h]
    exact .ring _ r _ ((State.instOf_of_mayIssue hI).trans (State.ringInst_of hr)) hr (.pop _)

theorem ExecNext.of_rbHasData {s t : State} {q : Nat} (h : execRbHasData q s = .next t) :
    ExecNext (.rbHasData q) s t := by
  refine .of_admit h fun hf h => ?_
  have hI := State.mayIssue_of_failedCheck hf
  rcases q with _ | _ | k
  · obtain ⟨n, hn, h⟩ := State.onNode_next hf rfl h
    rw [← out_next h]; exact .node n _ _ (State.instOf_node hI hn rfl) hn (.result _)
  · obtain ⟨n, hn, h⟩ := State.onNode_next hf rfl h
    rw [← out_next h]; exact .node n _ _ (State.instOf_node hI hn rfl) hn (.result _)
  · obtain ⟨r, hr, h⟩ := State.onRing_next hf rfl h
    rw [← out_next h]
    exact .ring _ r _ ((State.instOf_of_mayIssue hI).trans (State.ringInst_of hr)) hr (.result _)

theorem ExecNext.of_call {s t : State} {i : Instr} (hI : s.mayIssue i = true)
    (hi : s.actsOn i = s.masterInst) (hm : s.master?.any Master.free = true)
    {rw : Bool} {a : Byte} {buf : BufRef} {len : Nat}
    (h : (s.onMaster fun m => .next (s.beginCall rw a buf len m)) = .next t) : ExecNext i s t := by
  obtain ⟨m, hs⟩ := exists_of_any hm
  rw [State.onMaster_of hs] at h
  replace hi := State.instOf_master? hI hs hi
  obtain ⟨hc, hf⟩ := Master.free_iff.1 (by simpa [hs] using hm)
  rw [← out_next h]
  unfold State.beginCall
  split
  · rw [← hi]; exact .raised _
  · split
    · rw [← hi]; exact .raised _
    · next hl => exact .begin_ rw a buf len m hi hs hc (by simpa using hl) hf

/-- A slave HAL action that R340 lets through is the HAL bench's (log 8). -/
theorem ExecNext.of_bare {s t : State} {i : Instr} {f : Slave → Slave}
    (hI : s.mayIssue i = true) (hi : s.actsOn i = s.slaveInst) (ha : isSlaveHal i = true)
    (hm : s.mayDriveHal = true) (hf : ∀ n, BareChange n (f n))
    (h : (s.onNode fun n => .next (s.putNode (f n))) = .next t) : ExecNext i s t := by
  simp only [State.mayDriveHal, Bool.and_eq_true, beq_iff_eq] at hm
  obtain ⟨n, hn⟩ := exists_of_any hm.2
  rw [State.onNode_of hn] at h
  simp only [hn, Option.any_some, Bool.and_eq_true, Bool.not_eq_true'] at hm
  rw [← out_next h]
  exact .bare n _ (State.instOf_node hI hn hi) ha hn hm.1.2 hm.2.2 (hf n)

/-- Every next state of an operation is one of `ExecNext`. -/
theorem exec_next {i : Instr} {s t : State} (h : exec i s = .next t) : ExecNext i s t := by
  -- bits on the wire, which the environment puts there where it clocks bits
  have wire : ∀ (bits : List Bool), s.mayIssue i = true → isWireRow i = true → s.actsOn i = .outside ⟨s.ctx, none⟩ →
      (s.mayIssue i = true → s.cfg.env = .bits) →
      ExecNext i s (bits.foldl (fun s bit => s.wireBit bit) s) :=
    fun bits hI hw hi he => .wire bits hw ((State.instOf_of_mayIssue hI).trans hi) (he hI)
  cases i with
  | evStart =>
    refine .of_admit h fun hf h => ?_
    have hI := State.mayIssue_of_failedCheck hf
    obtain ⟨n, hn, h⟩ := State.onNode_next hf rfl h
    split at h
    · next he => rw [← out_next h]; exact .node n _ _ (State.instOf_node hI hn rfl) hn (.start he)
    · cases h
  | evShift w =>
    refine .of_admit h fun hf h => ?_
    have hI := State.mayIssue_of_failedCheck hf
    have hm := hI
    simp only [State.mayIssue, Bool.and_eq_true] at hm
    obtain ⟨n, hn, h⟩ := State.onNode_next hf rfl h
    split at h
    · next he =>
      simp only [Slave.shiftAdmissible, Bool.and_eq_true, Bool.or_eq_true, beq_iff_eq] at he
      rw [← out_next h]; exact .node n _ _ (State.instOf_node hI hn rfl) hn (.shift _ w hm.2 he.1 he.2)
    · cases h
  | evOther =>
    refine .of_admit h fun hf h => ?_
    have hI := State.mayIssue_of_failedCheck hf
    obtain ⟨n, hn, h⟩ := State.onNode_next hf rfl h
    rw [← out_next h]; exact .node n _ _ (State.instOf_node hI hn rfl) hn .other
  | initEngine a =>
    refine .of_admit h fun hf h => ?_
    have hI := State.mayIssue_of_failedCheck hf
    obtain ⟨n, hn, h⟩ := State.onNode_next hf rfl h
    split at h
    · next ha => rw [← out_next h]; exact .node n _ _ (State.instOf_node hI hn rfl) hn (.init a ha)
    · rw [← out_next h, ← State.instOf_node hI hn rfl]; exact .raised _
  | sendChar b =>
    refine .of_admit h fun hf h => ?_
    have hI := State.mayIssue_of_failedCheck hf
    obtain ⟨n, hn, h⟩ := State.onNode_next hf rfl h
    rw [← out_next h]; exact .node n _ _ (State.instOf_node hI hn rfl) hn (.pushTx b _)
  | charAvailable =>
    refine .of_admit h fun hf h => ?_
    have hI := State.mayIssue_of_failedCheck hf
    obtain ⟨n, hn, h⟩ := State.onNode_next hf rfl h
    rw [← out_next h]; exact .node n _ _ (State.instOf_node hI hn rfl) hn (.result _)
  | receiveChar =>
    refine .of_admit h fun hf h => ?_
    have hI := State.mayIssue_of_failedCheck hf
    obtain ⟨n, hn, h⟩ := State.onNode_next hf rfl h
    rw [← out_next h]; exact .node n _ _ (State.instOf_node hI hn rfl) hn (.popRx _)
  | sleep =>
    refine .of_admit h fun hf h => ?_
    have hI := State.mayIssue_of_failedCheck hf
    obtain ⟨n, hn, h⟩ := State.onNode_next hf rfl h
    split at h
    · rw [← out_next h, ← State.instOf_node hI hn rfl]; exact .raised _
    · rw [← out_next h]; exact .node n _ _ (State.instOf_node hI hn rfl) hn .sleep
  | rbInit q n => exact .of_rbInit h
  | rbPush q x => exact .of_rbPush h
  | rbPop q => exact .of_rbPop h
  | rbHasData q => exact .of_rbHasData h
  | mTransmit a buf len =>
    refine .of_admit h fun hf h => ?_
    have hI := State.mayIssue_of_failedCheck hf
    have hm := hI
    simp only [State.mayIssue, Bool.and_eq_true] at hm
    exact .of_call hI rfl hm.2 h
  | mReceive a buf len =>
    refine .of_admit h fun hf h => ?_
    have hI := State.mayIssue_of_failedCheck hf
    have hm := hI
    simp only [State.mayIssue, Bool.and_eq_true] at hm
    exact .of_call hI rfl hm.2 h
  | armShift k =>
    refine .of_admit h fun hf h => ?_
    have hI := State.mayIssue_of_failedCheck hf
    obtain ⟨-, hk, -⟩ := State.failedCheck_none hf
    exact .of_bare hI rfl rfl hI (fun n => .armShift k (by simpa [Instr.kOk] using hk)) h
  | setLineDriven d =>
    refine .of_admit h fun hf h => ?_
    have hI := State.mayIssue_of_failedCheck hf
    exact .of_bare hI rfl rfl hI (fun n => .setLineDriven d) h
  | readSr =>
    refine .of_admit h fun hf h => ?_
    have hI := State.mayIssue_of_failedCheck hf
    have hm := hI
    simp only [State.mayIssue, Bool.and_eq_true] at hm
    exact .of_bare (f := fun n => n.readSr.addResult (.byte n.sr)) hI rfl rfl hm.1 (fun n => .readSr _) h
  | writeSr v =>
    refine .of_admit h fun hf h => ?_
    have hI := State.mayIssue_of_failedCheck hf
    exact .of_bare hI rfl rfl hI (fun n => .writeSr v) h
  | rearmStart =>
    refine .of_admit h fun hf h => ?_
    have hI := State.mayIssue_of_failedCheck hf
    exact .of_bare hI rfl rfl hI (fun n => .rearmStart) h
  | mhStart =>
    refine .of_admit h fun hf h => ?_
    have hI := State.mayIssue_of_failedCheck hf
    exact .of_masterIssue hI rfl hI (by simp) (by simp) h
  | mhWrite v =>
    refine .of_admit h fun hf h => ?_
    have hI := State.mayIssue_of_failedCheck hf
    exact .of_masterIssue hI rfl hI (by simp) (by simp) h
  | mhReadAck =>
    refine .of_admit h fun hf h => ?_
    have hI := State.mayIssue_of_failedCheck hf
    exact .of_masterIssue hI rfl hI (by simp) (by simp) h
  | mhReadNack =>
    refine .of_admit h fun hf h => ?_
    have hI := State.mayIssue_of_failedCheck hf
    exact .of_masterIssue hI rfl hI (by simp) (by simp) h
  | mhStop =>
    refine .of_admit h fun hf h => ?_
    have hI := State.mayIssue_of_failedCheck hf
    exact .of_masterIssue hI rfl hI (by simp) (fun _ => rfl) h
  | mhPoll =>
    refine .of_admit h fun hf h => ?_
    have hI := State.mayIssue_of_failedCheck hf
    exact .of_masterIssue hI rfl hI (by simp) (by simp) h
  | mhStatus =>
    refine .of_admit h fun hf h => ?_
    have hI := State.mayIssue_of_failedCheck hf
    exact .of_masterIssue hI rfl hI (by simp) (by simp) h
  | mhReadData =>
    refine .of_admit h fun hf h => ?_
    have hI := State.mayIssue_of_failedCheck hf
    exact .of_masterIssue hI rfl hI (fun _ => rfl) (by simp) h
  | envMComplete st d =>
    refine .of_admit h fun hf h => ?_
    have hI := State.mayIssue_of_failedCheck hf
    obtain ⟨m, hm⟩ := Option.isSome_iff_exists.1 (Bool.and_eq_true_iff.1 hI).2
    rw [State.onMaster_of hm] at h
    split at h
    · next hc => rw [← out_next h]; exact
        .complete _ _ m (State.instOf_master? hI hm rfl) hm (State.completes_iff.1 hc).1
    · cases h
  | addrGeneralCall =>
    refine .of_admit h fun hf h => ?_
    rw [← out_next h]
    exact wire _ (State.mayIssue_of_failedCheck hf) rfl rfl (by simp [State.mayIssue])
  | addrOwnWrite a =>
    refine .of_admit h fun hf h => ?_
    rw [← out_next h]
    exact wire _ (State.mayIssue_of_failedCheck hf) rfl rfl (by simp [State.mayIssue])
  | addrOwnRead a =>
    refine .of_admit h fun hf h => ?_
    rw [← out_next h]
    exact wire _ (State.mayIssue_of_failedCheck hf) rfl rfl (by simp [State.mayIssue])
  | addrNoMatch a rw =>
    refine .of_admit h fun hf h => ?_
    rw [← out_next h]
    exact wire _ (State.mayIssue_of_failedCheck hf) rfl rfl (by simp [State.mayIssue])
  | masterAddrWrite a =>
    refine .of_admit h fun hf h => ?_
    have hI := State.mayIssue_of_failedCheck hf
    have hm := hI
    simp only [State.mayIssue, State.mayAddress, Bool.and_eq_true] at hm
    exact .of_masterIssue hI rfl hm.1 (by simp) (by simp) h
  | masterAddrRead a =>
    refine .of_admit h fun hf h => ?_
    have hI := State.mayIssue_of_failedCheck hf
    have hm := hI
    simp only [State.mayIssue, State.mayAddress, Bool.and_eq_true] at hm
    exact .of_masterIssue hI rfl hm.1 (by simp) (by simp) h
  | wireAck =>
    refine .of_admit h fun hf h => ?_
    rw [← out_next h]
    exact wire [false] (State.mayIssue_of_failedCheck hf) rfl rfl (by simp [State.mayIssue])
  | wireNack =>
    refine .of_admit h fun hf h => ?_
    rw [← out_next h]
    exact wire [true] (State.mayIssue_of_failedCheck hf) rfl rfl (by simp [State.mayIssue])

/-- The next states of `step s`: the schedule alone has moved; an operation has run; the wire has
carried a symbol; something undecodable was refused. -/
inductive StepNext (s : State) : State → Prop where
  | sched (l : List Turn) : StepNext s { s with sched := l }
  | exec (i : Instr) (c : Ctx) (l : List Turn) (sc : List (List (Byte × Byte))) (t : State) :
      ExecNext i { s with ctx := c, sched := l, scripts := sc } t → StepNext s t
  | symbol (j : Nat) (x : Sym) (xs : List Sym) (l : List Turn) : s.cfg.env = .wire j →
      s.bus.pending = x :: xs →
      StepNext s (({ s with sched := l, bus := { s.bus with pending := xs } } : State).carrySym x)
  | undecoded (c : Ctx) (l : List Turn) (k : Inst) :
      StepNext s (({ s with ctx := c, sched := l } : State).refuse k .unassignedWord)

theorem StepNext.of_refuseUndecoded {s t : State} {c : Ctx} {l : List Turn} {fmt : Format}
    {word : Byte} (h : ({ s with ctx := c, sched := l } : State).refuseUndecoded fmt word = .next t) : StepNext s t := by
  unfold State.refuseUndecoded at h
  split at h
  · cases h
  · split at h
    · cases h
    · rw [← out_next h]; exact .undecoded c l _

theorem StepNext.of_issueTurn {s t : State} {agent : Agent} {node : Nat} {op : Encoded} {l : List Turn}
    (h : ({ s with sched := l } : State).issueTurn agent node op = .next t) : StepNext s t := by
  unfold State.issueTurn at h
  dsimp only at h
  split at h
  · exact .exec _ ⟨agent, node⟩ l s.scripts _ (exec_next h)
  · exact .of_refuseUndecoded h

theorem StepNext.of_expandTurn {s t : State} {node : Nat} {events : List BusEvent} {l : List Turn}
    (h : ({ s with sched := l } : State).expandTurn node events = .next t) : StepNext s t := by
  unfold State.expandTurn at h
  split at h
  · rw [← out_next h]; exact .sched l
  · exact .exec _ ⟨.env, node⟩ _ s.scripts _ (exec_next h)
  · split at h
    · rw [← out_next h]; exact .sched l
    · exact .exec _ ⟨.env, node⟩ _ s.scripts _ (exec_next h)

theorem StepNext.of_masterTurn {s t : State} {l : List Turn} {j : Nat}
    (h : ({ s with sched := l } : State).masterTurn j = .next t) : StepNext s t := by
  unfold State.masterTurn at h
  split at h
  · cases h
  · exact .exec _ ⟨.masterEngine, j⟩ l s.scripts _ (exec_next h)

theorem StepNext.of_wireTurn {s t : State} {l : List Turn}
    (h : ({ s with sched := l } : State).wireTurn = .next t) : StepNext s t := by
  unfold State.wireTurn at h
  split at h
  · cases h
  · cases h
  · cases h
  · next j hj =>
    split at h
    · next x xs hp => rw [← out_next h]; exact .symbol j x xs l hj hp
    · split at h
      · cases h
      · split at h
        · exact .exec _ ⟨.wire, j⟩ l s.scripts _ (exec_next h)
        · cases h

theorem StepNext.of_scriptTurn {s t : State} {l : List Turn} {j : Nat}
    (h : ({ s with sched := l } : State).scriptTurn j = .next t) : StepNext s t := by
  unfold State.scriptTurn at h
  split at h
  · next xs _ => exact .exec _ ⟨.env, j⟩ l (s.scripts.set j xs) _ (exec_next h)
  · cases h

theorem StepNext.of_idleTurn {s t : State} {l : List Turn}
    (h : ({ s with sched := l } : State).idleTurn = .next t) : StepNext s t := by
  unfold State.idleTurn at h
  split at h
  · exact .of_wireTurn h
  · split at h
    · exact .of_scriptTurn h
    · split at h
      · exact .of_masterTurn h
      · cases h

/-- Every next state of a step is one of `StepNext`. -/
theorem step_next {s t : State} (h : step s = .next t) : StepNext s t := by
  unfold step at h
  split at h
  · exact .of_idleTurn (l := s.sched) h
  · next turn rest hs =>
    cases turn with
    | issue agent node op => exact .of_issueTurn h
    | expand node events => exact .of_expandTurn h
    | master j => exact .of_masterTurn h
    | wire => exact .of_wireTurn h
    | await =>
      unfold State.takeTurn State.awaitTurn at h
      dsimp only at h
      split at h
      · exact .of_idleTurn (l := .await :: rest) h
      · rw [← out_next h]; exact .sched rest

end Sys2Proof.Machine
end

