-- ==== Sys2Proof/Laws/Ready.lean ====
section
/-! SUPPORT. When an operation is admitted, from the conditions claims are stated in (Safety.lean): on a
node, on the master, on a stand-alone ring, on the wire; and what a refusal or a fault leaves there. -/

namespace Sys2Proof.Machine

/-! ### On a node -/

theorem NodeReady.isCreated {s : State} {n : Slave} {a : Agent} (h : NodeReady s n a) :
    n.isCreated = true := by
  simp [Slave.isCreated, h.2.1, h.2.2.1]

/-- The issuer is not stalled (R47, R343). -/
theorem NodeReady.stall {s : State} {n : Slave} {a : Agent} (h : NodeReady s n a)
    (hf : a = .slaveFg → ForegroundFree s n) (hs : a = .masterFg ∨ a = .masterEngine → n.sleeping = false) :
    s.stall = none := by
  obtain ⟨hn, -, -, -, ha, -⟩ := h
  unfold State.stall
  rw [ha]
  cases a <;> simp only [hn, Option.any_some]
  · obtain ⟨h1, h2⟩ := hf rfl
    rw [h1]
    cases hm : s.master? with
    | none => rfl
    | some m => simp [h2 m hm]
  · simp [hs (.inl rfl)]
  · simp [hs (.inr rfl)]

/-- What an operation of an agent of the ready node's slave engine is charged to (log 13). -/
theorem NodeReady.instOf {s : State} {n : Slave} {a : Agent} (h : NodeReady s n a) (i : Instr)
    (ha : a = .isr ∨ a = .slaveFg ∨ a = .tester) : s.instOf i = .slave s.ctx.node :=
  State.instOf_slave i h.1 (h.2.2.2.2.1 ▸ ha)

/-- What an operation of the environment on a ready node is charged to (log 13). -/
theorem NodeReady.instOf_env {s : State} {n : Slave} (h : NodeReady s n .env) {i : Instr}
    (hi : s.targetInst i = s.slaveInst) : s.instOf i = .slave s.ctx.node := by
  rw [State.instOf_target i (.inl h.2.2.2.2.1), hi, State.slaveInst_of h.1]

/-- The checks of the rings of a ready node (R119). -/
theorem NodeReady.configOk {s : State} {n : Slave} {a : Agent} (h : NodeReady s n a) :
    s.configOk s.slaveInst = true := by
  have hn := h.1
  rw [State.slaveInst_of hn]
  simp only [State.node?] at hn
  simp [State.configOk, hn, h.2.2.2.2.2]

/-- An operation on a ready node runs if it passes every check. -/
theorem State.admit_node {s : State} {n : Slave} {a : Agent} {i : Instr} (run : Out)
    (h : NodeReady s n a) (hi : s.actsOn i = s.slaveInst) (hs : s.stall = none)
    (hf : s.failedCheck i = none) : s.admitted i run = run := by
  replace hi := State.instOf_node (State.failedCheck_none hf).2.2.2.1 h.1 hi
  have hn := h.1
  simp only [State.node?] at hn
  refine s.admit_run run ?_ hs hf
  simp [hi, State.statusOf, hn, h.2.2.2.1, Status.quiescent_clean]

/-- The record of the issuing node, updated. -/
theorem State.mapStatus_node {s : State} {n : Slave} (h : s.node? = some n) (f : Status → Status) :
    s.mapStatus (.slave s.ctx.node) f = s.putNode { n with status := f n.status } := by
  simp only [State.node?] at h
  simp only [State.mapStatus, State.putNode, modifySlave]
  congr 1
  rw [List.modify_eq_set_getElem?]
  simp [h, Slave.mapStatus]

/-- An operation on a ready node that fails a check sets `refused` and does nothing else. -/
theorem State.admit_node_refused {s : State} {n : Slave} {a : Agent} {i : Instr} {c : WfCheck}
    (run : Out) (h : NodeReady s n a) (hi : s.instOf i = .slave s.ctx.node) (hs : s.stall = none)
    (hf : s.failedCheck i = some c) :
    s.admitted i run = .next (s.putNode { n with status := ⟨[], some c.reason⟩ }) := by
  have hn := h.1
  simp only [State.node?] at hn
  rw [s.admit_refused run (c := c) ?_ hs hf]
  · rw [hi, State.refuse, State.mapStatus_node h.1, h.2.2.2.1]
    rfl
  · simp [hi, State.statusOf, hn, h.2.2.2.1, Status.quiescent_clean]

/-- A fault on a ready node records its code and does nothing else (R332). -/
theorem NodeReady.raiseFault {s : State} {n : Slave} {a : Agent} (h : NodeReady s n a) (c : FaultCode) :
    s.raiseFault (.slave s.ctx.node) c = s.putNode { n with status := ⟨[c], none⟩ } := by
  rw [State.raiseFault, State.mapStatus_node h.1, h.2.2.2.1]
  rfl

/-! ### On a master -/

/-- The issuer is not stalled (R47, R343). -/
theorem MasterReady.stall {s : State} {m : Master} {a : Agent} (h : MasterReady s m a)
    (ha : a ≠ .slaveFg) : s.stall = none := by
  obtain ⟨-, -, h2, h3⟩ := h
  unfold State.stall
  rw [h2]
  have hs : s.node?.any (·.sleeping) = false := by
    cases hn : s.node? with
    | none => rfl
    | some n => exact h3 n hn
  cases a <;> simp_all

/-- What an operation of an agent of the ready master is charged to (log 13). -/
theorem MasterReady.instOf {s : State} {m : Master} {a : Agent} (h : MasterReady s m a) (i : Instr)
    (ha : a = .masterFg ∨ a = .masterEngine) : s.instOf i = .master s.ctx.node :=
  State.instOf_master i h.1 (h.2.2.1 ▸ ha)

/-- An operation on a ready master runs if it passes every check. -/
theorem State.admit_master {s : State} {m : Master} {a : Agent} {i : Instr} (run : Out)
    (h : MasterReady s m a) (ha : a ≠ .slaveFg) (hi : s.actsOn i = s.masterInst)
    (hf : s.failedCheck i = none) : s.admitted i run = run := by
  replace hi := State.instOf_master? (State.failedCheck_none hf).2.2.2.1 h.1 hi
  have hm : s.masterAt s.ctx.node = some m := h.1
  refine s.admit_run run ?_ (h.stall ha) hf
  simp [hi, State.statusOf, hm, h.2.1, Status.quiescent_clean]

/-- The record of the issuing node's master, updated. -/
theorem State.mapStatus_master {s : State} {m : Master} (h : s.master? = some m)
    (f : Status → Status) :
    s.mapStatus (.master s.ctx.node) f = s.putMaster { m with status := f m.status } := by
  have hm := (State.masters_lt h).1
  simp only [State.mapStatus, State.putMaster, modifyMaster]
  congr 1
  rw [List.modify_eq_set_getElem?]
  simp [hm, Master.mapStatus]

/-- An operation on a ready master that fails a check sets `refused` and does nothing else. -/
theorem State.admit_master_refused {s : State} {m : Master} {a : Agent} {i : Instr} {c : WfCheck}
    (run : Out) (h : MasterReady s m a) (ha : a ≠ .slaveFg) (hi : s.instOf i = .master s.ctx.node)
    (hf : s.failedCheck i = some c) :
    s.admitted i run = .next (s.putMaster { m with status := ⟨[], some c.reason⟩ }) := by
  have hm : s.masterAt s.ctx.node = some m := h.1
  rw [s.admit_refused run (c := c) ?_ (h.stall ha) hf]
  · rw [hi, State.refuse, State.mapStatus_master h.1, h.2.1]
    rfl
  · simp [hi, State.statusOf, hm, h.2.1, Status.quiescent_clean]

/-- A fault of a ready master records its code and does nothing else (R332). -/
theorem MasterReady.raiseFault {s : State} {m : Master} {a : Agent} (h : MasterReady s m a)
    (c : FaultCode) :
    s.raiseFault (.master s.ctx.node) c = s.putMaster { m with status := ⟨[c], none⟩ } := by
  rw [State.raiseFault, State.mapStatus_master h.1, h.2.1]
  rfl

/-! ### On a stand-alone ring and on the wire -/

/-- What an operation of the producer or the consumer of a ready ring is charged to (log 13). -/
theorem RingReady.instOf {s : State} {q : Nat} {r : Standalone} {a : Agent} (h : RingReady s q r a)
    (i : Instr) (ha : a = .ringProducer q ∨ a = .ringConsumer q) : s.instOf i = .ring q :=
  State.instOf_ring i h.2.1 (h.2.2.2.1 ▸ ha)

/-- An operation on a ready stand-alone ring runs if it passes every check. -/
theorem State.admit_ring {s : State} {q : Nat} {r : Standalone} {a : Agent} {i : Instr} (run : Out)
    (h : RingReady s q r a) (h1 : a ≠ .slaveFg) (h2 : a ≠ .masterFg) (h3 : a ≠ .masterEngine)
    (hi : s.actsOn i = s.ringInst q) (hf : s.failedCheck i = none) : s.admitted i run = run := by
  obtain ⟨hq, hr, hc, ha, -⟩ := h
  replace hi : s.instOf i = .ring q := by
    rw [State.instOf_of_mayIssue (State.failedCheck_none hf).2.2.2.1, hi, State.ringInst_of hr]
  refine State.admit_run _ ?_ ?_ hf
  · simp [hi, State.statusOf, hr, hc, Status.quiescent_clean]
  · unfold State.stall; rw [ha]; cases a <;> simp_all

/-- Bits are put on a ready wire if the operation passes every check. -/
theorem State.admit_wire {s : State} {i : Instr} (run : Out) (h : WireReady s)
    (hi : s.actsOn i = .outside ⟨s.ctx, none⟩) (hf : s.failedCheck i = none) : s.admitted i run = run := by
  obtain ⟨h1, h2, h3⟩ := h
  replace hi : s.instOf i = .outside ⟨s.ctx, none⟩ := by
    rw [State.instOf_of_mayIssue (State.failedCheck_none hf).2.2.2.1, hi]
  refine s.admit_run run ?_ ?_ hf
  · simp [hi, State.statusOf, h1, Status.quiescent_clean]
  · simp [State.stall, h2]

end Sys2Proof.Machine
end

