-- ==== Sys2Proof/Laws/Record.lean ====
section
/-! SUPPORT. The records of faults and refusals (60_exceptions.md R332, R333): which record an update
reaches, and that the records only grow. -/

namespace Sys2Proof.Machine

theorem mem_addFault {c x : FaultCode} {l : List FaultCode} : x ∈ addFault c l ↔ x ∈ l ∨ x = c := by
  unfold addFault
  split
  · constructor
    · exact .inl
    · rintro (h | rfl) <;> assumption
  · simp

theorem nodup_addFault {c : FaultCode} {l : List FaultCode} (h : l.Nodup) : (addFault c l).Nodup := by
  unfold addFault
  split
  · exact h
  · next hc =>
    refine List.nodup_append.2 ⟨h, by simp, ?_⟩
    simp only [List.mem_singleton]
    rintro a ha b rfl rfl
    exact hc ha

/-- The ring p after an update of ring q. -/
theorem find?_modifyRing (l : List Standalone) (q p : Nat) (f : Standalone → Standalone)
    (hf : ∀ r, (f r).q = r.q) :
    (modifyRing l q f).find? (fun r => r.q == p) =
      (l.find? (fun r => r.q == p)).map (fun r => if r.q == q then f r else r) := by
  unfold modifyRing
  rw [List.find?_map]
  congr 2
  funext r
  simp only [Function.comp]
  split <;> simp [hf]

/-- The record of an issuer after that of an issuer has been replaced. -/
@[simp] theorem recordOf_setRecord (l : List (Outsider × Status)) (c d : Outsider) (st : Status) :
    recordOf (setRecord l c st) d = if d = c then st else recordOf l d := by
  induction l with
  | nil => simp [setRecord, recordOf, eq_comm]
  | cons x l ih =>
    obtain ⟨e, x⟩ := x
    unfold setRecord
    split
    · next h => subst h; simp only [recordOf, eq_comm (a := e)]; split <;> rfl
    · next h =>
      simp only [recordOf, ih]
      split
      · next h' => subst h'; rw [if_neg h]
      · rfl

/-- One record for each issuer, after one has been replaced. -/
theorem nodup_setRecord {l : List (Outsider × Status)} (c : Outsider) (st : Status) (h : (l.map (·.1)).Nodup) :
    ((setRecord l c st).map (·.1)).Nodup ∧ ∀ d, d ∈ (setRecord l c st).map (·.1) → d ∈ l.map (·.1) ∨ d = c := by
  induction l with
  | nil => simp [setRecord]
  | cons x l ih =>
    obtain ⟨e, x⟩ := x
    simp only [List.map_cons, List.nodup_cons] at h
    obtain ⟨h1, h2⟩ := ih h.2
    unfold setRecord
    split
    · next he => subst he; exact ⟨List.nodup_cons.2 h, fun d hd => .inl hd⟩
    · next he =>
      simp only [List.map_cons, List.nodup_cons, List.mem_cons]
      refine ⟨⟨fun hm => ?_, h1⟩, ?_⟩
      · rcases h2 _ hm with h' | h'
        · exact h.1 h'
        · exact he h'
      · rintro d (rfl | hd)
        · exact .inl (.inl rfl)
        · exact (h2 d hd).imp .inr id

/-- An update of one instance's record is seen there and nowhere else. -/
theorem State.statusOf_mapStatus (s : State) (k : Inst) (f : Status → Status) (j : Inst) :
    (s.mapStatus k f).statusOf j = if j = k then (s.statusOf j).map f else s.statusOf j := by
  cases k with
  | slave i =>
    cases j <;> simp [State.mapStatus, State.statusOf, modifySlave, State.ring?, State.masterAt]
    next j =>
      rw [List.getElem?_modify]
      by_cases h : j = i
      · subst h; cases s.slaves[j]? <;> simp [Slave.mapStatus]
      · simp [h, Ne.symm h]
  | master i =>
    cases j <;> simp [State.mapStatus, State.statusOf, State.masterAt, modifyMaster, State.ring?]
    next j =>
      rw [List.getElem?_modify]
      by_cases h : j = i
      · subst h; rcases s.masters[j]? with _ | _ | m <;> simp [Master.mapStatus]
      · simp [h, Ne.symm h]
  | ring q =>
    cases j <;> simp only [State.mapStatus, State.statusOf, State.ring?, State.masterAt] <;> try rfl
    next p =>
      rw [find?_modifyRing s.rings q p (fun r => { r with status := f r.status }) (fun _ => rfl)]
      by_cases h : p = q
      · subst h
        cases hh : s.rings.find? (fun r => r.q == p) with
        | none => simp
        | some r => have := List.find?_some hh; simp at this; simp [this]
      · cases hh : s.rings.find? (fun r => r.q == p) with
        | none => simp
        | some r => have := List.find?_some hh; simp at this; simp [this, h]
  | outside c =>
    cases j <;> simp [State.mapStatus, State.statusOf, State.ring?, State.masterAt]
    next d => split <;> simp_all

end Sys2Proof.Machine
end

