-- ==== Sys2Proof/Laws/Wire.lean ====
section
/-! SUPPORT. The wire (45_bus.md): everything a bit slot can do to a node, said once, and the frame of
any sequence of slots. -/

namespace Sys2Proof.Machine

/-- A slot is 1 exactly where nobody drives 0 (R301). -/
theorem slotValue_eq_true {bit : Bool} {l : List Slave} :
    slotValue bit l = true ↔ bit = true ∧ ∀ n ∈ l, n.driven = true → n.sr.getLsbD 7 = true := by
  unfold slotValue
  rw [Bool.and_eq_true, List.all_eq_true]
  refine and_congr Iff.rfl (forall_congr' fun n => imp_congr Iff.rfl ?_)
  unfold Slave.lineOut
  cases n.driven <;> simp

/-- Where every node floats the line, a slot has the value of whoever clocks it. -/
theorem slotValue_of_floating {bit : Bool} {l : List Slave} (h : ∀ n ∈ l, n.driven = false) :
    slotValue bit l = bit := by
  unfold slotValue
  have : l.all Slave.lineOut = true := by
    rw [List.all_eq_true]; intro n hn; simp [Slave.lineOut, h n hn]
  simp [this]

/-- Everything a bit slot can do to a node (R304): nothing; refuse the encoding 7; run the handler at
the last bit; count a bit. -/
theorem Slave.busSlot_cases (n : Slave) (v : Bool) :
    n.busSlot v = n ∨
    (n.enabled = true ∧ n.takesSteps = true ∧
      ((n.armed = 1 ∧ n.state = .corrupt ∧ n.busSlot v = n.refuseCorrupt) ∨
       (n.armed = 1 ∧ n.state ≠ .corrupt ∧ n.busSlot v =
         Slave.shiftHandler { n with sr := shiftIn n.sr v, armed := 0, sleeping := false }) ∨
       (1 < n.armed ∧ n.busSlot v = { n with sr := shiftIn n.sr v, armed := n.armed - 1 }))) := by
  unfold Slave.busSlot
  split
  · next hc =>
    simp only [Bool.and_eq_true, decide_eq_true_eq] at hc
    refine .inr ⟨hc.1.2, hc.1.1, ?_⟩
    split
    · next h1 =>
      split
      · next h2 => exact .inl ⟨h1, h2, rfl⟩
      · next h2 => exact .inr (.inl ⟨h1, h2, rfl⟩)
    · exact .inr (.inr ⟨by omega, rfl⟩)
  · exact .inl rfl

/-- A node with nothing armed, or not yet enabled, ignores a slot (R304). -/
theorem Slave.busSlot_of_idle {n : Slave} (v : Bool) (h : n.armed = 0 ∨ n.enabled = false) :
    n.busSlot v = n := by
  unfold Slave.busSlot
  rw [if_neg]
  rcases h with h | h <;> simp [h]

/-- A slot that does not end the shift samples a bit and counts it (R304). -/
theorem Slave.busSlot_of_counting {n : Slave} (v : Bool) (h1 : n.takesSteps = true)
    (h2 : n.enabled = true) (h3 : 1 < n.armed) :
    n.busSlot v = { n with sr := shiftIn n.sr v, armed := n.armed - 1 } := by
  unfold Slave.busSlot
  rw [if_pos (by simp [h1, h2]; omega), if_neg (by omega)]

/-- Any number of slots moves the nodes and the line, and nothing else; each node sees the values the
line had. -/
theorem State.wireBits_frame (bits : List Bool) (s : State) :
    ∃ vs : List Bool, vs.length = bits.length ∧
      bits.foldl (fun s bit => s.wireBit bit) s =
        { s with
          slaves := s.slaves.map (fun n => vs.foldl (fun m v => m.busSlot v) n)
          bus    := { s.bus with line := (bits.foldl (fun s bit => s.wireBit bit) s).bus.line } } := by
  induction bits generalizing s with
  | nil => exact ⟨[], rfl, by simp⟩
  | cons b bits ih =>
    obtain ⟨vs, h1, h2⟩ := ih (s.wireBit b)
    refine ⟨slotValue b s.slaves :: vs, by simp [h1], ?_⟩
    simp only [List.foldl]
    rw [h2]
    simp [Function.comp_def]

end Sys2Proof.Machine
end

