-- ==== Sys2Proof/Laws/Relations.lean ====
section
/-! SUPPORT. The induction over the machine, packaged once: what relates every slave node before a step
to the same node after it, every master engine and every stand-alone ring likewise, and what a step of
the master's call leaves unchanged. -/

namespace Sys2Proof.Machine

/-! ### What a call's step leaves unchanged -/

/-- A step of the call changes its caller's memory by a data read and by a stop alone (R263). -/
theorem Call.memAfter_eq {a : MAct} (d : Nat) (c : Call) (m : Master) (h1 : a ≠ .readData)
    (h2 : a ≠ .stop) : c.memAfter d a m = m.mem := by
  cases a <;> first | exact absurd rfl h1 | exact absurd rfl h2 | rfl

/-- A step of the call keeps the canonical form of its caller's memory (log 11). -/
theorem Call.memAfter_wf {m : Master} (hw : m.mem.wf) (d : Nat) (a : MAct) (c : Call) :
    (c.memAfter d a m).wf := by
  cases a with
  | stop => exact Memory.wf_fillFree hw _ _ _
  | readData => exact Memory.wf_write hw _ _
  | _ => exact hw

/-- Every step of a call appends its action to mh.trace, and records no fault. -/
theorem Master.callStep_records (p : Params) (a : MAct) (c : Call) (m : Master) :
    (m.callStep p a c).status = m.status ∧ (m.callStep p a c).trace = m.trace ++ [a] := by
  cases a with
  | status =>
    simp only [Master.callStep]
    split
    · exact ⟨by simp, by simp⟩
    · split <;> exact ⟨by simp, by simp⟩
  | _ => exact ⟨by simp [Master.callStep], by simp [Master.callStep]⟩

/-! ### Nodes before and after -/

/-- R holds between every node of one state and the same node of another. -/
def NodesRel (R : Slave → Slave → Prop) (l m : List Slave) : Prop :=
  ∀ (j : Nat) (x y : Slave), l[j]? = some x → m[j]? = some y → R x y

theorem NodesRel.same {R : Slave → Slave → Prop} (refl : ∀ n, R n n) (l : List Slave) :
    NodesRel R l l := by
  intro j x y hx hy
  rw [hx] at hy
  cases hy
  exact refl x

theorem NodesRel.map {R : Slave → Slave → Prop} (l : List Slave) {f : Slave → Slave}
    (h : ∀ n, R n (f n)) : NodesRel R l (l.map f) := by
  intro j x y hx hy
  simp only [List.getElem?_map, hx, Option.map_some, Option.some.injEq] at hy
  subst hy
  exact h x

theorem NodesRel.putNode {R : Slave → Slave → Prop} {s : State} {n m : Slave} (hn : s.node? = some n)
    (refl : ∀ n, R n n) (h : R n m) : NodesRel R s.slaves (s.putNode m).slaves := by
  intro j x y hx hy
  simp only [State.putNode_slaves, List.getElem?_set] at hy
  simp only [State.node?] at hn
  split at hy
  · next hj =>
    subst hj
    rw [hn] at hx
    cases hx
    split at hy
    · cases hy; exact h
    · cases hy
  · rw [hx] at hy
    cases hy
    exact refl x

theorem NodesRel.mapStatus {R : Slave → Slave → Prop} (s : State) (k : Inst) {f : Status → Status}
    (refl : ∀ n, R n n) (hf : ∀ n, R n (n.mapStatus f)) :
    NodesRel R s.slaves (s.mapStatus k f).slaves := by
  cases k with
  | slave i =>
    intro j x y hx hy
    simp only [State.mapStatus, modifySlave, List.getElem?_modify, hx] at hy
    split at hy <;> simp at hy <;> subst hy
    · exact hf _
    · exact refl _
  | _ => exact .same refl _

/-- From a property of every node before to the same of every node after. -/
theorem NodesRel.all {P : Slave → Prop} {l m : List Slave} (hl : m.length = l.length)
    (hr : NodesRel (fun x y => P x → P y) l m) (h : ∀ n ∈ l, P n) : ∀ n ∈ m, P n := by
  intro y hy
  obtain ⟨j, hj⟩ := List.mem_iff_getElem?.1 hy
  have hlt : j < l.length := hl ▸ (List.getElem?_eq_some_iff.1 hj).1
  exact hr j l[j] y (List.getElem?_eq_getElem hlt) hj (h _ (List.getElem_mem hlt))

/-- What R must hold of, to hold between the nodes before and after every step. -/
structure NodeRel (p : Params) (R : Slave → Slave → Prop) : Prop where
  refl     : ∀ n, R n n
  raised   : ∀ n c, R n (n.mapStatus (Status.addFault c))
  refused  : ∀ n r, R n (n.mapStatus (Status.refuse r))
  change   : ∀ n m, NodeChange p n m → R n m
  bare     : ∀ n m, p.env = .halBench → n.enabled = false → BareChange n m → R n m
  busStart : p.env.starts = false → ∀ n, R n n.busStart
  busSlots : p.env.shifts = false → ∀ n (vs : List Bool), R n (vs.foldl (fun m v => m.busSlot v) n)

/-- A transitive relation that holds over one bit slot holds over any number of them. -/
theorem busSlots_of {R : Slave → Slave → Prop} (refl : ∀ n, R n n)
    (trans : ∀ a b c, R a b → R b c → R a c) (h : ∀ n v, R n (Slave.busSlot v n)) (vs : List Bool) :
    ∀ n, R n (vs.foldl (fun m v => m.busSlot v) n) := by
  induction vs with
  | nil => exact refl
  | cons v vs ih => exact fun n => trans _ _ _ (h n v) (ih _)

theorem exec_nodes {s t : State} {i : Instr} {R : Slave → Slave → Prop} (hR : NodeRel s.cfg R)
    (h : ExecNext i s t) : NodesRel R s.slaves t.slaves := by
  cases h with
  | refused c _ => exact .mapStatus s _ hR.refl (fun n => hR.refused n _)
  | raised c => exact .mapStatus s _ hR.refl (fun n => hR.raised n _)
  | node n m d _ hn hc => exact .putNode hn hR.refl (hR.change _ _ hc)
  | bare n m _ _ hn he hd hc => exact .putNode hn hR.refl (hR.bare _ _ he hd hc)
  | wire bits _ _ he =>
    obtain ⟨vs, -, h2⟩ := State.wireBits_frame bits s
    rw [h2]
    exact .map _ (fun n => hR.busSlots (by rw [he]; rfl) n vs)
  | _ => exact .same hR.refl _

/-- A symbol moves the nodes and the wire, and nothing else. -/
theorem State.carrySym_frame (x : Sym) (s : State) :
    s.carrySym x = { s with slaves := (s.carrySym x).slaves, bus := (s.carrySym x).bus } := by
  cases x with
  | slot bit ack => unfold State.carrySym State.masterSlot; dsimp only; split <;> rfl
  | _ => rfl

theorem carrySym_nodes {s : State} {p : Params} {R : Slave → Slave → Prop} {j : Nat} (hR : NodeRel p R)
    (he : p.env = .wire j) (x : Sym) : NodesRel R s.slaves (s.carrySym x).slaves := by
  cases x with
  | start => exact .map _ (hR.busStart (by rw [he]; rfl))
  | stop => exact .same hR.refl _
  | slot bit ack =>
    have : (s.carrySym (.slot bit ack)).slaves =
        s.slaves.map (Slave.busSlot (slotValue bit s.slaves)) := by
      unfold State.carrySym State.masterSlot
      dsimp only
      split <;> rfl
    rw [this]
    exact .map _ (fun n => hR.busSlots (by rw [he]; rfl) n [_])

/-- R holds between every node before a step and the same node after it. -/
theorem step_nodes {s t : State} {R : Slave → Slave → Prop} (hR : NodeRel s.cfg R)
    (h : step s = .next t) : NodesRel R s.slaves t.slaves := by
  cases step_next h with
  | sched l => exact .same hR.refl _
  | exec i c l sc t h => exact exec_nodes (s := { s with ctx := c, sched := l, scripts := sc }) hR h
  | symbol j x xs l he _ =>
    exact carrySym_nodes (s := { s with sched := l, bus := { s.bus with pending := xs } }) hR he x
  | undecoded c l k =>
    exact .mapStatus { s with ctx := c, sched := l } k hR.refl (fun n => hR.refused n _)

/-! ### Master engines before and after -/

/-- What a step can make of a node's master engine and of its caller's memory. -/
inductive MasterChange (p : Params) (m : Master) : Master → Prop where
  | raised (c : FaultCode) : MasterChange p m (m.mapStatus (Status.addFault c))
  | refused (r : RefuseReason) : MasterChange p m (m.mapStatus (Status.refuse r))
  | begin_ (rw : Bool) (a : Byte) (buf : BufRef) (len : Nat) : m.call = none →
      lengthOk p buf len = true → m.inFlight = false →
      MasterChange p m { m.callStep p .start { Call.start rw a buf len with phase := .waitStart } with
        mem := m.mem }
  | call (d : Nat) (a : MAct) (c c' : Call) : m.call = some c → Planned m.mem c a c' →
      (actIssues a = true → m.inFlight = false) →
      MasterChange p m { m.callStep p a c' with mem := c'.memAfter d a m }
  | complete (st d : Byte) : m.inFlight = true → MasterChange p m (m.completeOp st d)

/-- R holds between the master engine of every node of one state and that of the same node of another,
and the same nodes hold one. -/
def MastersRel (R : Master → Master → Prop) (l l' : List (Option Master)) : Prop :=
  l'.length = l.length ∧
  ∀ j : Nat, (l[j]? = some none → l'[j]? = some none) ∧
    ∀ m, l[j]? = some (some m) → ∃ m', l'[j]? = some (some m') ∧ R m m'

theorem MastersRel.same {R : Master → Master → Prop} (refl : ∀ m, R m m) (l : List (Option Master)) :
    MastersRel R l l := ⟨rfl, fun _ => ⟨id, fun m hm => ⟨m, hm, refl m⟩⟩⟩

theorem MastersRel.putMaster {R : Master → Master → Prop} {s : State} {m m' : Master}
    (hm : s.master? = some m) (refl : ∀ m, R m m) (h : R m m') :
    MastersRel R s.masters (s.putMaster m').masters := by
  obtain ⟨hm, hlt⟩ := State.masters_lt hm
  refine ⟨by simp, fun j => ?_⟩
  simp only [State.putMaster_masters, List.getElem?_set]
  by_cases hj : s.ctx.node = j
  · subst hj
    simp only [if_true, hlt]
    refine ⟨fun hn => ?_, fun x hx => ⟨m', rfl, ?_⟩⟩
    · rw [hm] at hn; cases hn
    · rw [hm] at hx; cases hx; exact h
  · simp only [if_neg hj]
    exact ⟨id, fun x hx => ⟨x, hx, refl x⟩⟩

theorem MastersRel.mapStatus {R : Master → Master → Prop} (s : State) (k : Inst) {f : Status → Status}
    (refl : ∀ m, R m m) (hf : ∀ m, R m (m.mapStatus f)) :
    MastersRel R s.masters (s.mapStatus k f).masters := by
  cases k with
  | master i =>
    refine ⟨by simp [State.mapStatus, modifyMaster], fun j => ?_⟩
    simp only [State.mapStatus, modifyMaster, List.getElem?_modify]
    refine ⟨fun h => by rw [h]; split <;> rfl, fun m h => ?_⟩
    rw [h]
    split
    · exact ⟨_, rfl, hf m⟩
    · exact ⟨_, rfl, refl m⟩
  | _ => exact .same refl _

/-- A relation that is reflexive and holds over every change of a master holds over an operation. -/
theorem exec_masters {s t : State} {i : Instr} {R : Master → Master → Prop} (refl : ∀ m, R m m)
    (hR : ∀ m m', MasterChange s.cfg m m' → R m m') (h : ExecNext i s t) :
    MastersRel R s.masters t.masters := by
  cases h with
  | refused c _ => exact .mapStatus s _ refl (fun m => hR m _ (.refused _))
  | raised c => exact .mapStatus s _ refl (fun m => hR m _ (.raised _))
  | wire bits _ _ _ =>
    obtain ⟨vs, -, h2⟩ := State.wireBits_frame bits s
    rw [h2]
    exact .same refl _
  | begin_ rw a buf len m _ hm hc hl hf => exact .putMaster hm refl (hR _ _ (.begin_ rw a buf len hc hl hf))
  | call a c c' m _ hm hc hp hf _ _ =>
    exact .putMaster hm refl (hR _ _ (.call s.draws a c c' hc (Call.plan_cases hp) hf))
  | complete st d m _ hm hf => exact .putMaster hm refl (hR _ _ (.complete st d hf))
  | _ => exact .same refl _

/-- The same over a step. -/
theorem step_masters {s t : State} {R : Master → Master → Prop} (refl : ∀ m, R m m)
    (hR : ∀ m m', MasterChange s.cfg m m' → R m m') (h : step s = .next t) :
    MastersRel R s.masters t.masters := by
  cases step_next h with
  | sched l => exact .same refl _
  | exec i c l sc t h => exact exec_masters (s := { s with ctx := c, sched := l, scripts := sc }) refl hR h
  | symbol j x xs l _ _ => rw [State.carrySym_frame]; exact .same refl _
  | undecoded c l k =>
    exact .mapStatus { s with ctx := c, sched := l } k refl (fun m => hR m _ (.refused _))

/-! ### Stand-alone rings before and after -/

/-- R holds between every stand-alone ring of one state and the ring of that number of another. -/
def RingsRel (R : Standalone → Standalone → Prop) (s t : State) : Prop :=
  ∀ q r, s.ring? q = some r → ∃ r', t.ring? q = some r' ∧ R r r'

theorem RingsRel.same {R : Standalone → Standalone → Prop} (refl : ∀ r, R r r) {s t : State}
    (h : t.rings = s.rings) : RingsRel R s t := by
  intro q r hr
  exact ⟨r, by rw [State.ring?, h]; exact hr, refl r⟩

/-- The number by which a ring is found is its own. -/
theorem State.ring?_q {s : State} {q : Nat} {r : Standalone} (h : s.ring? q = some r) : r.q = q := by
  simpa using List.find?_some h

theorem RingsRel.mapStatus {R : Standalone → Standalone → Prop} (s : State) (k : Inst)
    {f : Status → Status} (refl : ∀ r, R r r) (hf : ∀ r, R r { r with status := f r.status }) :
    RingsRel R s (s.mapStatus k f) := by
  cases k with
  | ring i =>
    intro q r hr
    have h := find?_modifyRing s.rings i q (fun r => { r with status := f r.status }) (fun _ => rfl)
    simp only [State.ring?] at hr
    simp only [State.ring?, State.mapStatus, h, hr, Option.map_some]
    refine ⟨_, rfl, ?_⟩
    split
    · exact hf r
    · exact refl r
  | _ => exact .same refl rfl

theorem RingsRel.putRing {R : Standalone → Standalone → Prop} {s : State} {q : Nat} {r r' : Standalone}
    (hr : s.ring? q = some r) (hq : r'.q = q) (refl : ∀ r, R r r) (h : R r r') :
    RingsRel R s (s.putRing r') := by
  intro p x hx
  simp only [State.ring?, State.putRing_rings, modifyRing, List.find?_map] at hx hr ⊢
  have hc : ((fun x : Standalone => x.q == p) ∘ fun x => if x.q == r'.q then r' else x) =
      fun x : Standalone => x.q == p := by
    funext y
    simp only [Function.comp]
    split
    · next hy => simp at hy; simp [hy]
    · rfl
  rw [hc, hx]
  refine ⟨_, rfl, ?_⟩
  dsimp only
  split
  · next hy =>
    have h1 : x.q = p := by simpa using List.find?_some hx
    have h2 : p = q := by rw [← h1]; simpa [hq] using hy
    subst h2
    rw [hr] at hx
    cases hx
    exact h
  · exact refl x

/-- A relation that is reflexive and holds over every change of a ring and of its record holds over an
operation. -/
theorem exec_rings {s t : State} {i : Instr} {R : Standalone → Standalone → Prop} (refl : ∀ r, R r r)
    (raised : ∀ r c, R r { r with status := Status.addFault c r.status })
    (refused : ∀ r c, R r { r with status := Status.refuse c r.status })
    (change : ∀ r r', RingChange r r' → R r r') (h : ExecNext i s t) : RingsRel R s t := by
  cases h with
  | refused c _ => exact .mapStatus s _ refl (fun r => refused r _)
  | raised c => exact .mapStatus s _ refl (fun r => raised r _)
  | wire bits _ _ _ =>
    obtain ⟨vs, -, h2⟩ := State.wireBits_frame bits s
    rw [h2]
    exact .same refl rfl
  | ring q r r' _ hr hc =>
    refine .putRing hr ?_ refl (change _ _ hc)
    rw [← State.ring?_q hr]
    cases hc <;> rfl
  | newRing q l d _ _ _ _ =>
    intro p r hr
    simp only [State.ring?] at hr
    exact ⟨r, by simp [State.ring?, List.find?_append, hr], refl r⟩
  | _ => exact .same refl rfl

/-- The same over a step. -/
theorem step_rings {s t : State} {R : Standalone → Standalone → Prop} (refl : ∀ r, R r r)
    (raised : ∀ r c, R r { r with status := Status.addFault c r.status })
    (refused : ∀ r c, R r { r with status := Status.refuse c r.status })
    (change : ∀ r r', RingChange r r' → R r r') (h : step s = .next t) : RingsRel R s t := by
  cases step_next h with
  | sched l => exact .same refl rfl
  | exec i c l sc t h =>
    exact exec_rings (s := { s with ctx := c, sched := l, scripts := sc }) refl raised refused change h
  | symbol j x xs l _ _ => rw [State.carrySym_frame]; exact .same refl rfl
  | undecoded c l k =>
    exact .mapStatus { s with ctx := c, sched := l } k refl (fun r => refused r _)

/-! ### The callers' memories before and after -/

/-- A caller's memory after an operation: as before, or, for the issuing node's, as the call's data read
or stop leaves it. -/
theorem exec_mem {s t : State} {i : Instr} {j : Nat} {m m' : Master} (h : ExecNext i s t)
    (hm : s.masterAt j = some m) (hm' : t.masterAt j = some m') :
    m'.mem = m.mem ∨ j = s.ctx.node ∧ ∃ a c c', m.call = some c ∧ Planned m.mem c a c' ∧
      (a = .readData ∧ i = .mhReadData ∨ a = .stop ∧ i = .mhStop) ∧
      m'.mem = c'.memAfter s.draws a m := by
  have same : t.masters = s.masters → m'.mem = m.mem := fun e => by
    rw [State.masterAt, e] at hm'
    rw [State.masterAt, hm'] at hm
    cases hm
    rfl
  have put : ∀ x y : Master, s.master? = some x → t.masters = (s.putMaster y).masters →
      m'.mem = m.mem ∨ j = s.ctx.node ∧ m = x ∧ m' = y := fun x y hx e => by
    by_cases hj : s.ctx.node = j
    · subst hj
      have hy : (s.putMaster y).masters[s.ctx.node]?.join = some y := State.master?_putMaster hx
      rw [← e] at hy
      rw [State.masterAt, hy] at hm'
      rw [State.master?, hm] at hx
      cases hx; cases hm'
      exact .inr ⟨rfl, rfl, rfl⟩
    · left
      rw [State.masterAt, e, State.putMaster_masters, List.getElem?_set_ne hj] at hm'
      rw [State.masterAt, hm'] at hm
      cases hm
      rfl
  have status : ∀ k f, t = s.mapStatus k f → m'.mem = m.mem := fun k f e => by
    have hl := (State.masters_lt hm).1
    have hl' := (State.masters_lt hm').1
    obtain ⟨x, hx, hr⟩ := ((MastersRel.mapStatus (R := fun m m' => m'.mem = m.mem) s k
      (fun _ => rfl) (fun _ => rfl)).2 j).2 m hl
    rw [← e, hl'] at hx
    cases hx
    exact hr
  cases h with
  | refused c _ => exact .inl (status _ _ rfl)
  | raised c => exact .inl (status _ _ rfl)
  | wire bits _ _ _ =>
    obtain ⟨vs, -, h2⟩ := State.wireBits_frame bits s
    exact .inl (same (by rw [h2]))
  | begin_ rw a buf len x _ hx _ _ _ =>
    rcases put x _ hx rfl with h | ⟨-, rfl, rfl⟩
    · exact .inl h
    · exact .inl rfl
  | complete st d x _ hx _ =>
    rcases put x _ hx rfl with h | ⟨-, rfl, rfl⟩
    · exact .inl h
    · exact .inl rfl
  | call a c c' x _ hx hc hp _ hr hs =>
    rcases put x _ hx rfl with h | ⟨hj, rfl, rfl⟩
    · exact .inl h
    · by_cases h1 : a = .readData
      · exact .inr ⟨hj, a, c, c', hc, Call.plan_cases hp, .inl ⟨h1, hr h1⟩, rfl⟩
      · by_cases h2 : a = .stop
        · exact .inr ⟨hj, a, c, c', hc, Call.plan_cases hp, .inr ⟨h2, hs h2⟩, rfl⟩
        · exact .inl (Call.memAfter_eq _ c' m h1 h2)
  | _ => exact .inl (same rfl)

end Sys2Proof.Machine
end

