-- ==== Sys2Proof/Laws/Legal.lean ====
section
/-! SUPPORT. What keeps a node's registers legal (10_state.md R62) and in step with eng.state
(42_slave_engine.md R213): the handlers, a bit slot, and every change an operation makes of a node; and
that a step of a legal call leaves a legal call. -/

namespace Sys2Proof.Machine

/-! ### Legal registers -/

theorem Slave.wf_sendDataLogic {p : Params} {n : Slave} (h : n.wf p) (he : n.enabled = true) :
    n.sendDataLogic.wf p := by
  obtain ⟨h1, h2, -, -, h5, h6, h7⟩ := h
  rcases n.sendDataLogic_cases with ⟨b, tx, hp, h⟩ | ⟨tx, hp, h⟩ <;> rw [h]
  · refine ⟨h1, fun hh => ?_, by simp, by simp, h5, h6, by simp [he]⟩
    have := Ring.wf_pop (h2 hh)
    rwa [hp] at this
  · exact ⟨h1, h2, by simp, by simp, h5, h6, h7⟩

theorem Slave.wf_shiftHandler {p : Params} {n : Slave} (h : n.wf p) (he : n.enabled = true) :
    n.shiftHandler.wf p := by
  obtain ⟨h1, h2, h3, h4, h5, h6, h7⟩ := id h
  unfold Slave.shiftHandler
  split
  · exact h
  · unfold Slave.onAddress
    dsimp only
    split
    · refine ⟨h1, h2, by simp [Slave.goto], ?_, h5, h6, h7⟩
      simp only [Slave.goto]
      split <;> simp
    · exact ⟨h1, h2, by simp, by simp, h5, h6, h7⟩
  · exact ⟨h1, h2, by simp [Slave.onSendAck], by simp [Slave.onSendAck], h5, h6, h7⟩
  · cases hf : n.rx.isFull
    · rw [Slave.onData_of_room hf]
      exact ⟨fun hh => Ring.wf_push (h1 hh) _, h2, by simp, by simp, h5, h6, by simp [he]⟩
    · rw [Slave.onData_of_full hf]
      exact ⟨h1, h2, by simp, by simp, h5, h6, h7⟩
  · exact Slave.wf_sendDataLogic h he
  · exact ⟨h1, h2, by simp [Slave.onRequestAck], by simp [Slave.onRequestAck], h5, h6, h7⟩
  · unfold Slave.onWaitAck
    dsimp only
    split
    · exact ⟨h1, h2, by simp, by simp, h5, h6, h7⟩
    · exact Slave.wf_sendDataLogic (n := n.readSr) h he
  · contradiction

theorem NodeChange.wf {p : Params} {n m : Slave} (hc : NodeChange p n m) (h : n.wf p) : m.wf p := by
  obtain ⟨h1, h2, h3, h4, h5, h6, h7⟩ := id h
  cases hc with
  | start he => exact ⟨h1, h2, by simp, by simp, h5, h6, h7⟩
  | shift free w _ he ha =>
    unfold Slave.evShift
    rw [if_neg h4]
    exact Slave.wf_shiftHandler ⟨h1, h2, by simp, h4, h5, h6, h7⟩ he
  | init a ha =>
    refine ⟨h1, h2, by simp, by simp, fun _ => ?_, h6, by simp⟩
    simp only [Slave.initEngine_own]
    intro h0
    have := congrArg BitVec.toNat h0
    simp [ownAddressOk, toAddr7] at ha this
    omega
  | pushRx x r he => exact ⟨fun hh => Ring.wf_push (h1 hh) _, h2, h3, h4, h5, h6, by simp [he]⟩
  | pushTx x r =>
    exact ⟨h1, fun hh => Ring.wf_push (h2 hh) _, h3, h4, h5, h6, fun he => by simpa using h7 he⟩
  | popRx r =>
    refine ⟨fun hh => Ring.wf_pop (h1 hh), h2, h3, h4, h5, h6, fun he => ?_⟩
    simpa [Ring.pop_of_empty (Ring.isEmpty_iff.2 (h7 he).1)] using h7 he
  | popTx r he => exact ⟨h1, fun hh => Ring.wf_pop (h2 hh), h3, h4, h5, h6, by simp [he]⟩
  | createRx l _ hl => exact ⟨fun _ => Ring.wf_created hl, h2, h3, h4, h5, h6, fun he => ⟨rfl, (h7 he).2⟩⟩
  | createTx l _ hl => exact ⟨h1, fun _ => Ring.wf_created hl, h3, h4, h5, h6, fun he => ⟨(h7 he).1, rfl⟩⟩
  | _ => exact h

theorem BareChange.wf {p : Params} {n m : Slave} (hc : BareChange n m) (h : n.wf p) : m.wf p := by
  obtain ⟨h1, h2, h3, h4, h5, h6, h7⟩ := id h
  cases hc with
  | armShift k hk => exact ⟨h1, h2, by simp; omega, h4, h5, h6, h7⟩
  | rearmStart => exact ⟨h1, h2, by simp, h4, h5, h6, h7⟩
  | _ => exact h

theorem Slave.wf_busSlot {p : Params} {n : Slave} (v : Bool) (h : n.wf p) : (n.busSlot v).wf p := by
  obtain ⟨h1, h2, h3, h4, h5, h6, h7⟩ := id h
  rcases n.busSlot_cases v with e | ⟨he, _, ⟨_, h', e⟩ | ⟨_, h', e⟩ | ⟨_, e⟩⟩ <;> rw [e]
  · exact h
  · exact h
  · exact Slave.wf_shiftHandler ⟨h1, h2, by simp, h4, h5, h6, h7⟩ he
  · exact ⟨h1, h2, by simp; omega, h4, h5, h6, h7⟩

/-- Every change of a node keeps its registers legal. -/
theorem NodeRel.legal (p : Params) : NodeRel p (fun n m => n.wf p → m.wf p) where
  refl _ := id
  raised _ _ := fun ⟨h1, h2, h3, h4, h5, h6, h7⟩ => ⟨h1, h2, h3, h4, h5, nodup_addFault h6, h7⟩
  refused _ _ := id
  change _ _ := NodeChange.wf
  bare _ _ _ _ := BareChange.wf
  busStart _ n := by
    unfold Slave.busStart
    split
    · rintro ⟨h1, h2, h3, h4, h5, h6, h7⟩; exact ⟨h1, h2, by simp, by simp, h5, h6, h7⟩
    · exact id
  busSlots _ n vs := by
    exact busSlots_of (R := fun n m => n.wf p → m.wf p) (fun _ => id) (fun _ _ _ h k => k ∘ h)
      (fun _ v => Slave.wf_busSlot v) vs n

/-! ### In step with eng.state -/

theorem Slave.inStepOnWire_of_inStep {n : Slave} (h : n.inStep) : n.inStepOnWire := by
  unfold Slave.inStep at h
  unfold Slave.inStepOnWire
  split <;> simp_all

theorem Slave.inStep_sendDataLogic (n : Slave) : n.sendDataLogic.inStep := by
  rcases n.sendDataLogic_cases with ⟨b, tx, hp, h⟩ | ⟨tx, hp, h⟩ <;> rw [h] <;> simp [Slave.inStep]

/-- Every handler but the no-op of WaitForStart leaves the HAL as R213's table has it. -/
theorem Slave.inStep_shiftHandler {n : Slave} (h : n.state ≠ .waitForStart) (h' : n.state ≠ .corrupt) :
    n.shiftHandler.inStep := by
  unfold Slave.shiftHandler
  split
  · contradiction
  · unfold Slave.onAddress
    dsimp only
    split
    · cases hb : n.sr.getLsbD 0 <;> simp only [if_true, Bool.false_eq_true, if_false] <;>
        simp [Slave.inStep, Slave.goto]
    · simp [Slave.inStep]
  · simp [Slave.inStep, Slave.onSendAck]
  · cases hf : n.rx.isFull
    · rw [Slave.onData_of_room hf]; simp [Slave.inStep]
    · rw [Slave.onData_of_full hf]; simp [Slave.inStep]
  · exact Slave.inStep_sendDataLogic n
  · simp [Slave.inStep, Slave.onRequestAck]
  · unfold Slave.onWaitAck
    dsimp only
    split
    · simp [Slave.inStep]
    · exact Slave.inStep_sendDataLogic _
  · contradiction

/-! ### Legal masters -/

/-- A step of a legal call leaves a legal call, or none (R51, R175). -/
theorem Planned.callStep_wf {p : Params} {mem : Memory} {m : Master} {a : MAct} {c c' : Call}
    (h : m.registersWf p) (hc : m.call = some c) (hp : Planned mem c a c')
    (hf : actIssues a = true → m.inFlight = false) : (m.callStep p a c').registersWf p := by
  obtain ⟨hn, hfly, hcall⟩ := h
  obtain ⟨hw, hpoll, hnpoll⟩ := hcall c hc
  obtain ⟨w0, w1, w2, w3, w4, w5, w6⟩ := id hw
  -- what a master with the call d has to satisfy
  have legal : ∀ (m' : Master) (d : Call), m'.status = m.status → m'.call = some d → d.wf p →
      (m'.inFlight = true → d.pos = .poll) →
      (d.pos = .poll → m'.inFlight = true ∨ m'.complete = true) →
      (d.pos ≠ .poll → m'.complete = true) → m'.registersWf p := by
    intro m' d e1 e2 h1 h2 h3 h4
    refine ⟨e1 ▸ hn, fun h => ⟨d, e2, h2 h⟩, fun x hx => ?_⟩
    rw [e2] at hx
    cases hx
    exact ⟨h1, h3, h4⟩
  -- a step that issues an operation leaves the call polling
  have issued : ∀ (m' : Master) (d : Call) (op : MhOp), m'.status = m.status → m'.call = some d →
      op ≠ .none → m'.op = op → m'.complete = false → d.pos = .poll → d.wf p → m'.registersWf p :=
    fun m' d op e1 e2 h1 h2 h3 h4 h5 => legal m' d e1 e2 h5 (fun _ => h4)
      (fun _ => .inl (by simp [Master.inFlight, h2, h3, h1])) (fun h => absurd h4 h)
  -- a step that ends the call leaves nothing in flight
  have ended : ∀ m' : Master, m'.status = m.status → m'.call = none → m'.inFlight = false → m'.registersWf p :=
    fun m' e1 e2 h => ⟨e1 ▸ hn, fun h' => (by rw [h] at h'; cases h'), fun x hx => (by rw [e2] at hx; cases hx)⟩
  -- past the poll nothing is in flight
  have quiet : c.pos ≠ .poll → m.inFlight = false := fun h => by
    cases hi : m.inFlight
    · rfl
    · obtain ⟨x, hx, hx'⟩ := hfly hi
      rw [hc] at hx; cases hx
      exact absurd hx' h
  have datawf : ∀ ph j, (ph = .waitData ∨ ph = c.phase ∧ c.pos = .stored) → j < c.len →
      Call.wf p { c with phase := ph, i := j, pos := .poll } := by
    intro ph j h1 h2
    have hph : ph = .waitData := by
      rcases h1 with h | ⟨h, h'⟩
      · exact h
      · rw [h]; exact (w6 (.inr h')).2
    subst hph
    exact ⟨by simp, by simp, w2, w3, fun _ => h2, fun h => by simp at h, by simp⟩
  cases hp with
  | start hpos => exact absurd hpos w0
  | poll hpos =>
    refine legal _ { c with pos := if m.complete then c.afterPoll else .poll } (by simp [Master.callStep])
      rfl ⟨?_, w1, w2, w3, w4, w5, ?_⟩ ?_ (fun _ => hpoll hpos) ?_
    · dsimp only; unfold Call.afterPoll
      split <;> [split; skip] <;> simp
    · dsimp only
      cases m.complete
      · simp
      · unfold Call.afterPoll
        by_cases hb : (c.rw && c.phase == .waitData && !c.nonFinal) = true
        · simp only [Bool.and_eq_true, beq_iff_eq] at hb
          exact fun _ => hb.1
        · simp only [if_true, if_neg hb]; simp
    · intro h
      have : m.complete = false := by
        have h' : m.inFlight = true := h
        simp only [Master.inFlight, Bool.and_eq_true, Bool.not_eq_true'] at h'
        exact h'.2
      simp [this]
    · intro h
      show m.complete = true
      revert h
      dsimp only
      cases m.complete <;> simp
  | status hpos =>
    have hco := hnpoll (by simp [hpos])
    have hq := quiet (by simp [hpos])
    simp only [Master.callStep]
    split
    · exact legal _ { c with pos := .good } (by simp) rfl ⟨by simp, w1, w2, w3, w4, w5, by simp⟩
        (fun h => (Bool.false_ne_true (hq.symm.trans h)).elim) (by simp) (fun _ => hco)
    · split
      · exact legal _ { c with pos := .fail c.failCode } (by simp) rfl
          ⟨by simp, w1, w2, w3, w4, w5, by simp⟩
          (fun h => (Bool.false_ne_true (hq.symm.trans h)).elim) (by simp) (fun _ => hco)
      · exact ended _ (by simp) rfl hq
  | readData hpos =>
    have hne : c.pos ≠ .poll := by rcases hpos with h | ⟨h, _⟩ <;> simp [h]
    have hrw : c.rw = true ∧ c.phase = .waitData := by
      rcases hpos with h | ⟨_, h1, h2⟩
      · exact w6 (.inl h)
      · exact ⟨h2, h1⟩
    exact legal _ { c with pos := .stored } (by simp [Master.callStep]) rfl
      ⟨by simp, w1, w2, w3, w4, w5, fun _ => hrw⟩
      (fun h => (Bool.false_ne_true ((quiet hne).symm.trans h)).elim) (by simp)
      (fun _ => hnpoll hne)
  | address hpos hph =>
    exact issued _ { c with phase := .waitAddr, pos := .poll } .write (by simp [Master.callStep]) rfl
      (by simp) rfl rfl rfl ⟨by simp, by simp, w2, w3, by simp, fun _ => w5 (by simp [hph]), by simp⟩
  | data a ph j ha hph hj hpos =>
    subst ha
    have hd := datawf ph j hph hj
    rcases Call.dataAct_cases mem { c with phase := ph, i := j } with ⟨v, ha⟩ | ha | ha <;> rw [ha]
    · exact issued _ { c with phase := ph, i := j, pos := .poll } .write (by simp [Master.callStep]) rfl
        (by simp) rfl rfl rfl hd
    · exact issued _ { c with phase := ph, i := j, pos := .poll } .readAck (by simp [Master.callStep]) rfl
        (by simp) rfl rfl rfl hd
    · exact issued _ { c with phase := ph, i := j, pos := .poll } .readNack (by simp [Master.callStep]) rfl
        (by simp) rfl rfl rfl hd
  | stop rc j h => exact ended _ (by simp [Master.callStep]) rfl rfl

/-- Every change of a master instance keeps its registers and its caller's memory legal. -/
theorem MasterChange.wf {p : Params} {m m' : Master} (hc : MasterChange p m m') (h : m.wf p) :
    m'.wf p := by
  obtain ⟨hw, hn, hfly, hcall⟩ := id h
  cases hc with
  | raised c => exact ⟨hw, nodup_addFault hn, hfly, hcall⟩
  | refused r => exact h
  | begin_ rw a buf len hno hl hq =>
    simp only [lengthOk, Bool.and_eq_true, decide_eq_true_eq] at hl
    refine ⟨hw, hn, fun _ => ⟨_, rfl, rfl⟩, fun x hx => ?_⟩
    cases hx
    exact ⟨⟨nofun, .inl rfl, hl.1, hl.2, nofun, fun _ => rfl, by simp⟩, fun _ => .inl rfl, fun h => absurd rfl h⟩
  | call d a c c' hc hp hf => exact ⟨Call.memAfter_wf hw d a c', hp.callStep_wf h.2 hc hf⟩
  | complete st d hi =>
    refine ⟨hw, hn, fun h' => ?_, fun x hx => ?_⟩
    · simp [Master.inFlight] at h'
    · exact ⟨(hcall x hx).1, fun _ => .inr rfl, fun _ => rfl⟩

end Sys2Proof.Machine
end

