-- ==== Sys2Proof/Laws/PerInstr.lean ====
section
/-! SUPPORT. Facts of every instruction as syntax, one lemma per constructor. RecordShape: an operation
word's record has the length the word fixes (30_encoding.md R112, R123), and a wire row has none. -/

namespace Sys2Proof.Laws.RecordShape

/-- "the record's shape is fixed by the word" (R123): an encoded operation's record has the word's
arity, and a wire row has no record. -/
def Statement (i : Instr) : Prop :=
  (encode i).fields.length = match (encode i).fmt with
    | .opword => arity (encode i).bits
    | .addrByte | .masterAddrByte | .ackBit => 0

theorem evStart : Statement .evStart := rfl

theorem evShift (w : Byte) : Statement (.evShift w) := rfl

theorem evOther : Statement .evOther := rfl

theorem initEngine (a : Byte) : Statement (.initEngine a) := rfl

theorem sendChar (b : Byte) : Statement (.sendChar b) := rfl

theorem charAvailable : Statement .charAvailable := rfl

theorem receiveChar : Statement .receiveChar := rfl

theorem sleep : Statement .sleep := rfl

theorem rbInit (q : Nat) (n : Nat) : Statement (.rbInit q n) := rfl

theorem rbPush (q : Nat) (x : Nat) : Statement (.rbPush q x) := rfl

theorem rbPop (q : Nat) : Statement (.rbPop q) := rfl

theorem rbHasData (q : Nat) : Statement (.rbHasData q) := rfl

theorem mTransmit (a : Byte) (buf : BufRef) (len : Nat) : Statement (.mTransmit a buf len) := by
  obtain ⟨base, size⟩ := buf
  cases size <;> rfl

theorem mReceive (a : Byte) (out : BufRef) (len : Nat) : Statement (.mReceive a out len) := by
  obtain ⟨base, size⟩ := out
  cases size <;> rfl

theorem armShift (k : Nat) : Statement (.armShift k) := rfl

theorem setLineDriven (d : Bool) : Statement (.setLineDriven d) := rfl

theorem readSr : Statement .readSr := rfl

theorem writeSr (v : Byte) : Statement (.writeSr v) := rfl

theorem rearmStart : Statement .rearmStart := rfl

theorem mhStart : Statement .mhStart := rfl

theorem mhWrite (v : Byte) : Statement (.mhWrite v) := rfl

theorem mhReadAck : Statement .mhReadAck := rfl

theorem mhReadNack : Statement .mhReadNack := rfl

theorem mhStop : Statement .mhStop := rfl

theorem mhPoll : Statement .mhPoll := rfl

theorem mhStatus : Statement .mhStatus := rfl

theorem mhReadData : Statement .mhReadData := rfl

theorem envMComplete (st : Byte) (d : Byte) : Statement (.envMComplete st d) := rfl

theorem addrGeneralCall : Statement .addrGeneralCall := rfl

theorem addrOwnWrite (a : Addr7) : Statement (.addrOwnWrite a) := rfl

theorem addrOwnRead (a : Addr7) : Statement (.addrOwnRead a) := rfl

theorem addrNoMatch (a : Addr7) (rw : Bool) : Statement (.addrNoMatch a rw) := rfl

theorem masterAddrWrite (a : Addr7) : Statement (.masterAddrWrite a) := rfl

theorem masterAddrRead (a : Addr7) : Statement (.masterAddrRead a) := rfl

theorem wireAck : Statement .wireAck := rfl

theorem wireNack : Statement .wireNack := rfl

end Sys2Proof.Laws.RecordShape
end

