-- ==== Sys2Proof/Tests/Slice0.lean ====
section
/-! SUPPORT. Tests: the well-formedness smoke, words written out from 30_encoding.md, one-step vectors of
95_test_vectors.md (named V, H, S, F, M, B, W there), and for each obligation with hypotheses a state
and operands that meet them. Expected results are the spec's. -/

namespace Sys2Proof.Tests

open Sys2Proof Sys2Proof.Machine

/-! ## Small states -/

/-- A slave node right after its creation with RX_N = TX_N = 4. -/
def fresh : Slave := Slave.created Params.default 4 4

/-- The same with own address 0x21, INITIALIZE done. -/
def node (st : SlaveState) (armed : Nat) (driven : Bool) : Slave :=
  { fresh with state := st, armed := armed, driven := driven, own := 0x21, enabled := true }

/-- Agent a acts on the one node n. -/
def on (n : Slave) (a : Agent) : State :=
  { State.reset with slaves := [n], masters := [none], ctx := ⟨a, 0⟩ }

/-- Agent a acts on the master m; its node has a slave engine too, awake. -/
def with_ (m : Master) (a : Agent) : State :=
  { State.reset with masters := [some m], ctx := ⟨a, 0⟩ }

/-- A node that holds a master engine and no slave engine. -/
def masterOnly (a : Agent) : State := { State.reset with slaves := [], ctx := ⟨a, 0⟩ }

/-- The same state under another environment. -/
def under (e : Env) (s : State) : State := { s with cfg := { s.cfg with env := e } }

/-- A ring of bytes with the given capacity and indices. -/
def ring (n r w : Nat) (xs : List Byte) : Machine.Ring Byte := ⟨n, r, w, xs⟩

/-- A stand-alone ring 2 in the state. -/
def onRing (r : Machine.Ring Nat) (a : Agent) : State :=
  { State.reset with rings := [⟨2, r, Status.clean, []⟩], ctx := ⟨a, 0⟩ }

/-- What is seen of the next state. -/
def got {α : Type} (o : Out) (f : State → α) : Option α :=
  match o with
  | .next t    => some (f t)
  | .fault _   => none
  | .refused _ => none

/-- Why there is no next state. -/
def stop (o : Out) : Option Machine.Fault :=
  match o with
  | .fault f => some f
  | _        => none

/-- The columns of the vectors' tables: state after, armed, driven, trace. -/
structure Seen where
  state  : SlaveState
  armed  : Nat
  driven : Bool
  trace  : List SAct
  deriving DecidableEq, Repr

def seen (n : Slave) : Seen := ⟨n.state, n.armed, n.driven, n.trace⟩

/-- The one node after the operation, under the environment e. -/
def afterIn (e : Env) (i : Instr) (n : Slave) (a : Agent) : Option Slave :=
  (got (exec i (under e (on n a))) (·.node?)).join

def after (i : Instr) (n : Slave) (a : Agent) : Option Slave := afterIn .events i n a

/-- The master after the operation. -/
def masterAfter (i : Instr) (m : Master) (a : Agent) : Option Master :=
  (got (exec i (with_ m a)) (·.master?)).join

/-- A master whose caller has the bytes 1 and 2 at 16. -/
def loaded : Master := { Master.created with mem := [(16, 0x01), (17, 0x02)] }

/-- A master whose call stands at the given position, its last operation complete with status st. -/
def calling (c : Call) (st : Byte) : Master :=
  { loaded with call := some c, complete := true, mhStatus := st }

/-- transmit(5, [1, 2], 2) and receive(5, out, 3), both with their buffer at 16. -/
def tx5 (ph : Phase) (i : Nat) (pos : CallPos) : Call := ⟨ph, false, 5, 2, i, 0, ⟨16, some 2⟩, pos⟩
def rx5 (ph : Phase) (i : Nat) (pos : CallPos) : Call := ⟨ph, true, 5, 3, i, 0, ⟨16, some 3⟩, pos⟩

/-- A master that polls for the operation op, in flight. -/
def flying (op : MhOp) : Master :=
  { loaded with op := op, call := some (rx5 .waitData 0 .poll) }

/-! ## Well-formedness: an ill-formed term for each check of R119 -/

theorem test_wf_word : (Instr.rbPush 1 256).wellFormed Params.default = false := by decide
theorem test_wf_k : (Instr.armShift 3).wellFormed Params.default = false := by decide
theorem test_wf_cfg : (Instr.rbInit 2 300).wellFormed Params.default = false ∧
    (Instr.rbInit 2 0).wellFormed Params.default = false ∧
    (on { fresh with rx := ring 0 0 0 [] } .slaveFg).failedCheck .charAvailable = some .cfg := by decide
theorem test_wf_buf : (Instr.mTransmit 5 ⟨16, none⟩ 1).wellFormed Params.default = false ∧
    (Instr.mReceive 5 ⟨16, none⟩ 1).wellFormed Params.default = false := by decide
theorem test_wf_ring : (on (node .waitForStart 0 false) (.ringConsumer 7)).failedCheck (.rbPop 7) =
    some .ring := by decide
theorem test_wf_agent : (on (node .waitForStart 0 false) .isr).failedCheck (.rbPush 1 0) =
    some .agent := by decide
theorem test_wf_accepts : (Instr.rbInit 2 256).wellFormed Params.default = true ∧
    (Instr.rbPush 0 255).wellFormed Params.default = true ∧
    (Instr.armShift 8).wellFormed Params.default = true ∧
    (Instr.mTransmit 255 ⟨0, some 0⟩ 9).wellFormed Params.default = true := by decide

/-! ## Decoding: the words of R114 and the bytes of R101, R104, R105, written out in bits -/

theorem test_decode_events : decodeOp 0b00000000 [] = .ok .evStart ∧
    decodeOp 0b00000001 [0x42] = .ok (.evShift 0x42) ∧ decodeOp 0b00000010 [] = .ok .evOther := by decide
theorem test_decode_slave_api : decodeOp 0b00010000 [0x21] = .ok (.initEngine 0x21) ∧
    decodeOp 0b00010001 [0xA1] = .ok (.sendChar 0xA1) ∧
    decodeOp 0b00010010 [] = .ok .charAvailable ∧ decodeOp 0b00010011 [] = .ok .receiveChar ∧
    decodeOp 0b00010100 [] = .ok .sleep := by decide
theorem test_decode_rings : decodeOp 0b00100000 [2, 4] = .ok (.rbInit 2 4) ∧
    decodeOp 0b00100001 [2, 300] = .ok (.rbPush 2 300) ∧ decodeOp 0b00100010 [0] = .ok (.rbPop 0) ∧
    decodeOp 0b00100011 [1] = .ok (.rbHasData 1) := by decide
theorem test_decode_master_api :
    decodeOp 0b00110000 [5, 16, 0, 2, 2] = .ok (.mTransmit 5 ⟨16, some 2⟩ 2) ∧
    decodeOp 0b00110001 [5, 16, 0, 3, 3] = .ok (.mReceive 5 ⟨16, some 3⟩ 3) ∧
    decodeOp 0b00110001 [5, 16, 1, 0, 3] = .ok (.mReceive 5 ⟨16, none⟩ 3) := by decide
theorem test_decode_slave_hal : decodeOp 0b01000000 [8] = .ok (.armShift 8) ∧
    decodeOp 0b01000001 [1] = .ok (.setLineDriven true) ∧ decodeOp 0b01000010 [] = .ok .readSr ∧
    decodeOp 0b01000011 [0xFF] = .ok (.writeSr 0xFF) ∧ decodeOp 0b01000100 [] = .ok .rearmStart := by
  decide
theorem test_decode_master_hal : decodeOp 0b01010000 [] = .ok .mhStart ∧
    decodeOp 0b01010001 [0x0A] = .ok (.mhWrite 0x0A) ∧ decodeOp 0b01010010 [] = .ok .mhReadAck ∧
    decodeOp 0b01010011 [] = .ok .mhReadNack ∧ decodeOp 0b01010100 [] = .ok .mhStop ∧
    decodeOp 0b01010101 [] = .ok .mhPoll ∧ decodeOp 0b01010110 [] = .ok .mhStatus ∧
    decodeOp 0b01010111 [] = .ok .mhReadData ∧
    decodeOp 0b01100000 [0x08, 0xD0] = .ok (.envMComplete 0x08 0xD0) := by decide

/-- 2.2 of the vectors, and W2. -/
theorem test_decode_address_bytes :
    decode 0x01 .addrByte 0b00000010 [] = .ok (.addrOwnWrite 0x01) ∧
    decode 0x01 .addrByte 0b00000011 [] = .ok (.addrOwnRead 0x01) ∧
    decode 0x01 .addrByte 0b00000001 [] = .ok (.addrNoMatch 0 true) ∧
    decode 0x7F .addrByte 0b11111110 [] = .ok (.addrOwnWrite 0x7F) ∧
    decode 0x7F .addrByte 0b11111111 [] = .ok (.addrOwnRead 0x7F) ∧
    decode 0x7F .addrByte 0b00000000 [] = .ok .addrGeneralCall ∧
    decode 0x21 .addrByte 0b00100000 [] = .ok (.addrNoMatch 0x10 false) ∧
    decode 0x10 .addrByte 0b00100000 [] = .ok (.addrOwnWrite 0x10) := by decide

/-- W8: for address 5 the write byte is 0x0A and the read byte is 0x0B. -/
theorem test_decode_master_bytes :
    decode 0 .masterAddrByte 0x0A [] = .ok (.masterAddrWrite 5) ∧
    decode 0 .masterAddrByte 0x0B [] = .ok (.masterAddrRead 5) := by decide
theorem test_decode_acknowledge_bits : decode 0 .ackBit 0 [] = .ok .wireAck ∧
    decode 0 .ackBit 1 [] = .ok .wireNack ∧
    decode 0 .ackBit 2 [] = .reject .unassignedWord := by decide

/-- R117's reserved words, and records that break the shape R123 fixes. -/
theorem test_decode_rejects : decodeOp 0x03 [] = .reject .unassignedWord ∧
    decodeOp 0x15 [] = .reject .unassignedWord ∧ decodeOp 0x61 [] = .reject .unassignedWord ∧
    decodeOp 0xFF [] = .reject .unassignedWord ∧ decodeOp 0x01 [256] = .reject .badRecord ∧
    decodeOp 0x41 [2] = .reject .badRecord ∧ decodeOp 0x00 [0] = .reject .badRecord := by decide

theorem test_encode_words : encode (.initEngine 0x21) = ⟨.opword, 0x10, [0x21]⟩ ∧
    encode (.mTransmit 5 ⟨16, some 2⟩ 2) = ⟨.opword, 0x30, [5, 16, 0, 2, 2]⟩ ∧
    encode (.addrOwnRead 0x21) = ⟨.addrByte, 0x43, []⟩ := by decide

theorem test_table_words : decodeTableWord 8 0x00 = some .evStart ∧
    decodeTableWord 8 0x20 = some (.rbInit 0 0) ∧ decodeTableWord 16 0x4201 = some (.evShift 0x42) ∧
    decodeTableWord 8 0xFF = none := by decide

/-! ## Text (R120): the line of program P3 -/

theorem test_assemble_transmit : assemble 16 "M_TRANSMIT 5, [0x01, 0x02], 2 -> rc" =
    some ⟨.mTransmit 5 ⟨16, some 2⟩ 2, [1, 2], some ['r', 'c']⟩ := by decide

/-! ## Slave bus events -/

/-- S1 and W2: a repeated start. -/
theorem test_evStart : (after .evStart (node .waitForData 8 false) .env).map seen =
    some ⟨.waitForAddress, 8, false, [.armShift 8, .setLineDriven false]⟩ := by decide

/-- S3, S4, S5, W2, S7, S8, S16: after eight bits. -/
theorem test_evShift_bytes :
    (after (.evShift 0x43) (node .waitForAddress 8 false) .env).map seen =
      some ⟨.sendData, 1, true, [.readSr, .armShift 1, .writeSr 0, .setLineDriven true]⟩ ∧
    (after (.evShift 0x00) (node .waitForAddress 8 false) .env).map seen =
      some ⟨.sendAck, 1, true, [.readSr, .armShift 1, .writeSr 0, .setLineDriven true]⟩ ∧
    (after (.evShift 0x01) (node .waitForAddress 8 false) .env).map seen =
      some ⟨.waitForStart, 0, false, [.readSr, .rearmStart]⟩ ∧
    (after (.evShift 0x99) (node .waitForData 8 false) .env).map (fun n => (seen n, n.rx.items)) =
      some (⟨.sendAck, 1, true, [.readSr, .armShift 1, .writeSr 0, .setLineDriven true]⟩, [0x99]) ∧
    (after (.evShift 0x99) { node .waitForData 8 false with rx := ring 2 0 1 [0x11, 0] } .env).map
      (fun n => (seen n, n.rx.items)) =
      some (⟨.sendAck, 1, false, [.readSr, .setLineDriven false, .armShift 1]⟩, [0x11]) := by decide

/-- S6, S9, S10, S11: after one bit. -/
theorem test_evShift_bits :
    (after (.evShift 0) (node .sendAck 1 true) .env).map seen =
      some ⟨.waitForData, 8, false, [.armShift 8, .setLineDriven false]⟩ ∧
    (after (.evShift 0) { node .sendData 1 true with tx := ring 4 0 2 [0xA1, 0xA2, 0, 0] } .env).map
      (fun n => (seen n, n.tx.items)) =
      some (⟨.requestAck, 8, true, [.writeSr 0xA1, .setLineDriven true, .armShift 8]⟩, [0xA2]) ∧
    (after (.evShift 0) (node .sendData 1 true) .env).map seen =
      some ⟨.waitForStart, 0, false, [.rearmStart]⟩ ∧
    (after (.evShift 0) (node .requestAck 8 true) .env).map seen =
      some ⟨.waitAck, 1, false, [.armShift 1, .setLineDriven false]⟩ := by decide

/-- H4, H5. -/
theorem test_events_not_admissible :
    stop (exec .evStart (on fresh .env)) = some .notAdmissible ∧
    stop (exec (.evShift 0x42) (on (node .waitForStart 0 false) .env)) = some .notAdmissible := by decide

/-- H8. -/
theorem test_evOther : after .evOther { node .waitForStart 0 false with sleeping := true } .env =
    some (node .waitForStart 0 false) := by decide

/-! ## Slave foreground -/

/-- F1, F2. -/
theorem test_initEngine_fault :
    (after (.initEngine 0) fresh .slaveFg).map (·.status.faults) = some [.badOwnAddress] ∧
    (after (.initEngine 128) fresh .slaveFg).map (·.status.faults) =
      some [.badOwnAddress] := by decide

/-- F3, F4. -/
theorem test_initEngine :
    (after (.initEngine 1) fresh .slaveFg).map
      (fun n => (n.own, n.enabled, seen n)) = some (1, true, ⟨.waitForStart, 0, false, [.rearmStart]⟩) ∧
    (after (.initEngine 127) fresh .slaveFg).map (·.own) = some 127 := by decide

/-- F5, F12. -/
theorem test_sendChar :
    (after (.sendChar 0x99) (Slave.created Params.default 4 1) .slaveFg).map (·.results) = some [.bool false] ∧
    (after (.sendChar 0xA1) fresh .slaveFg).map (fun n => (n.results, n.tx.items)) =
      some ([.bool true], [0xA1]) := by decide

/-- F8. -/
theorem test_charAvailable :
    (after .charAvailable { node .waitForStart 0 false with rx := ring 4 0 1 [0, 0, 0, 0] } .slaveFg).map
      (·.results) = some [.bool true] ∧
    (after .charAvailable (node .waitForStart 0 false) .slaveFg).map (·.results) =
      some [.bool false] := by decide

/-- F7, P1 line 12. -/
theorem test_receiveChar :
    after .receiveChar (node .waitForStart 0 false) .slaveFg =
      some { node .waitForStart 0 false with results := [.byte 0] } ∧
    (after .receiveChar { node .waitForStart 0 false with rx := ring 3 0 2 [0x10, 0x20, 0] }
      .slaveFg).map (fun n => (n.results, n.rx.read, n.rx.write)) = some ([.byte 0x10], 1, 2) := by decide

/-- F11. -/
theorem test_sleep : (after .sleep { node .waitForStart 0 false with tx := ring 4 0 1 [0xA1, 0, 0, 0] }
    .slaveFg).map (·.sleeping) = some true := by decide

/-- F10. -/
theorem test_sleep_fault : (after .sleep { node .waitForStart 0 false with rx := ring 4 0 1 [0x10, 0, 0, 0] }
    .slaveFg).map (fun n => (n.sleeping, n.status.faults)) = some (false, [.sleepWithRxPending]) := by
  decide

/-! ## Rings -/

/-- W1 step 0, and V6: a capacity beyond INDEX_BITS = 8. -/
theorem test_rbInit : got (exec (.rbInit 2 4) { State.reset with ctx := ⟨.creator, 0⟩ })
      (fun t => t.rings.map (fun r => (r.q, r.ring.n, r.ring.read, r.ring.write))) =
      some [(2, 4, 0, 0)] ∧
    got (exec (.rbInit 2 300) { State.reset with ctx := ⟨.creator, 0⟩ })
      (fun t => (t.rings, (recordOf t.outside ⟨⟨.creator, 0⟩, some 2⟩).refusal)) = some ([], some .badConfig) := by
  decide

/-- W1 steps 6 and 8. -/
theorem test_rbPush :
    got (exec (.rbPush 2 0x0D) (onRing ⟨4, 0, 3, [0x0A, 0x0B, 0x0C, 0]⟩ (.ringProducer 2)))
      (fun t => t.rings.map (fun r => (r.ring.read, r.ring.write, r.results))) =
      some [(0, 3, [.bool false])] ∧
    got (exec (.rbPush 2 0x0D) (onRing ⟨4, 1, 3, [0x0A, 0x0B, 0x0C, 0]⟩ (.ringProducer 2)))
      (fun t => t.rings.map (fun r => (r.ring.read, r.ring.write, r.ring.items))) =
      some [(1, 0, [0x0B, 0x0C, 0x0D])] := by decide

/-- V8: the ISR is not the producer of tx; and R371: before INITIALIZE nothing pushes on rx. -/
theorem test_rbPush_agent : (after (.rbPush 1 0x55) (node .waitForStart 0 false) .isr).map
      (·.status.refusal) = some (some .wrongAgent) ∧
    (after (.rbPush 0 0x55) { fresh with state := .waitForData } .isr).map
      (fun n => (n.status.refusal, n.rx.items)) = some (some .wrongAgent, []) := by decide

/-- R144's example, and W1 step 2. -/
theorem test_rbPop :
    got (exec (.rbPop 2) (onRing ⟨4, 3, 0, [0, 0, 0, 0x44]⟩ (.ringConsumer 2)))
      (fun t => t.rings.map (fun r => (r.ring.read, r.ring.write, r.results))) =
      some [(0, 0, [.popped (some 0x44)])] ∧
    got (exec (.rbPop 2) (onRing ⟨4, 0, 0, [0, 0, 0, 0]⟩ (.ringConsumer 2)))
      (fun t => t.rings.map (fun r => (r.ring.read, r.results))) = some [(0, [.popped none])] := by decide

/-- R145's example. -/
theorem test_rbHasData :
    got (exec (.rbHasData 2) (onRing ⟨4, 2, 2, [0, 0, 0, 0]⟩ (.ringConsumer 2)))
      (fun t => t.rings.map (·.results)) = some [[.bool false]] ∧
    (after (.rbHasData 1) { node .waitForStart 0 false with tx := ring 4 0 1 [0xA1, 0, 0, 0] }
      .tester).map (·.results) = some [.bool true] := by decide

/-! ## The slave HAL -/

/-- H1. -/
theorem test_armShift : (afterIn .halBench (.armShift 8) fresh .isr).map seen =
    some ⟨.waitForStart, 8, false, [.armShift 8]⟩ := by decide

/-- H2. -/
theorem test_armShift_refused : (after (.armShift 3) (node .waitForStart 0 false) .isr).map
    (fun n => (n.armed, n.status.refusal)) = some (0, some .badOperand) := by decide

theorem test_setLineDriven : (afterIn .halBench (.setLineDriven true) fresh .isr).map seen =
    some ⟨.waitForStart, 0, true, [.setLineDriven true]⟩ := by decide

/-- R163's example; and R334: no register is read before it is written. -/
theorem test_readSr : (afterIn .halBench .readSr { fresh with sr := 0x42, trace := [.writeSr 0x42] } .isr).map
      (fun n => (n.results, n.trace, n.sr)) = some ([.byte 0x42], [.writeSr 0x42, .readSr], 0x42) ∧
    (afterIn .halBench .readSr fresh .isr).map (fun n => (n.results, n.status.refusal)) =
      some ([], some .wrongAgent) := by decide

theorem test_writeSr : (afterIn .halBench (.writeSr 0x5A) fresh .isr).map
    (fun n => (n.sr, n.trace)) = some (0x5A, [.writeSr 0x5A]) := by decide

/-- H3. -/
theorem test_rearmStart : (afterIn .halBench .rearmStart { fresh with armed := 1, driven := true } .isr).map seen =
    some ⟨.waitForStart, 0, false, [.rearmStart]⟩ := by decide

/-! ## The master's calls and its HAL -/

/-- P3 step 1, M7. -/
theorem test_mTransmit :
    (masterAfter (.mTransmit 5 ⟨16, some 2⟩ 2) Master.created .masterFg).map
      (fun m => (m.call, m.trace, m.op)) = some (some (tx5 .waitStart 0 .poll), [.start], .start) ∧
    (masterAfter (.mTransmit 128 ⟨16, some 1⟩ 1) Master.created .masterFg).map
      (fun m => (m.status.faults, m.trace)) = some ([.badTargetAddress], []) := by decide

/-- M8 for a receive; the address is checked before the length (R336). -/
theorem test_mReceive :
    (masterAfter (.mReceive 5 ⟨16, some 2⟩ 3) Master.created .masterFg).map
      (fun m => (m.status.faults, m.trace)) = some ([.badLength], []) ∧
    (masterAfter (.mReceive 200 ⟨16, some 2⟩ 3) Master.created .masterFg).map
      (fun m => m.status.faults) = some [.badTargetAddress] := by decide

/-- R176's example, P3 step 1; and R340: not outside a call. -/
theorem test_mhStart :
    (masterAfter .mhStart { Master.created with call := some (tx5 .idle 0 .begin) } .masterEngine).map
      (fun m => (m.phase, m.op, m.complete, m.trace)) = some (.waitStart, .start, false, [.start]) ∧
    (masterAfter .mhStart Master.created .masterEngine).map (fun m => (m.status.refusal, m.trace)) =
      some (some .wrongAgent, []) := by decide

/-- P3 steps 2 and 3. -/
theorem test_mhWrite :
    (masterAfter (.mhWrite 0x0A) (calling (tx5 .waitStart 0 .good) 0x08) .masterEngine).map
      (fun m => (m.phase, m.op, m.trace)) = some (.waitAddr, .write, [.write 0x0A]) ∧
    (masterAfter (.mhWrite 0x02) (calling (tx5 .waitData 0 .good) 0x28) .masterEngine).map
      (fun m => (m.call.map (·.i), m.trace)) = some (some 1, [.write 0x02]) := by decide

/-- P4: the first byte of three is read with ACK. -/
theorem test_mhReadAck :
    (masterAfter .mhReadAck (calling (rx5 .waitAddr 0 .good) 0x40) .masterEngine).map
      (fun m => (m.phase, m.op, m.trace)) = some (.waitData, .readAck, [.readAck]) := by decide

/-- P4: the third byte of three is read with NACK. -/
theorem test_mhReadNack :
    (masterAfter .mhReadNack (calling (rx5 .waitData 1 .stored) 0x50) .masterEngine).map
      (fun m => (m.call.map (·.i), m.op, m.trace)) = some (some 2, .readNack, [.readNack]) := by decide

/-- P3 step 5, M4. -/
theorem test_mhStop :
    (masterAfter .mhStop (calling (tx5 .waitData 1 (.fail 3)) 0x30) .masterEngine).map
      (fun m => (m.phase, m.op, m.trace, m.results)) = some (.idle, .none, [.stop], [.code 3]) ∧
    (masterAfter .mhStop (calling { tx5 .waitAddr 0 .good with len := 0 } 0x18) .masterEngine).map
      (fun m => m.results) = some [.code 0] := by decide

/-- M9: the wait goes on; P4: the last byte's status is not read. -/
theorem test_mhPoll :
    (masterAfter .mhPoll { flying .start with call := some (tx5 .waitStart 0 .poll) } .masterEngine).map
      (fun m => (m.call, m.trace)) = some (some (tx5 .waitStart 0 .poll), [.poll]) ∧
    (masterAfter .mhPoll (calling (rx5 .waitData 2 .poll) 0x58) .masterEngine).map
      (fun m => m.call.map (·.pos)) = some (some .readData) := by decide

/-- M1's bad status after the start; M2 under TX_STOP_ON_EARLY_FAIL = false. -/
theorem test_mhStatus :
    (masterAfter .mhStatus (calling (tx5 .waitStart 0 .status) 0xF8) .masterEngine).map
      (fun m => (m.call.map (·.pos), m.trace)) = some (some (.fail 1), [.status]) ∧
    got (exec .mhStatus { with_ (calling (tx5 .waitStart 0 .status) 0xF8) .masterEngine with
        cfg := { Params.default with txStopOnEarlyFail := false } })
      (fun t => t.master?.map (fun m => (m.phase, m.results))) = some (some (.idle, [.code 1])) := by decide

/-- P4: out[2] = 0xD2. -/
theorem test_mhReadData :
    got (exec .mhReadData
        (with_ { calling (rx5 .waitData 2 .readData) 0x58 with mhData := 0xD2 } .masterEngine))
      (fun t => t.master?.map (fun m => (m.mem, m.trace))) =
      some (some ([(16, 0x01), (17, 0x02), (18, 0xD2)], [.readData])) := by decide

/-- R343: a call of node 0 stores in the memory of its own caller. -/
theorem test_callers_apart :
    got (exec .mhReadData { State.reset with
        ctx := ⟨.masterEngine, 0⟩
        masters := [some { calling (rx5 .waitData 2 .readData) 0x58 with mhData := 0xD2 }, some loaded] })
      (fun t => t.masters.map (Option.map (·.mem))) =
      some [some [(16, 0x01), (17, 0x02), (18, 0xD2)], some [(16, 0x01), (17, 0x02)]] := by decide

/-- R184's example, and the data of a read. -/
theorem test_envMComplete :
    (masterAfter (.envMComplete 0x08 0x77) (flying .start) .env).map
      (fun m => (m.op, m.complete, m.mhStatus, m.mhData)) = some (.none, true, 0x08, 0) ∧
    (masterAfter (.envMComplete 0x50 0xD0) (flying .readAck) .env).map (·.mhData) = some 0xD0 := by decide

/-- M5's and M11's address bytes. -/
theorem test_masterAddr :
    (masterAfter (.masterAddrWrite 0x7F) (calling { tx5 .waitStart 0 .good with addr := 0x7F } 0x08)
      .masterEngine).map (·.trace) = some [.write 0xFE] ∧
    (masterAfter (.masterAddrRead 5) (calling (rx5 .waitStart 0 .good) 0x08) .masterEngine).map
      (fun m => (m.phase, m.trace)) = some (.waitAddr, [.write 0x0B]) := by decide

/-! ## The wire -/

/-- W2 on the wire: the eight slots of each address byte. -/
theorem test_addrGeneralCall : (afterIn .bits .addrGeneralCall (node .waitForAddress 8 false) .env).map seen =
    some ⟨.sendAck, 1, true, [.readSr, .armShift 1, .writeSr 0, .setLineDriven true]⟩ := by decide
theorem test_addrOwnWrite : (afterIn .bits (.addrOwnWrite 0x21) (node .waitForAddress 8 false) .env).map seen =
    some ⟨.sendAck, 1, true, [.readSr, .armShift 1, .writeSr 0, .setLineDriven true]⟩ := by decide
theorem test_addrOwnRead : (afterIn .bits (.addrOwnRead 0x21) (node .waitForAddress 8 false) .env).map seen =
    some ⟨.sendData, 1, true, [.readSr, .armShift 1, .writeSr 0, .setLineDriven true]⟩ := by decide
theorem test_addrNoMatch : (afterIn .bits (.addrNoMatch 0x22 false) (node .waitForAddress 8 false) .env).map seen =
    some ⟨.waitForStart, 0, false, [.readSr, .rearmStart]⟩ := by decide

/-- S13, S14: the master answers ACK. -/
theorem test_wireAck :
    (afterIn .bits .wireAck { node .waitAck 1 false with tx := ring 4 0 1 [0xA2, 0, 0, 0] } .env).map
      (fun n => (seen n, n.tx.items)) =
      some (⟨.requestAck, 8, true, [.readSr, .writeSr 0xA2, .setLineDriven true, .armShift 8]⟩, []) ∧
    (afterIn .bits .wireAck (node .waitAck 1 false) .env).map seen =
      some ⟨.waitForStart, 0, false, [.readSr, .rearmStart]⟩ := by decide

/-- S12: the master answers NACK; and R301: a node that drives 0 makes the slot an ACK. -/
theorem test_wireNack :
    (afterIn .bits .wireNack (node .waitAck 1 false) .env).map seen =
      some ⟨.waitForStart, 0, false, [.readSr, .rearmStart]⟩ ∧
    got (exec .wireNack (under .bits (on (node .sendAck 1 true) .env))) (fun t => t.bus.line) = some false := by decide

/-! ## Reset and the step -/

theorem test_reset_placed : got (step (State.reset.withFetchWord 8 0x02)) (fun t => t.slaves) =
    some State.reset.slaves ∧
    got (step (State.reset.withFetchWord 16 0x2110)) (fun t => t.slaves.map (·.own)) = some [0x21] := by
  decide

/-- Nothing is scheduled after reset: no agent has a step (log 5). -/
theorem test_reset_idle : stop (step State.reset) = some .noStep := by decide

/-- R121: an expansion ends at the first shift that is not admissible. -/
theorem test_expand_ends :
    got (step { on (node .waitForStart 0 false) .env with
        sched := [.expand 0 [.shift 0, .shift 1], .master 0] }) (fun t => t.sched) = some [.master 0] := by
  decide

/-- R370: the initial context is the foreground; R140: a ring with N = 0 is refused, and the engine takes
no step. R343: each of two nodes holds its own engines. -/
theorem test_created :
    State.reset.ctx.agent = .slaveFg ∧
    stop (exec (.sendChar 1) (on (Slave.created Params.default 4 0) .slaveFg)) = some .quiescent ∧
    (let s := State.created Params.default [(4, 4), (2, 2)] [true, true]
     s.slaves.map (fun n => (n.rx.n, n.tx.n)) = [(4, 4), (2, 2)] ∧
     (s.masterAt 0).isSome = true ∧ (s.masterAt 1).isSome = true) := by decide

/-- R334: no agent of a quiescent instance takes a further step, not on another instance either. -/
theorem test_quiescent :
    let n := { node .waitForStart 0 false with status := ⟨[.badOwnAddress], none⟩ }
    (∀ i ∈ [Instr.charAvailable, .rbPop 7, .mTransmit 5 ⟨16, some 2⟩ 2],
      stop (exec i { on n .slaveFg with masters := [some loaded] }) = some .quiescent) ∧
    stop (exec (.mTransmit 5 ⟨16, some 2⟩ 2) { on n .isr with masters := [some loaded] }) = some .quiescent ∧
    (got (exec (.mTransmit 5 ⟨16, some 2⟩ 2) { on n .masterFg with masters := [some loaded] })
      (fun _ => ())).isSome := by decide

/-- R333, R340: a wrong agent is refused where its node lacks the engine the operation would act on, and where
it lacks the agent's own. -/
theorem test_wrong_agent_without_engine :
    (after (.mTransmit 5 ⟨16, some 2⟩ 2) fresh .isr).map (·.status.refusal) = some (some .wrongAgent) ∧
    got (exec (.sendChar 0) (masterOnly .masterFg)) (fun t => t.master?.map (·.status.refusal)) =
      some (some (some .wrongAgent)) ∧
    got (exec (.sendChar 0) (masterOnly .slaveFg)) (fun t => (recordOf t.outside ⟨⟨.slaveFg, 0⟩, none⟩).refusal) =
      some (some .wrongAgent) := by decide

/-- Two nodes of a slave engine each, on a wire whose bits an unnamed master clocks: the foreground of node 0
is due to pop a ring that does not exist. -/
def twoNodes : State :=
  { under .bits (State.created Params.default [(4, 4), (4, 4)] [false, false]) with
    sched := [.issue .slaveFg 0 ⟨.opword, 0x22, [7]⟩] }

/-- R343: what is refused to an agent of node 0 stops neither node 1 nor the bits on the wire. -/
theorem test_nodes_apart :
    got (step twoNodes) (fun t => t.slaves.map (·.status.refusal)) = some [some .badOperand, none] ∧
    got (step twoNodes) (fun t => (got (exec .wireAck { t with ctx := ⟨.env, 0⟩ }) (fun _ => ())).isSome) =
      some true ∧
    got (step twoNodes) (fun t => got (exec (.rbPop 7) { t with ctx := ⟨.slaveFg, 1⟩ })
      (fun u => u.slaves.map (·.status.refusal))) = some (some [some .badOperand, some .badOperand]) := by
  decide

/-- R343: the refused creation of stand-alone ring 2 does not stop that of ring 3. -/
theorem test_rings_apart :
    got (exec (.rbInit 2 0) { State.reset with ctx := ⟨.creator, 0⟩ }) (fun t =>
      (got (exec (.rbInit 2 4) t) (fun u => u.rings.map (·.q)),
       got (exec (.rbInit 3 4) t) (fun u => u.rings.map (·.q)))) = some (none, some [3]) := by decide

/-! ## Witnesses: what meets the hypotheses of each obligation -/

theorem readyIn (e : Env) (n : Slave) (a : Agent) (h : n.rxCreated = true ∧ n.txCreated = true ∧
    n.status = Status.clean ∧ n.configOk 8 = true) : NodeReady (under e (on n a)) n a :=
  ⟨rfl, h.1, h.2.1, h.2.2.1, rfl, h.2.2.2⟩

theorem ready (n : Slave) (a : Agent) (h : n.rxCreated = true ∧ n.txCreated = true ∧
    n.status = Status.clean ∧ n.configOk 8 = true) : NodeReady (on n a) n a := readyIn .events n a h

theorem free (n : Slave) (a : Agent) (h : n.sleeping = false) : ForegroundFree (on n a) n :=
  ⟨h, fun m hm => by have h0 : none = some m := hm; cases h0⟩

theorem masterReady (m : Master) (a : Agent) (h : m.status = Status.clean) :
    MasterReady (with_ m a) m a := by
  refine ⟨rfl, h, rfl, fun n hn => ?_⟩
  have h0 : some fresh = some n := hn
  cases h0
  rfl

theorem one {α : Type} {p : α → Prop} {x : α} (h : p x) : ∀ y ∈ [x], p y := by
  intro y hy
  rw [List.mem_singleton.mp hy]
  exact h

/-- The agent a is due to issue an operation on node 0. -/
def due (n : Slave) (a : Agent) (op : Encoded) : State :=
  { on n .env with sched := [.issue a 0 op] }

theorem test_witness_EncodedOperationDecodesToItself :
    (Instr.addrOwnWrite 1).coherent 1 = true ∧ (Instr.addrOwnRead 0x7F).coherent 0x7F = true ∧
    (Instr.addrNoMatch 0 true).coherent 0x21 = true ∧ (Instr.addrNoMatch 0 false).coherent 0 = false ∧
    (Instr.evShift 0xFF).coherent 0 = true := by decide

theorem test_witness_DecodedFormIsTheEncodedForm :
    decode 0x21 .opword 0x21 [5, 300] = .ok (.rbPush 5 300) ∧
    decode 0x21 .addrByte 0x43 [] = .ok (.addrOwnRead 0x21) ∧
    decode 0x21 .masterAddrByte 0xFF [] = .ok (.masterAddrRead 0x7F) ∧
    decode 0x21 .ackBit 1 [] = .ok .wireNack := by decide

/-- A node whose rings hold N-1 of N bytes, and one whose capacity is 1. -/
def fullNode : Slave :=
  { node .waitForStart 0 false with rx := ring 2 0 1 [0x11, 0], tx := ring 2 1 0 [0, 0xA1] }
def tinyNode : Slave := { Slave.created Params.default 1 1 with own := 0x21, enabled := true }

/-- R117's words at the edges of the map, also from the environment of a node with a master only; listed
words with a bad record; wire rows with one, and an acknowledge bit that is none; and an element that is no
byte. -/
theorem test_witness_WhatIsNoOperationIsRefused :
    (∀ w ∈ [(0x03 : Byte), 0x0F, 0x15, 0x24, 0x32, 0x45, 0x58, 0x61, 0x70, 0xFF],
      w.toNat ∉ listedWords ∧
      ∀ s' ∈ [on (node .waitForStart 0 false) .slaveFg, masterOnly .env],
        s'.statusOf (s'.instOfWord .opword w) = some Status.clean ∧ s'.stall = none) ∧
    (let s' := on { fresh with status := ⟨[.badOwnAddress], none⟩ } .isr
     s'.statusOf (s'.instOfWord .opword 0xFF) = some ⟨[.badOwnAddress], none⟩) ∧
    (∀ f ∈ [Format.addrByte, .masterAddrByte, .ackBit],
      f ≠ .opword ∧ (on fullNode .env).stall = none ∧
      (on fullNode .env).statusOf ((on fullNode .env).instOfWord f 2) = some Status.clean) ∧
    2 ≤ (2 : Byte).toNat ∧
    (¬ RecordFits 0x01 [256] ∧ ¬ RecordFits 0x41 [2] ∧ ¬ RecordFits 0x00 [0] ∧ ¬ RecordFits 0x60 [0x08]) ∧
    (∀ q ∈ [0, 1], (on fullNode .isr).stall = none ∧
      (on fullNode .isr).statusOf ((on fullNode .isr).instOf (.rbPush q 256)) = some Status.clean) :=
  ⟨by decide, by decide, by decide, by decide, by simp [RecordFits], by decide⟩

/-- R333 on a node with a master only, and with both engines: the environment's bad words. -/
theorem test_undecodable_of_env :
    got (step { masterOnly .env with sched := [.issue .env 0 ⟨.opword, 0xFF, []⟩] })
      (fun t => t.master?.map (·.status.refusal)) = some (some (some .unassignedWord)) ∧
    got (step { State.reset with sched := [.issue .env 0 ⟨.opword, 0x60, [0x08]⟩] })
      (fun t => (t.master?.map (·.status.refusal), t.node?.map (·.status.refusal))) =
      some (some (some .unassignedWord), some none) := by decide

theorem test_witness_RecordingTouchesOneRecordOnly :
    State.reset.statusOf (.slave 0) = some Status.clean ∧
    State.reset.statusOf (.master 0) = some Status.clean ∧
    State.reset.statusOf (.outside ⟨⟨.env, 0⟩, none⟩) = some Status.clean ∧
    (onRing ⟨1, 0, 0, [0]⟩ .creator).statusOf (.ring 2) = some Status.clean := by decide

/-- The classes of 2.2 at the smallest and the largest own address. -/
theorem test_witness_AddressByteClass : (1 : Addr7) ≠ 0 ∧ (0x7F : Addr7) ≠ 0 ∧
    classify 0x02 1 = .ownWrite ∧ classify 0x03 1 = .ownRead ∧ classify 0xFE 0x7F = .ownWrite ∧
    classify 0xFF 0x7F = .ownRead ∧ classify 0x00 0x7F = .generalCall ∧ classify 0x01 1 = .noMatch := by
  decide

theorem test_witness_StepRunsTheDecodedOperation :
    (due (node .waitForAddress 8 false) .env ⟨.opword, 0x01, [0x42]⟩).sched =
      [.issue .env 0 ⟨.opword, 0x01, [0x42]⟩] ∧
    decode ((((due (node .waitForAddress 8 false) .env ⟨.opword, 0x01, [0x42]⟩).slaves[0]?).map
      (·.own)).getD 0) .opword 0x01 [0x42] = .ok (.evShift 0x42) := by decide

theorem test_witness_StepRunsThePlacedWord : decodeTableWord 8 0x00 = some .evStart ∧
    decodeTableWord 24 0x053021 = some (.rbPush 0x30 5) := by decide

/-- The wire with the symbols l due, the master of node 0 having op in flight. -/
def onWire (n : Slave) (op : MhOp) (l : List Sym) : State :=
  { under (.wire 0) (with_ (flying op) .env) with
    slaves := [n], bus := { Bus.idle with pending := l }, sched := [.wire] }

/-- A call whose poll is due; an answer of the status script; a symbol, and a completion, of the wire;
and nothing that moves by itself. -/
theorem test_witness_StepOfAgentsThatMoveAlone :
    let call := with_ (calling (tx5 .waitStart 0 .poll) 0x08) .masterFg
    let script := { with_ (flying .start) .env with scripts := [[(0x08, 0)]] }
    let idle := on (node .waitForStart 0 false) .slaveFg
    (call.nextActAt 0 = some .poll ∧ call.callAt 0 = true ∧ call.wireDue = false ∧ call.sched = [] ∧
      ∀ k, call.scriptDue k = false) ∧
    (script.scriptDue 0 = true ∧ script.wireDue = false) ∧
    ((onWire fresh .start [.start]).wireDue = true ∧ (onWire fresh .start [.start]).cfg.env = .wire 0 ∧
      (onWire fresh .start []).masterAt 0 = some (flying .start) ∧ (flying .start).inFlight = true) ∧
    (idle.wireDue = false ∧ (∀ k, idle.scriptDue k = false) ∧ ∀ k, idle.callAt k = false) := by
  refine ⟨⟨rfl, rfl, rfl, rfl, ?_⟩, ⟨rfl, rfl⟩, ⟨rfl, rfl, rfl, rfl⟩, rfl, ?_, ?_⟩ <;>
    rintro (_ | k) <;> rfl

/-! ### Rings -/

/-- A node in a handler that pushes on rx, and one in each that pops tx. -/
theorem test_witness_PushOnSlaveRings :
    let full := { fullNode with state := .waitForData }
    let tiny := { tinyNode with state := .waitForData }
    (255 < 256) ∧ (NodeReady (on full .isr) full .isr ∧ full.enabled = true ∧ full.state = .waitForData) ∧
    (NodeReady (on tiny .isr) tiny .isr ∧ tiny.enabled = true ∧ tiny.state = .waitForData) ∧
    NodeReady (on fullNode .slaveFg) fullNode .slaveFg ∧ ForegroundFree (on fullNode .slaveFg) fullNode ∧
    after (.rbPush 0 255) full .isr = some { full with results := [.bool false] } :=
  ⟨by decide, ⟨ready _ _ ⟨rfl, rfl, rfl, rfl⟩, rfl, rfl⟩, ⟨ready _ _ ⟨rfl, rfl, rfl, rfl⟩, rfl, rfl⟩,
    ready _ _ ⟨rfl, rfl, rfl, rfl⟩, free _ _ rfl, by decide⟩

theorem test_witness_PopOnSlaveRings :
    let sending := { fullNode with state := .sendData }
    let waiting := { fullNode with state := .waitAck }
    (NodeReady (on sending .isr) sending .isr ∧ sending.enabled = true) ∧
    (NodeReady (on waiting .isr) waiting .isr ∧ waiting.enabled = true) ∧
    NodeReady (on fullNode .slaveFg) fullNode .slaveFg ∧ ForegroundFree (on fullNode .slaveFg) fullNode ∧
    (after (.rbPop 1) sending .isr).map (·.results) = some [.popped (some 0xA1)] ∧
    (after (.rbPop 0) tinyNode .slaveFg).map (·.results) = some [.popped none] :=
  ⟨⟨ready _ _ ⟨rfl, rfl, rfl, rfl⟩, rfl⟩, ⟨ready _ _ ⟨rfl, rfl, rfl, rfl⟩, rfl⟩,
    ready _ _ ⟨rfl, rfl, rfl, rfl⟩, free _ _ rfl, by decide, by decide⟩

theorem test_witness_HasDataComparesTheIndices : NodeReady (on fullNode .slaveFg) fullNode .slaveFg ∧
    ForegroundFree (on fullNode .slaveFg) fullNode ∧ NodeReady (on fullNode .tester) fullNode .tester ∧
    RingReady (onRing ⟨1, 0, 0, [0]⟩ (.ringConsumer 2)) 2 ⟨2, ⟨1, 0, 0, [0]⟩, Status.clean, []⟩
      (.ringConsumer 2) :=
  ⟨ready _ _ ⟨rfl, rfl, rfl, rfl⟩, free _ _ rfl, ready _ _ ⟨rfl, rfl, rfl, rfl⟩, by decide, rfl, rfl, rfl, rfl⟩

theorem test_witness_PushAndPopOnStandaloneRings :
    RingReady (onRing ⟨1, 0, 0, [0]⟩ (.ringProducer 2)) 2 ⟨2, ⟨1, 0, 0, [0]⟩, Status.clean, []⟩
      (.ringProducer 2) ∧
    RingReady (onRing ⟨2, 0, 1, [7, 0]⟩ (.ringConsumer 2)) 2 ⟨2, ⟨2, 0, 1, [7, 0]⟩, Status.clean, []⟩
      (.ringConsumer 2) := ⟨⟨by decide, rfl, rfl, rfl, rfl⟩, by decide, rfl, rfl, rfl, rfl⟩

/-- A node whose rings have not been created yet. -/
def unborn : Slave := { Slave.created Params.default 1 1 with rxCreated := false, txCreated := false }

theorem test_witness_RingCreation :
    let s := on unborn .creator
    s.ctx.agent = .creator ∧ 1 ≤ 2 ^ s.cfg.indexBits ∧ 256 ≤ 2 ^ s.cfg.indexBits ∧
    s.ring? 2 = none ∧ s.statusOf (.outside ⟨s.ctx, some 2⟩) = some Status.clean ∧ s.node? = some unborn ∧
    unborn.status = Status.clean ∧
    unborn.configOk s.cfg.indexBits = true ∧ unborn.rxCreated = false ∧ unborn.txCreated = false := by decide

/-- Each clause: a bad capacity at creation; RB_INIT of a ring that exists, and by an agent that does not
create; operations on rings that do not exist; a node without slave engine; an instance with a bad ring. -/
theorem test_witness_RingOperationsRefused :
    (let s := on unborn .creator
     s.ctx.agent = .creator ∧ s.ring? 2 = none ∧ s.statusOf (.outside ⟨s.ctx, some 2⟩) = some Status.clean ∧
     s.node? = some unborn ∧
     unborn.rxCreated = false ∧ unborn.txCreated = false ∧
     (0 = 0 ∨ 2 ^ s.cfg.indexBits < 0) ∧ (257 = 0 ∨ 2 ^ s.cfg.indexBits < 257)) ∧
    (∀ a ∈ [Agent.creator, .slaveFg, .masterFg, .masterEngine, .isr],
      (∀ q ∈ [0, 1, 2], (on fullNode a).statusOf ((on fullNode a).instOf (.rbInit q 4)) = some Status.clean) ∧
      (on fullNode a).stall = none ∧ (on fullNode a).node? = some fullNode ∧
      fullNode.rxCreated = true ∧ fullNode.txCreated = true) ∧
    (let s := onRing ⟨1, 0, 0, [0]⟩ .creator
     s.stall = none ∧ (s.ring? 2).isSome = true ∧ s.statusOf (s.instOf (.rbInit 2 4)) = some Status.clean) ∧
    (let s := on unborn (.ringConsumer 2)
     s.stall = none ∧ s.ring? 2 = none ∧ s.node? = some unborn ∧
     ∀ i ∈ [Instr.rbPush 2 7, .rbPop 0, .rbHasData 1], s.statusOf (s.instOf i) = some Status.clean) ∧
    ((masterOnly .creator).stall = none ∧ (masterOnly .creator).node? = none ∧
     ∀ i ∈ [Instr.rbInit 0 4, .rbPush 1 7, .rbPop 0],
       (masterOnly .creator).statusOf ((masterOnly .creator).instOf i) = some Status.clean) ∧
    (let s := on { fresh with tx := ring 0 0 0 [] } .slaveFg
     s.stall = none ∧ s.statusOf (.slave 0) = some Status.clean ∧
     s.mayIssue .charAvailable = true ∧ s.configOk (s.instOf .charAvailable) = false) := by decide

/-- A ring of capacity 1, an empty ring, and a full ring whose indices have wrapped. -/
theorem test_witness_RingIsABoundedQueue :
    (ring 1 0 0 [0]).wf 8 ∧ (ring 4 3 3 [0, 0, 0, 0]).wf 8 ∧ (ring 4 3 2 [1, 2, 0, 3]).wf 8 ∧
    (ring 4 3 2 [1, 2, 0, 3]).items = [3, 1, 2] ∧ ((ring 4 3 2 [1, 2, 0, 3]).push 9).1 = false := by
  unfold Ring.wf
  decide

/-! ### Slave events -/

theorem eventReady (n : Slave) (h : n.rxCreated = true ∧ n.txCreated = true ∧
    n.status = Status.clean ∧ n.configOk 8 = true) (he : n.enabled = true) : EventReady (on n .env) n :=
  ⟨ready n .env h, rfl, he⟩

theorem shiftReady (st : SlaveState) (d : Bool) :
    ShiftReady (on (node st 8 d) .env) (node st 8 d) ∧ ShiftReady (on (node st 1 d) .env) (node st 1 d) :=
  ⟨⟨ready _ _ ⟨rfl, rfl, rfl, rfl⟩, rfl, rfl, .inr rfl⟩, ready _ _ ⟨rfl, rfl, rfl, rfl⟩, rfl, rfl, .inl rfl⟩

theorem test_witness_StartConditionInAnyState :
    EventReady (on (node .sendData 1 true) .env) (node .sendData 1 true) ∧
    EventReady (on (node .corrupt 8 true) .env) (node .corrupt 8 true) :=
  ⟨eventReady _ ⟨rfl, rfl, rfl, rfl⟩ rfl, eventReady _ ⟨rfl, rfl, rfl, rfl⟩ rfl⟩

theorem test_witness_InadmissibleEventHasNoStep :
    NodeReady (on fresh .env) fresh .env ∧ fresh.enabled = false ∧
    (on fresh .env).cfg.env.starts = true ∧ (on fresh .env).cfg.env.shifts = true ∧
    NodeReady (on (node .waitForData 7 false) .env) (node .waitForData 7 false) .env ∧
    (7 ≠ 1 ∧ 7 ≠ 8) ∧
    (with_ Master.created .env).master? = some Master.created ∧ Master.created.op = .none ∧
    (with_ (calling (tx5 .waitStart 0 .poll) 8) .env).cfg.env ≠ .wire 0 ∧
    (calling (tx5 .waitStart 0 .poll) 8).complete = true ∧
    (let s := { onWire fresh .start [.start] with ctx := ⟨.wire, 0⟩ }
     s.master? = some (flying .start) ∧ (flying .start).status = Status.clean ∧ s.cfg.env = .wire s.ctx.node ∧
     s.bus.pending ≠ []) :=
  ⟨ready _ _ ⟨rfl, rfl, rfl, rfl⟩, rfl, rfl, rfl, ready _ _ ⟨rfl, rfl, rfl, rfl⟩, by decide, rfl, rfl,
    nofun, rfl, by decide⟩

/-- R340, R308: a completion is the wire's, no step before the symbols are carried, and with the wire's status
whatever its operands say. -/
theorem test_completion_of_the_wire :
    stop (exec (.envMComplete 0x08 0) { onWire fresh .start [.start] with ctx := ⟨.wire, 0⟩ }) =
      some .notAdmissible ∧
    ∀ st ∈ [(0x08 : Byte), 0x20],
      got (exec (.envMComplete st 0xD0) { onWire fresh .start [] with ctx := ⟨.wire, 0⟩ })
        (fun t => t.master?.map (fun m => (m.mhStatus, m.mhData))) = some (some (0x08, 0)) := by decide

theorem test_witness_AddressHandler :
    ShiftReady (on (node .waitForAddress 8 false) .env) (node .waitForAddress 8 false) ∧
    (node .waitForAddress 8 false).state = .waitForAddress := ⟨(shiftReady _ _).1, rfl⟩

theorem test_witness_AckSlotHandlers :
    ShiftReady (on (node .sendAck 1 true) .env) (node .sendAck 1 true) ∧
    ShiftReady (on (node .requestAck 8 true) .env) (node .requestAck 8 true) :=
  ⟨(shiftReady _ _).2, (shiftReady _ _).1⟩

theorem test_witness_DataHandler :
    ShiftReady (on (node .waitForData 8 false) .env) (node .waitForData 8 false) ∧
    (node .waitForData 8 false).rx.isFull = false ∧
    ShiftReady (on { node .waitForData 8 false with rx := ring 1 0 0 [0] } .env)
      { node .waitForData 8 false with rx := ring 1 0 0 [0] } ∧
    (ring 1 0 0 [0]).isFull = true :=
  ⟨(shiftReady _ _).1, rfl, ⟨ready _ _ ⟨rfl, rfl, rfl, rfl⟩, rfl, rfl, .inr rfl⟩, rfl⟩

theorem test_witness_SendDataHandler :
    ShiftReady (on (node .sendData 1 true) .env) (node .sendData 1 true) ∧
    (node .sendData 1 true).tx.wf (on (node .sendData 1 true) .env).cfg.indexBits ∧
    ShiftReady (on { fullNode with state := .sendData, armed := 1, driven := true } .env)
      { fullNode with state := .sendData, armed := 1, driven := true } ∧
    fullNode.tx.wf 8 ∧ fullNode.tx.isEmpty = false := by
  refine ⟨(shiftReady _ _).2, ?_, ⟨ready _ _ ⟨rfl, rfl, rfl, rfl⟩, rfl, rfl, .inl rfl⟩, ?_, rfl⟩ <;>
    (unfold Ring.wf; decide)

theorem test_witness_MasterAckHandler :
    ShiftReady (on (node .waitAck 1 false) .env) (node .waitAck 1 false) ∧
    (node .waitAck 1 false).tx.wf (on (node .waitAck 1 false) .env).cfg.indexBits := by
  refine ⟨(shiftReady _ _).2, ?_⟩
  unfold Ring.wf
  decide

theorem test_witness_DispatchOfUnreachedStates :
    ShiftReady (on (node .waitForStart 8 false) .env) (node .waitForStart 8 false) ∧
    ShiftReady (on (node .corrupt 1 false) .env) (node .corrupt 1 false) :=
  ⟨(shiftReady _ _).1, (shiftReady _ _).2⟩

theorem test_witness_OtherEventWakesOnly :
    NodeReady (on { node .waitAck 1 false with sleeping := true } .env)
      { node .waitAck 1 false with sleeping := true } .env := ready _ _ ⟨rfl, rfl, rfl, rfl⟩

theorem test_witness_EventsRaiseNoFault :
    EventReady (on (node .waitForAddress 8 false) .env) (node .waitForAddress 8 false) ∧
    (got (exec .evStart (on (node .waitForAddress 8 false) .env)) (fun _ => ())).isSome ∧
    (got (exec (.evShift 0x42) (on (node .waitForAddress 8 false) .env)) (fun _ => ())).isSome ∧
    (got (exec .evOther (on (node .waitForAddress 8 false) .env)) (fun _ => ())).isSome :=
  ⟨eventReady _ ⟨rfl, rfl, rfl, rfl⟩ rfl, rfl, rfl, rfl⟩

theorem test_witness_BitSlotsAgreeWithShiftEvents :
    (node .waitForData 8 false).takesSteps = true ∧ (node .waitForData 8 false).enabled = true ∧
    (node .waitForData 8 false).state ≠ .corrupt ∧ (node .waitForData 8 false).armed = 8 ∧
    (node .waitAck 1 false).takesSteps = true ∧ (node .waitAck 1 false).armed = 1 ∧
    (0x01 : Byte).getLsbD 0 = true ∧ (0xFE : Byte).getLsbD 0 = false := by decide

/-- Under each kind of environment: whole events; the HAL bench, before INITIALIZE and after; bits. -/
theorem test_witness_HalRegistersStandWithTheState :
    (∀ n ∈ (due (node .waitForAddress 8 false) .env ⟨.opword, 0x01, [0x42]⟩).slaves,
      n.standsUnder .events) ∧
    (∃ t, step (due (node .waitForAddress 8 false) .env ⟨.opword, 0x01, [0x42]⟩) = .next t) ∧
    (∃ t, step (under .halBench (due { fresh with driven := true } .isr ⟨.opword, 0x40, [8]⟩)) = .next t) ∧
    ({ fresh with driven := true } : Slave).standsUnder .halBench ∧
    (node .requestAck 8 true).standsUnder .halBench ∧
    (node .requestAck 2 true).standsUnder .bits ∧ (node .sendAck 1 false).standsUnder (.wire 0) ∧
    (∃ t, step (under .bits (due (node .requestAck 2 true) .env ⟨.ackBit, 1, []⟩)) = .next t) :=
  ⟨one ⟨rfl, rfl⟩, ⟨_, rfl⟩, ⟨_, rfl⟩, nofun, fun _ => ⟨rfl, rfl⟩, ⟨by decide, by decide, rfl⟩, rfl,
    ⟨_, rfl⟩⟩

theorem test_witness_EventsKeepTheHalTable :
    (∀ n ∈ (on (node .waitForAddress 8 false) .env).slaves, n.inStep) ∧
    (∃ t, exec (.evShift 0x42) (on (node .waitForAddress 8 false) .env) = .next t) ∧
    (∀ n ∈ (on (node .requestAck 8 true) .slaveFg).slaves, n.inStep) ∧
    (∃ t, exec (.initEngine 0x21) (on (node .requestAck 8 true) .slaveFg) = .next t) ∧
    (node .requestAck 8 true).enabled = true ∧ (node .requestAck 8 true).driven = true :=
  ⟨one ⟨rfl, rfl⟩, ⟨_, rfl⟩, one ⟨rfl, rfl⟩, ⟨_, rfl⟩, rfl, rfl⟩

/-! ### Slave foreground and HAL -/

/-- F3, F4: the two ends of the legal range; F1, F2: just outside it. -/
theorem test_witness_InitializeWithALegalAddress :
    NodeReady (on fresh .slaveFg) fresh .slaveFg ∧
    ForegroundFree (on fresh .slaveFg) fresh ∧
    (1 ≤ (1 : Byte).toNat ∧ (1 : Byte).toNat ≤ 127) ∧ (1 ≤ (127 : Byte).toNat ∧ (127 : Byte).toNat ≤ 127) :=
  ⟨ready _ _ ⟨rfl, rfl, rfl, rfl⟩, free _ _ rfl, by decide, by decide⟩

theorem test_witness_ForegroundFaults : NodeReady (on fullNode .slaveFg) fullNode .slaveFg ∧
    ForegroundFree (on fullNode .slaveFg) fullNode ∧
    ((0 : Byte).toNat = 0 ∨ 127 < (0 : Byte).toNat) ∧ ((128 : Byte).toNat = 0 ∨ 127 < (128 : Byte).toNat) ∧
    ((255 : Byte).toNat = 0 ∨ 127 < (255 : Byte).toNat) ∧ fullNode.rx.read ≠ fullNode.rx.write :=
  ⟨ready _ _ ⟨rfl, rfl, rfl, rfl⟩, free _ _ rfl, by decide, by decide, by decide, by decide⟩

theorem test_witness_SendCharPushesTx : NodeReady (on fullNode .slaveFg) fullNode .slaveFg ∧
    ForegroundFree (on fullNode .slaveFg) fullNode ∧ fullNode.tx.isFull = true ∧
    NodeReady (on (node .waitForStart 0 false) .slaveFg) (node .waitForStart 0 false) .slaveFg ∧
    ForegroundFree (on (node .waitForStart 0 false) .slaveFg) (node .waitForStart 0 false) ∧
    (node .waitForStart 0 false).tx.isFull = false :=
  ⟨ready _ _ ⟨rfl, rfl, rfl, rfl⟩, free _ _ rfl, rfl, ready _ _ ⟨rfl, rfl, rfl, rfl⟩, free _ _ rfl, rfl⟩

theorem test_witness_CharAvailableAndReceiveChar : NodeReady (on fullNode .slaveFg) fullNode .slaveFg ∧
    ForegroundFree (on fullNode .slaveFg) fullNode ∧
    fullNode.rx.wf (on fullNode .slaveFg).cfg.indexBits ∧ fullNode.rx.read ≠ fullNode.rx.write ∧
    NodeReady (on tinyNode .slaveFg) tinyNode .slaveFg ∧ ForegroundFree (on tinyNode .slaveFg) tinyNode ∧
    tinyNode.rx.read = tinyNode.rx.write := by
  refine ⟨ready _ _ ⟨rfl, rfl, rfl, rfl⟩, free _ _ rfl, ?_, by decide, ready _ _ ⟨rfl, rfl, rfl, rfl⟩,
    free _ _ rfl, rfl⟩
  unfold Ring.wf
  decide

/-- The clauses: SLEEP itself; each of the foreground's agents while it sleeps, with the ring operations and
the HAL actions among the operations; and the slave's inside a call of its node's master. -/
theorem test_witness_SleepHaltsTheForeground :
    (NodeReady (on tinyNode .slaveFg) tinyNode .slaveFg ∧ ForegroundFree (on tinyNode .slaveFg) tinyNode ∧
      tinyNode.rx.read = tinyNode.rx.write) ∧
    (∀ p ∈ [(Agent.slaveFg, Instr.rbPush 1 0), (.slaveFg, .rbPop 0), (.slaveFg, .rbHasData 0),
        (.slaveFg, .sleep), (.masterFg, .mTransmit 5 ⟨16, some 2⟩ 2), (.masterEngine, .mhPoll)],
      let s := { with_ (calling (tx5 .waitStart 0 .poll) 8) p.1 with
        slaves := [{ fresh with sleeping := true }] }
      s.statusOf (s.instOf p.2) = some Status.clean ∧ s.ctx.agent = p.1 ∧
      s.node?.map (·.sleeping) = some true) ∧
    (let s := with_ (flying .start) .slaveFg
     s.statusOf (s.instOf (.rbPop 0)) = some Status.clean ∧
     s.node?.map (·.sleeping) = some false ∧ s.master?.map (·.call.isSome) = some true) :=
  ⟨⟨ready _ _ ⟨rfl, rfl, rfl, rfl⟩, free _ _ rfl, rfl⟩, by decide, by decide⟩

theorem test_witness_SlaveHalActions :
    HalReady (under .halBench (on fresh .isr)) fresh ∧ fresh.srWritten = false ∧
    HalReady (under .halBench (on { fresh with trace := [.writeSr 0] } .isr))
      { fresh with trace := [.writeSr 0] } ∧
    ({ fresh with trace := [.writeSr 0] } : Slave).srWritten = true ∧
    NodeReady (on tinyNode .isr) tinyNode .isr ∧ (0 ≠ 1 ∧ 0 ≠ 8) ∧ (7 ≠ 1 ∧ 7 ≠ 8) ∧ (9 ≠ 1 ∧ 9 ≠ 8) :=
  ⟨⟨readyIn _ _ _ ⟨rfl, rfl, rfl, rfl⟩, rfl, rfl⟩, rfl, ⟨readyIn _ _ _ ⟨rfl, rfl, rfl, rfl⟩, rfl, rfl⟩,
    rfl, ready _ _ ⟨rfl, rfl, rfl, rfl⟩, by decide, by decide, by decide⟩

/-! ### The master -/

theorem engine (c : Call) (st : Byte) :
    MasterReady (with_ (calling c st) .masterEngine) (calling c st) .masterEngine ∧
    (calling c st).call = some c ∧ (calling c st).inFlight = false :=
  ⟨masterReady _ _ rfl, rfl, rfl⟩

theorem test_witness_MasterHalActionsBelongToACall :
    MasterReady (with_ Master.created .masterEngine) Master.created .masterEngine ∧
    Master.created.call = none ∧
    MasterReady (with_ (calling (tx5 .waitStart 0 .poll) 8) .masterEngine)
      (calling (tx5 .waitStart 0 .poll) 8) .masterEngine ∧
    (tx5 .waitStart 0 .poll).plan loaded.mem = some (.poll, tx5 .waitStart 0 .poll) ∧ MAct.stop ≠ .poll ∧
    ¬ ((tx5 .waitStart 0 .poll).phase = .waitStart ∧ (tx5 .waitStart 0 .poll).pos = .good) ∧
    ¬ ((tx5 .waitAddr 0 .good).phase = .waitStart ∧ (tx5 .waitAddr 0 .good).pos = .good) :=
  ⟨masterReady _ _ rfl, rfl, (engine _ _).1, rfl, nofun, by decide, by decide⟩

/-- From the environment, and from the wire with the values R308 gives. -/
theorem test_witness_CompletionOfTheOperationInFlight :
    ((with_ (flying .readNack) .env).master? = some (flying .readNack) ∧
      (flying .readNack).status = Status.clean ∧ (flying .readNack).inFlight = true ∧
      (with_ (flying .readNack) .env).cfg.env ≠ .wire 0) ∧
    (let s := { onWire fresh .start [] with ctx := ⟨.wire, 0⟩ }
     s.master? = some (flying .start) ∧ (flying .start).inFlight = true ∧ s.cfg.env = .wire s.ctx.node ∧
     s.bus.pending = []) := by
  decide

/-- Addresses 0 and 127, lengths 0 and LEN_MAX; and a call whose MH_START is still to come. -/
theorem test_witness_CallBegins :
    MasterReady (with_ Master.created .masterFg) Master.created .masterFg ∧ Master.created.call = none ∧
    Master.created.inFlight = false ∧ (0 : Byte).toNat ≤ 127 ∧ (127 : Byte).toNat ≤ 127 ∧
    0 ≤ (with_ Master.created .masterFg).cfg.lenMax ∧ 255 ≤ (with_ Master.created .masterFg).cfg.lenMax ∧
    MasterReady (with_ (calling (rx5 .idle 0 .begin) 0) .masterEngine) (calling (rx5 .idle 0 .begin) 0)
      .masterEngine ∧ (rx5 .idle 0 .begin).pos = .begin ∧ (calling (rx5 .idle 0 .begin) 0).inFlight = false :=
  ⟨masterReady _ _ rfl, rfl, rfl, by decide, by decide, by decide, by decide, masterReady _ _ rfl, rfl, rfl⟩

/-- Address 128; length LEN_MAX + 1, and a length one more than the buffer's size (M7, M8). -/
theorem test_witness_BadCallArgumentsFault : MasterReady (with_ Master.created .masterFg) Master.created .masterFg ∧
    Master.created.call = none ∧ Master.created.inFlight = false ∧ 127 < (128 : Byte).toNat ∧ (127 : Byte).toNat ≤ 127 ∧
    ((with_ Master.created .masterFg).cfg.lenMax < 256 ∨ 300 < 256) ∧
    ((with_ Master.created .masterFg).cfg.lenMax < 3 ∨ 2 < 3) :=
  ⟨masterReady _ _ rfl, rfl, rfl, by decide, by decide, by decide, by decide⟩

theorem test_witness_MasterOperationsRefused :
    MasterReady (with_ (calling (tx5 .waitStart 0 .poll) 8) .masterFg)
      (calling (tx5 .waitStart 0 .poll) 8) .masterFg ∧
    (calling (tx5 .waitStart 0 .poll) 8).call.isSome = true ∧
    MasterReady (with_ { Master.created with op := .write } .masterFg) { Master.created with op := .write }
      .masterFg ∧ ({ Master.created with op := .write } : Master).inFlight = true ∧
    MasterReady (with_ Master.created .masterFg) Master.created .masterFg ∧ Master.created.call = none ∧
    Master.created.inFlight = false ∧
    (⟨16, none⟩ : BufRef).size = none ∧
    MasterReady (with_ (flying .write) .masterEngine) (flying .write) .masterEngine ∧ (flying .write).inFlight = true :=
  ⟨masterReady _ _ rfl, rfl, masterReady _ _ rfl, rfl, masterReady _ _ rfl, rfl, rfl, rfl, masterReady _ _ rfl,
    rfl⟩

theorem test_witness_PollOfACall :
    MasterReady (with_ (calling (rx5 .waitData 2 .poll) 0) .masterEngine)
      (calling (rx5 .waitData 2 .poll) 0) .masterEngine ∧
    (calling (rx5 .waitData 2 .poll) 0).call = some (rx5 .waitData 2 .poll) ∧
    (rx5 .waitData 2 .poll).pos = .poll ∧ (rx5 .waitData 2 .poll).len ≤ (rx5 .waitData 2 .poll).i + 1 ∧
    ¬ (rx5 .waitData 1 .poll).len ≤ (rx5 .waitData 1 .poll).i + 1 ∧ (tx5 .waitStart 0 .poll).pos = .poll :=
  ⟨(engine _ _).1, rfl, rfl, by decide, by decide, rfl⟩

theorem test_witness_StatusOfACall :
    MasterReady (with_ (calling (tx5 .waitStart 0 .status) 8) .masterEngine)
      (calling (tx5 .waitStart 0 .status) 8) .masterEngine ∧
    (calling (tx5 .waitStart 0 .status) 8).call = some (tx5 .waitStart 0 .status) ∧
    (tx5 .waitStart 0 .status).pos = .status ∧ (tx5 .waitStart 0 .status).phase = .waitStart ∧
    (rx5 .waitAddr 0 .status).pos = .status ∧ (rx5 .waitAddr 0 .status).phase = .waitAddr ∧
    (rx5 .waitData 1 .status).pos = .status ∧ (rx5 .waitData 1 .status).phase = .waitData :=
  ⟨(engine _ _).1, rfl, rfl, rfl, rfl, rfl, rfl, rfl⟩

theorem test_witness_ActionsOfACall :
    MasterReady (with_ (calling (rx5 .waitAddr 0 .good) 0x40) .masterEngine)
      (calling (rx5 .waitAddr 0 .good) 0x40) .masterEngine ∧
    (calling (rx5 .waitAddr 0 .good) 0x40).inFlight = false ∧
    (tx5 .waitStart 0 .good).phase = .waitStart ∧ (tx5 .waitStart 0 .good).pos = .good ∧
    ((rx5 .waitAddr 0 .good).phase = .waitAddr ∧ (rx5 .waitAddr 0 .good).pos = .good ∧
      0 < (rx5 .waitAddr 0 .good).len ∧ 0 + 1 < (rx5 .waitAddr 0 .good).len) ∧
    ((tx5 .waitData 0 .good).rw = false ∧ 1 < (tx5 .waitData 0 .good).len) ∧
    ((rx5 .waitData 1 .stored).pos = .stored ∧ 2 < (rx5 .waitData 1 .stored).len ∧
      2 + 1 = (rx5 .waitData 1 .stored).len) :=
  ⟨(engine _ _).1, rfl, rfl, rfl, by decide, by decide, by decide⟩

theorem test_witness_ReceivedByteIsStored :
    MasterReady (with_ (calling (rx5 .waitData 2 .readData) 0) .masterEngine)
      (calling (rx5 .waitData 2 .readData) 0) .masterEngine ∧
    (calling (rx5 .waitData 2 .readData) 0).call = some (rx5 .waitData 2 .readData) ∧
    ((rx5 .waitData 0 .good).pos = .good ∧ (rx5 .waitData 0 .good).phase = .waitData ∧
      (rx5 .waitData 0 .good).rw = true) ∧
    (calling (rx5 .waitData 2 .readData) 0).mem.wf :=
  ⟨(engine _ _).1, rfl, ⟨rfl, rfl, rfl⟩, by decide⟩

theorem test_witness_StopEndsTheCall :
    MasterReady (with_ (calling (rx5 .waitData 1 (.fail 3)) 0) .masterEngine)
      (calling (rx5 .waitData 1 (.fail 3)) 0) .masterEngine ∧
    (calling (rx5 .waitData 1 (.fail 3)) 0).inFlight = false ∧
    (rx5 .waitData 1 (.fail 3)).pos = .fail 3 ∧
    ((tx5 .waitAddr 0 .good).pos = .good ∧ { tx5 .waitAddr 0 .good with len := 0 }.len ≤ 0) ∧
    ((tx5 .waitData 1 .good).rw = false ∧ (tx5 .waitData 1 .good).len ≤ 1 + 1) ∧
    ((rx5 .waitData 2 .stored).pos = .stored ∧ (rx5 .waitData 2 .stored).len ≤ 2 + 1) ∧
    (calling (rx5 .waitData 1 (.fail 3)) 0).mem.wf :=
  ⟨(engine _ _).1, rfl, rfl, by decide, by decide, by decide, by decide⟩

/-! ### The wire -/

theorem test_witness_AddressByteOnTheWire : WireReady (under .bits (on (node .waitForAddress 8 false) .env)) ∧
    (∀ n ∈ (on (node .waitForAddress 8 false) .env).slaves,
      n.driven = false ∧ (n.armed = 0 ∨ n.armed = 8)) ∧
    (node .waitForAddress 8 false).takesSteps = true ∧ addrByte 0x21 false = 0x42 ∧
    addrByte 0 true = 0x01 :=
  ⟨⟨rfl, rfl, rfl⟩, one ⟨rfl, .inr rfl⟩, rfl, by decide, by decide⟩

theorem test_witness_AcknowledgeBitOnTheWire : WireReady (under .bits (on (node .waitAck 1 false) .env)) ∧
    (node .waitAck 1 false).takesSteps = true ∧ (node .waitAck 1 false).armed = 1 ∧
    WireReady (under .bits (on (node .sendAck 1 true) .env)) ∧ (node .sendAck 1 true).driven = true :=
  ⟨⟨rfl, rfl, rfl⟩, rfl, rfl, ⟨rfl, rfl, rfl⟩, rfl⟩

theorem test_witness_WireCarriesASymbol :
    let s := onWire (node .waitForData 2 false) .write [.slot true true]
    s.sched = [.wire] ∧ s.cfg.env = .wire 0 ∧ s.bus.pending = [.slot true true] ∧
    (onWire (node .sendAck 1 true) .start [.start, .stop]).bus.pending = [.start, .stop] ∧
    1 < (node .waitForData 2 false).armed ∧ (node .waitForData 2 false).takesSteps = true ∧
    (node .waitAck 1 false).armed = 1 ∧ (node .waitAck 1 false).takesSteps = true := by decide

/-- The last bit of a shift: the node's handler runs in the slot (R304; S12). -/
theorem test_wire_last_bit :
    got (step (onWire (node .waitAck 1 false) .readNack [.slot true true])) (fun t => t.slaves.map seen) =
      some [⟨.waitForStart, 0, false, [.readSr, .rearmStart]⟩] := by decide

theorem test_witness_WireCompletesAnOperation :
    ∀ op ∈ [MhOp.start, .write, .readAck, .readNack],
      let s := onWire (node .waitForStart 0 false) op []
      s.sched = [.wire] ∧ s.cfg.env = .wire 0 ∧ s.bus.pending = [] ∧ s.masterAt 0 = some (flying op) ∧
      (flying op).inFlight = true ∧ (flying op).status = Status.clean ∧ s.cfg.statusesDiffer = true := by
  decide

/-! ### Whole-machine rules -/

/-- An event at a quiescent node; agents of a quiescent engine and of a quiescent ring; and a clean record
whose operation has a step, and one whose event is not admissible. -/
theorem test_witness_QuiescentInstanceHasNoStep :
    let st : Status := ⟨[], some .wrongAgent⟩
    let s := on { node .waitForStart 0 false with status := st } .env
    (s.statusOf (s.instOf .evStart) = some st ∧ st ≠ Status.clean) ∧
    (∃ n, s.node? = some n ∧ n.status ≠ Status.clean) ∧
    (∃ m, (with_ { loaded with status := st } .masterFg).master? = some m ∧ m.status ≠ Status.clean) ∧
    (∃ r, ({ onRing ⟨1, 0, 0, [0]⟩ (.ringConsumer 2) with
      rings := [⟨2, ⟨1, 0, 0, [0]⟩, st, []⟩] } : State).ring? 2 = some r ∧ r.status ≠ Status.clean) ∧
    (∀ i ∈ [Instr.evOther, .evStart], (on fresh .env).statusOf ((on fresh .env).instOf i) = some Status.clean ∧
      (on fresh .env).stall = none) := by
  refine ⟨by decide, ⟨_, rfl, by decide⟩, ⟨_, rfl, by decide⟩, ⟨_, rfl, by decide⟩, by decide⟩

/-- Operations of every row, each issued by an agent the row does not name, the master's own agents among
them; nodes that hold no such engine, or one not created; and the environments that have not the operation. -/
theorem test_witness_WrongAgentIsRefused :
    (∀ p ∈ [(on (node .waitForStart 0 false) .tester, Instr.evStart),
        (on (node .waitForStart 0 false) .masterFg, .sendChar 0),
        (on (node .waitForStart 0 false) .masterEngine, .rbPush 0 255),
        (onRing ⟨2, 0, 1, [7, 0]⟩ (.ringProducer 2), .rbPop 2),
        (with_ Master.created .slaveFg, .mTransmit 5 ⟨16, some 2⟩ 2),
        (with_ Master.created .masterFg, .mhStart), (with_ (flying .write) .masterEngine, .envMComplete 0 0),
        (onWire fresh .start [], .envMComplete 0x08 0), (on fresh .isr, .wireAck), (on fresh .env, .wireNack),
        (under .bits (on (node .waitForAddress 8 false) .env), .evShift 0),
        (onWire (node .waitForAddress 8 false) .start [], .evStart),
        (on { fresh with state := .waitForData } .isr, .rbPush 0 1), (on (node .waitForStart 0 false) .isr, .rbPop 1),
        (on fresh .isr, .mTransmit 5 ⟨16, some 2⟩ 2), (on fresh .env, .envMComplete 8 0),
        (masterOnly .masterFg, .sendChar 0), (masterOnly .env, .evOther), (on unborn .slaveFg, .sleep),
        (on fresh .isr, .armShift 8), (under .halBench (on (node .sendAck 1 true) .isr), .armShift 8)],
      p.1.statusOf (p.1.instOf p.2) = some Status.clean ∧ p.1.stall = none ∧
      p.2.shapeOk = true ∧ p.2.kOk = true ∧ p.1.ringOk p.2 = true) ∧
    ¬ AllowedBy340 State.reset .tester .evStart ∧ ¬ AllowedBy340 State.reset .masterFg (.sendChar 0) ∧
    ¬ AllowedBy340 State.reset .masterEngine (.rbPush 0 255) ∧
    ¬ AllowedBy340 State.reset (.ringProducer 2) (.rbPop 2) ∧
    ¬ AllowedBy340 State.reset .slaveFg (.mTransmit 5 ⟨16, some 2⟩ 2) ∧
    ¬ AllowedBy340 State.reset .masterFg .mhStart ∧
    ¬ AllowedBy340 (onWire fresh .start []) .env (.envMComplete 0x08 0) ∧
    ¬ AllowedBy340 State.reset .isr .wireAck ∧
    (MasterOperation (.envMComplete 8 0) ∧ (on fresh .env).master? = none) ∧
    (SlaveOperation .evOther ∧ (masterOnly .env).node? = none ∧ (on unborn .slaveFg).node? = some unborn ∧
      unborn.isCreated = false) := by
  refine ⟨by decide, nofun, nofun, nofun, nofun, nofun, nofun, nofun, nofun,
    ⟨trivial, rfl⟩, trivial, rfl, rfl, rfl⟩

/-- A state with a receive in progress, memory, a stand-alone ring and a node in a frame. -/
def busy : State :=
  { with_ (calling (rx5 .waitData 1 .readData) 0x50) .masterFg with
    slaves := [fullNode]
    rings  := [⟨2, ⟨1, 0, 0, [0]⟩, Status.clean, []⟩]
    sched  := [.master 0] }

theorem test_witness_RegistersAfterReset : (1 ≤ 1 ∧ 1 ≤ 2 ^ Params.default.indexBits) ∧
    (1 ≤ 256 ∧ 256 ≤ 2 ^ Params.default.indexBits) := by decide

theorem test_witness_ResetIsLegal : Params.default.statusesDiffer = true := by decide

theorem test_witness_StepKeepsTheInvariant : busy.Inv ∧ ∃ t, step busy = .next t := by
  refine ⟨⟨by decide, one ?_, ?_, one ⟨by decide, ?_, by decide⟩, by decide, by decide⟩, _, rfl⟩
  · unfold Slave.wf Ring.wf; decide
  · intro m hm
    obtain rfl : m = calling (rx5 .waitData 1 .readData) 0x50 := by
      have h : some m ∈ [some (calling (rx5 .waitData 1 .readData) 0x50)] := hm
      simpa using h
    refine ⟨by decide, by decide, nofun, fun c hc => ?_⟩
    cases hc
    exact ⟨⟨nofun, .inr (.inr rfl), by decide, by decide, fun _ => by decide, nofun,
      fun _ => ⟨rfl, rfl⟩⟩, nofun, fun _ => rfl⟩
  · unfold Ring.wf; decide

theorem test_witness_StepKeepsTheConfiguration : (∃ t, step busy = .next t) ∧
    busy.slaves[0]? = some fullNode ∧ fullNode.rxCreated = true ∧ fullNode.enabled = true ∧
    busy.ring? 2 = some ⟨2, ⟨1, 0, 0, [0]⟩, Status.clean, []⟩ :=
  ⟨⟨_, rfl⟩, rfl, rfl, rfl, rfl⟩

/-- A node that records a refusal, and then the master moves: the record stays. -/
theorem test_witness_RecordsAreNeverCleared :
    (∃ t, step { busy with slaves := [{ fullNode with status := ⟨[.badOwnAddress], none⟩ }] } = .next t) ∧
    FaultCode.badOwnAddress ∈ ({ fullNode with status := ⟨[.badOwnAddress], none⟩ } : Slave).status.faults :=
  ⟨⟨_, rfl⟩, by decide⟩

theorem test_witness_MemoryFrame :
    (∃ t, exec .mhReadData { busy with ctx := ⟨.masterEngine, 0⟩ } = .next t) ∧
    busy.masterAt 0 = some (calling (rx5 .waitData 1 .readData) 0x50) ∧
    (calling (rx5 .waitData 1 .readData) 0x50).mem.wf ∧
    (rx5 .waitData 1 .readData).wf busy.cfg ∧
    (∃ t, exec .mhStop (with_ (calling (rx5 .waitData 1 (.fail 3)) 0x58) .masterEngine) = .next t) ∧
    (with_ Master.created .masterEngine).master? = some Master.created ∧ Master.created.call = none := by
  refine ⟨⟨_, rfl⟩, rfl, by decide, ?_, ⟨_, rfl⟩, rfl, rfl⟩
  exact ⟨nofun, .inr (.inr rfl), by decide, by decide, fun _ => by decide, nofun,
    fun _ => ⟨rfl, rfl⟩⟩

theorem test_witness_InstancesShareNoState :
    (∃ t, exec .evOther (on fullNode .env) = .next t) ∧ (on fullNode .env).instOf .evOther = .slave 0 ∧
    (∃ t, exec .mhPoll (with_ (flying .start) .masterEngine) = .next t) ∧
    (with_ (flying .start) .masterEngine).instOf .mhPoll = .master 0 ∧
    (∃ t, exec (.rbPush 2 7) (onRing ⟨2, 0, 0, [0, 0]⟩ (.ringProducer 2)) = .next t) ∧
    (onRing ⟨2, 0, 0, [0, 0]⟩ (.ringProducer 2)).instOf (.rbPush 2 7) = .ring 2 ∧
    (∃ t, exec (.rbInit 2 4) (on fresh .creator) = .next t) ∧
    (on fresh .creator).instOf (.rbInit 2 4) = .outside ⟨⟨.creator, 0⟩, some 2⟩ :=
  ⟨⟨_, rfl⟩, rfl, ⟨_, rfl⟩, rfl, ⟨_, rfl⟩, rfl, ⟨_, rfl⟩, rfl⟩

end Sys2Proof.Tests
end

namespace Sys2Proof.Machine

/-! ### What configures a node: its capacities, and whether it is enabled (R30, R147, R171) -/

/-- Created rings stay created with their capacity (R147), and an enabled node stays enabled (R171). -/
structure Slave.KeepsConfig (n m : Slave) : Prop where
  rx      : n.rxCreated = true → m.rxCreated = true ∧ m.rx.n = n.rx.n
  tx      : n.txCreated = true → m.txCreated = true ∧ m.tx.n = n.tx.n
  enabled : n.enabled = true → m.enabled = true

/-- A change that creates nothing, resizes nothing and leaves hal.enabled alone. -/
theorem Slave.KeepsConfig.of_eq {n m : Slave}
    (hrx : m.rx.n = n.rx.n := by rfl) (htx : m.tx.n = n.tx.n := by rfl)
    (hrxCreated : m.rxCreated = n.rxCreated := by rfl) (htxCreated : m.txCreated = n.txCreated := by rfl)
    (henabled : m.enabled = n.enabled := by rfl) : n.KeepsConfig m :=
  ⟨fun h => ⟨hrxCreated.trans h, hrx⟩, fun h => ⟨htxCreated.trans h, htx⟩, henabled.trans⟩

theorem Slave.KeepsConfig.refl (n : Slave) : n.KeepsConfig n := .of_eq

theorem Slave.KeepsConfig.trans {a b c : Slave} (h : a.KeepsConfig b) (k : b.KeepsConfig c) :
    a.KeepsConfig c where
  rx ha := ⟨(k.rx (h.rx ha).1).1, (k.rx (h.rx ha).1).2.trans (h.rx ha).2⟩
  tx ha := ⟨(k.tx (h.tx ha).1).1, (k.tx (h.tx ha).1).2.trans (h.tx ha).2⟩
  enabled ha := k.enabled (h.enabled ha)

theorem Slave.sendDataLogic_capacities (n : Slave) :
    n.sendDataLogic.rx.n = n.rx.n ∧ n.sendDataLogic.tx.n = n.tx.n := by
  rcases n.sendDataLogic_cases with ⟨b, tx, hp, h⟩ | ⟨tx, -, h⟩ <;> rw [h]
  · exact ⟨rfl, by simpa [hp] using Ring.pop_n n.tx⟩
  · exact ⟨rfl, rfl⟩

/-- No handler changes a ring's capacity: a push and a pop move indices and slots alone. -/
theorem Slave.shiftHandler_capacities (n : Slave) :
    n.shiftHandler.rx.n = n.rx.n ∧ n.shiftHandler.tx.n = n.tx.n := by
  unfold Slave.shiftHandler
  split
  · exact ⟨rfl, rfl⟩
  · unfold Slave.onAddress
    dsimp only
    split <;> exact ⟨rfl, rfl⟩
  · exact ⟨rfl, rfl⟩
  · cases hf : n.rx.isFull
    · rw [Slave.onData_of_room hf]
      exact ⟨Ring.push_n _ _, rfl⟩
    · rw [Slave.onData_of_full hf]
      exact ⟨rfl, rfl⟩
  · exact n.sendDataLogic_capacities
  · exact ⟨rfl, rfl⟩
  · unfold Slave.onWaitAck
    dsimp only
    split
    · exact ⟨rfl, rfl⟩
    · exact n.readSr.sendDataLogic_capacities
  · exact ⟨rfl, rfl⟩

theorem Slave.shiftHandler_keepsConfig (n : Slave) : n.KeepsConfig n.shiftHandler := by
  have hs := n.shiftHandler_sameOutside
  obtain ⟨hrx, htx⟩ := n.shiftHandler_capacities
  exact .of_eq hrx htx hs.rxCreated hs.txCreated hs.enabled

theorem Slave.evShift_keepsConfig (free w : Byte) (n : Slave) : n.KeepsConfig (n.evShift free w) := by
  unfold Slave.evShift
  split
  · exact .of_eq
  · exact Slave.KeepsConfig.trans .of_eq (Slave.shiftHandler_keepsConfig _)

theorem Slave.busStart_keepsConfig (n : Slave) : n.KeepsConfig n.busStart := by
  unfold Slave.busStart
  split <;> exact .of_eq

theorem Slave.busSlot_keepsConfig (n : Slave) (v : Bool) : n.KeepsConfig (n.busSlot v) := by
  rcases n.busSlot_cases v with e | ⟨-, -, ⟨-, -, e⟩ | ⟨-, -, e⟩ | ⟨-, e⟩⟩ <;> rw [e]
  · exact .of_eq
  · exact .of_eq
  · exact Slave.KeepsConfig.trans .of_eq (Slave.shiftHandler_keepsConfig _)
  · exact .of_eq

/-- An operation creates a ring of a node only where it does not exist, and nothing clears hal.enabled. -/
theorem NodeChange.keepsConfig {p : Params} {n m : Slave} (h : NodeChange p n m) : n.KeepsConfig m := by
  cases h with
  | shift free w => exact n.evShift_keepsConfig free w
  | init a => exact ⟨fun h => ⟨h, rfl⟩, fun h => ⟨h, rfl⟩, fun _ => rfl⟩
  | pushRx x r => exact .of_eq (hrx := Ring.push_n _ _)
  | pushTx x r => exact .of_eq (htx := Ring.push_n _ _)
  | popRx r => exact .of_eq (hrx := Ring.pop_n _)
  | popTx r => exact .of_eq (htx := Ring.pop_n _)
  | createRx l hn => exact ⟨fun h => (Bool.eq_false_iff.1 hn h).elim, fun h => ⟨h, rfl⟩, id⟩
  | createTx l hn => exact ⟨fun h => ⟨h, rfl⟩, fun h => (Bool.eq_false_iff.1 hn h).elim, id⟩
  | start | other | result | sleep => exact .of_eq

theorem BareChange.keepsConfig {n m : Slave} (h : BareChange n m) : n.KeepsConfig m := by
  cases h <;> exact .of_eq

theorem NodeRel.keepsConfig (p : Params) : NodeRel p Slave.KeepsConfig where
  refl := .refl
  raised _ _ := .of_eq
  refused _ _ := .of_eq
  change _ _ := NodeChange.keepsConfig
  bare _ _ _ _ := BareChange.keepsConfig
  busStart _ := Slave.busStart_keepsConfig
  busSlots _ n vs := busSlots_of .refl (fun _ _ _ => .trans) Slave.busSlot_keepsConfig vs n

/-! ### The parameters, the nodes and their masters (R10, R343) -/

theorem exec_cfg {s t : State} {i : Instr} (h : ExecNext i s t) : t.cfg = s.cfg := by
  cases h with
  | refused c _ => exact State.mapStatus_cfg _ _ _
  | raised c => exact State.mapStatus_cfg _ _ _
  | wire bits =>
    obtain ⟨vs, -, h⟩ := State.wireBits_frame bits s
    rw [h]
  | _ => rfl

theorem step_cfg {s t : State} (h : step s = .next t) : t.cfg = s.cfg := by
  cases step_next h with
  | sched l => rfl
  | exec i c l sc t h => exact (exec_cfg h :)
  | symbol j x xs l => rw [State.carrySym_frame]
  | undecoded c l k => exact State.mapStatus_cfg _ _ _

@[simp] theorem State.mapStatus_slaves_length (s : State) (k : Inst) (f : Status → Status) :
    (s.mapStatus k f).slaves.length = s.slaves.length := by
  cases k with
  | slave j => exact List.length_modify _ _ _
  | _ => rfl

@[simp] theorem State.carrySym_slaves_length (s : State) (x : Sym) :
    (s.carrySym x).slaves.length = s.slaves.length := by
  cases x with
  | start => exact List.length_map _
  | stop => rfl
  | slot bit ack =>
    unfold State.carrySym State.masterSlot
    dsimp only
    split <;> exact List.length_map _

theorem exec_slaves_length {s t : State} {i : Instr} (h : ExecNext i s t) :
    t.slaves.length = s.slaves.length := by
  cases h with
  | refused c _ => exact State.mapStatus_slaves_length _ _ _
  | raised c => exact State.mapStatus_slaves_length _ _ _
  | node n m d => exact List.length_set
  | bare n m => exact List.length_set
  | wire bits =>
    obtain ⟨vs, -, h⟩ := State.wireBits_frame bits s
    rw [h]
    exact List.length_map _
  | _ => rfl

theorem step_slaves_length {s t : State} (h : step s = .next t) : t.slaves.length = s.slaves.length := by
  cases step_next h with
  | sched l => rfl
  | exec i c l sc t h => exact (exec_slaves_length h :)
  | symbol j x xs l => exact State.carrySym_slaves_length _ _
  | undecoded c l k => exact State.mapStatus_slaves_length _ _ _

/-- Where masters are related node by node, the same nodes hold one. -/
theorem MastersRel.masterAt_isSome {R : Master → Master → Prop} {s t : State}
    (h : MastersRel R s.masters t.masters) (j : Nat) : (t.masterAt j).isSome = (s.masterAt j).isSome := by
  obtain ⟨hlen, hrel⟩ := h
  unfold State.masterAt
  match hs : s.masters[j]? with
  | none =>
    rw [List.getElem?_eq_none_iff, ← hlen, ← List.getElem?_eq_none_iff] at hs
    rw [hs]
  | some none => rw [(hrel j).1 hs]
  | some (some m) =>
    obtain ⟨m', hm', -⟩ := (hrel j).2 m hs
    rw [hm']
    rfl

theorem RingChange.ring_n {r r' : Standalone} (h : RingChange r r') : r'.ring.n = r.ring.n := by
  cases h with
  | push x v => exact Ring.push_n _ _
  | pop v => exact Ring.pop_n _
  | result v => rfl

/-- Settles O57: the relation `Slave.KeepsConfig` holds over every change of a node, and masters and
stand-alone rings are related one by one before and after a step. -/
theorem stepKeepsTheConfiguration : Obligations.StepKeepsTheConfiguration := by
  intro s t h
  have hmasters : MastersRel (fun _ _ => True) s.masters t.masters :=
    step_masters (fun _ => trivial) (fun _ _ _ => trivial) h
  have hrings : RingsRel (fun r r' => r'.ring.n = r.ring.n) s t :=
    step_rings (fun _ => rfl) (fun _ _ => rfl) (fun _ _ => rfl) (fun _ _ => RingChange.ring_n) h
  refine ⟨step_cfg h, step_slaves_length h, fun j n m hn hm => ?_, hmasters.masterAt_isSome, hrings⟩
  obtain ⟨hrx, htx, henabled⟩ := step_nodes (NodeRel.keepsConfig s.cfg) h j n m hn hm
  exact ⟨hrx, htx, henabled⟩

end Sys2Proof.Machine

namespace Sys2Proof.Machine

/-! ### The state after creation (R62, R370) -/

/-- A created slave engine has legal registers: a ring that exists has an admitted capacity (R140). -/
theorem Slave.wf_created (p : Params) (rxN txN : Nat) : (Slave.created p rxN txN).wf p := by
  have ring : ∀ n, ringConfigOk p.indexBits n = true →
      (Ring.created (List.replicate n (0 : Byte))).wf p.indexBits :=
    fun n h => Ring.wf_created (by rwa [List.length_replicate])
  refine ⟨fun (h : ringConfigOk p.indexBits rxN = true) => ?_,
    fun (h : (ringConfigOk p.indexBits rxN && ringConfigOk p.indexBits txN) = true) => ?_,
    Nat.zero_le 8, nofun, nofun, ?_, fun _ => ⟨rfl, rfl⟩⟩
  · simpa only [Slave.created, if_pos h] using ring rxN h
  · simpa only [Slave.created, if_pos h] using ring txN (Bool.and_eq_true_iff.1 h).2
  · dsimp only [Slave.created]
    split <;> exact List.nodup_nil

theorem Slave.inStep_created (p : Params) (rxN txN : Nat) : (Slave.created p rxN txN).inStep := ⟨rfl, rfl⟩

theorem Master.wf_created (p : Params) : Master.created.wf p :=
  ⟨⟨List.Pairwise.nil, nofun⟩, List.nodup_nil, nofun, nofun⟩

theorem State.inv_created {p : Params} (rings : List (Nat × Nat)) (masters : List Bool)
    (hp : p.statusesDiffer = true) : (State.created p rings masters).Inv := by
  refine ⟨hp, fun n hn => ?_, fun m hm => ?_, nofun, List.nodup_nil, List.nodup_nil⟩
  · obtain ⟨c, -, rfl⟩ := List.mem_map.1 hn
    exact Slave.wf_created p c.1 c.2
  · obtain ⟨b, -, hb⟩ := List.mem_map.1 hm
    cases b <;> cases hb
    exact Master.wf_created p

theorem State.inStep_of_created {p : Params} {rings : List (Nat × Nat)} {masters : List Bool} {n : Slave}
    (hn : n ∈ (State.created p rings masters).slaves) : n.inStep := by
  obtain ⟨c, -, rfl⟩ := List.mem_map.1 hn
  exact Slave.inStep_created p c.1 c.2

/-- Settles O55: each created engine is legal and in step, and reset is one creation, under `Params.default`,
which tells the statuses apart. -/
theorem resetIsLegal : Obligations.ResetIsLegal :=
  ⟨fun _ rings masters hp => ⟨State.inv_created rings masters hp, fun _ => State.inStep_of_created⟩,
    State.inv_created _ _ (by decide), fun _ => State.inStep_of_created⟩

/-! ### What keeps masters, stand-alone rings and the issuers' records legal -/

/-- From a property of every master before to the same of every master after. -/
theorem MastersRel.all {P : Master → Prop} {l l' : List (Option Master)}
    (hrel : MastersRel (fun m m' => P m → P m') l l') (h : ∀ m, some m ∈ l → P m) :
    ∀ m, some m ∈ l' → P m := by
  intro m' hm'
  obtain ⟨j, hj⟩ := List.mem_iff_getElem?.1 hm'
  have hlt : j < l.length := hrel.1 ▸ (List.getElem?_eq_some_iff.1 hj).1
  have hl : l[j]? = some l[j] := List.getElem?_eq_getElem hlt
  cases hm : l[j] with
  | none =>
    have hnone := (hrel.2 j).1 (hm ▸ hl)
    rw [hj] at hnone
    cases hnone
  | some m =>
    obtain ⟨x, hx, hP⟩ := (hrel.2 j).2 m (hm ▸ hl)
    rw [hj] at hx
    cases hx
    exact hP (h m (hm ▸ List.getElem_mem hlt))

/-- An update of a record that keeps `faults` a set (R48). -/
def KeepsFaultSet (f : Status → Status) : Prop := ∀ st : Status, st.faults.Nodup → (f st).faults.Nodup

theorem KeepsFaultSet.addFault (c : FaultCode) : KeepsFaultSet (Status.addFault c) := fun _ => nodup_addFault

theorem KeepsFaultSet.refuse (r : RefuseReason) : KeepsFaultSet (Status.refuse r) := fun _ => id

theorem RingChange.q_eq {r r' : Standalone} (h : RingChange r r') : r'.q = r.q := by
  cases h <;> rfl

theorem RingChange.wf {p : Params} {r r' : Standalone} (hc : RingChange r r') (h : r.wf p) : r'.wf p := by
  obtain ⟨hq, hring, hfaults⟩ := h
  cases hc with
  | push x v => exact ⟨hq, Ring.wf_push hring x, hfaults⟩
  | pop v => exact ⟨hq, Ring.wf_pop hring, hfaults⟩
  | result v => exact ⟨hq, hring, hfaults⟩

/-- The invariant's part about the stand-alone rings: each legal, and their numbers distinct. -/
def RingsLegal (p : Params) (l : List Standalone) : Prop := (∀ r ∈ l, r.wf p) ∧ (l.map (·.q)).Nodup

theorem RingsLegal.modifyRing {p : Params} {l : List Standalone} {q : Nat} {f : Standalone → Standalone}
    (h : RingsLegal p l) (hq : ∀ r, r.q = q → (f r).q = q) (hf : ∀ r ∈ l, r.q = q → (f r).wf p) :
    RingsLegal p (modifyRing l q f) := by
  obtain ⟨hwf, hnodup⟩ := h
  refine ⟨fun r hr => ?_, ?_⟩
  · obtain ⟨x, hx, rfl⟩ := List.mem_map.1 hr
    split
    · next hxq => exact hf x hx (beq_iff_eq.1 hxq)
    · exact hwf x hx
  · have hnumbers : (Machine.modifyRing l q f).map (·.q) = l.map (·.q) := by
      unfold Machine.modifyRing
      rw [List.map_map]
      refine List.map_congr_left fun x _ => ?_
      dsimp only [Function.comp]
      split
      · next hxq => rw [hq x (beq_iff_eq.1 hxq), beq_iff_eq.1 hxq]
      · rfl
    rwa [hnumbers]

/-- A new ring under a number that no ring has, with an admitted capacity (R140). -/
theorem RingsLegal.append {p : Params} {s : State} {q : Nat} {l : List Nat} (h : RingsLegal p s.rings)
    (hq : 2 ≤ q) (hnew : s.ring? q = none) (hl : ringConfigOk p.indexBits l.length = true) :
    RingsLegal p (s.rings ++ [⟨q, Ring.created l, Status.clean, []⟩]) := by
  obtain ⟨hwf, hnodup⟩ := h
  refine ⟨fun r hr => ?_, ?_⟩
  · rcases List.mem_append.1 hr with hr | hr
    · exact hwf r hr
    · obtain rfl := List.mem_singleton.1 hr
      exact ⟨hq, Ring.wf_created hl, List.nodup_nil⟩
  · have hfresh : q ∉ s.rings.map (·.q) := by
      rw [State.ring?, List.find?_eq_none] at hnew
      intro hmem
      obtain ⟨r, hr, hrq⟩ := List.mem_map.1 hmem
      exact hnew r hr (beq_iff_eq.2 hrq)
    simpa only [List.map_append, List.map_cons, List.map_nil, List.concat_eq_append] using hnodup.concat hfresh

theorem RingsLegal.mapStatus {p : Params} {s : State} (k : Inst) {f : Status → Status}
    (h : RingsLegal p s.rings) (hf : KeepsFaultSet f) : RingsLegal p (s.mapStatus k f).rings := by
  cases k with
  | ring q =>
    refine h.modifyRing (fun _ hr => hr) fun r hr _ => ?_
    obtain ⟨hq, hring, hfaults⟩ := h.1 r hr
    exact ⟨hq, hring, hf _ hfaults⟩
  | slave j | master j | outside c => exact h

theorem exec_ringsLegal {s t : State} {i : Instr} (hs : RingsLegal s.cfg s.rings) (h : ExecNext i s t) :
    RingsLegal s.cfg t.rings := by
  cases h with
  | refused c => exact hs.mapStatus _ (.refuse _)
  | raised c => exact hs.mapStatus _ (.addFault c)
  | ring q r r' _ hr hc =>
    have hwf : r'.wf s.cfg := hc.wf (hs.1 r (List.mem_of_find?_eq_some hr))
    exact hs.modifyRing (fun _ _ => rfl) fun _ _ _ => hwf
  | newRing q l d _ hq hnew hl => exact hs.append hq hnew hl
  | wire bits =>
    obtain ⟨vs, -, h⟩ := State.wireBits_frame bits s
    rw [h]
    exact hs
  | node | bare | begin_ | call | complete => exact hs

theorem step_ringsLegal {s t : State} (hs : RingsLegal s.cfg s.rings) (h : step s = .next t) :
    RingsLegal s.cfg t.rings := by
  cases step_next h with
  | sched l => exact hs
  | exec i c l sc t h => exact exec_ringsLegal (s := { s with ctx := c, sched := l, scripts := sc }) hs h
  | symbol j x xs l => rw [State.carrySym_frame]; exact hs
  | undecoded c l k => exact RingsLegal.mapStatus (s := { s with ctx := c, sched := l }) k hs (.refuse _)

theorem State.mapStatus_outside_nodup {s : State} (k : Inst) (f : Status → Status)
    (h : (s.outside.map (·.1)).Nodup) : ((s.mapStatus k f).outside.map (·.1)).Nodup := by
  cases k with
  | outside c => exact (nodup_setRecord c _ h).1
  | slave j | master j | ring q => exact h

theorem exec_outside_nodup {s t : State} {i : Instr} (hs : (s.outside.map (·.1)).Nodup)
    (h : ExecNext i s t) : (t.outside.map (·.1)).Nodup := by
  cases h with
  | refused c => exact State.mapStatus_outside_nodup _ _ hs
  | raised c => exact State.mapStatus_outside_nodup _ _ hs
  | wire bits =>
    obtain ⟨vs, -, h⟩ := State.wireBits_frame bits s
    rw [h]
    exact hs
  | node | bare | ring | newRing | begin_ | call | complete => exact hs

theorem step_outside_nodup {s t : State} (hs : (s.outside.map (·.1)).Nodup) (h : step s = .next t) :
    (t.outside.map (·.1)).Nodup := by
  cases step_next h with
  | sched l => exact hs
  | exec i c l sc t h => exact exec_outside_nodup (s := { s with ctx := c, sched := l, scripts := sc }) hs h
  | symbol j x xs l => rw [State.carrySym_frame]; exact hs
  | undecoded c l k => exact State.mapStatus_outside_nodup (s := { s with ctx := c, sched := l }) k _ hs

/-- Settles O56: a step changes no parameter, and each part of the invariant is kept by every change a step
makes of a node, of a master, of the stand-alone rings and of the issuers' records. -/
theorem stepKeepsTheInvariant : Obligations.StepKeepsTheInvariant := by
  intro s t ⟨hcfg, hslaves, hmasters, hrings, hnumbers, houtside⟩ h
  have hslaves' : ∀ n ∈ t.slaves, n.wf s.cfg :=
    NodesRel.all (step_slaves_length h) (step_nodes (NodeRel.legal s.cfg) h) hslaves
  have hmasters' : ∀ m, some m ∈ t.masters → m.wf s.cfg :=
    MastersRel.all (step_masters (fun _ => id) (fun _ _ => MasterChange.wf) h) hmasters
  obtain ⟨hrings', hnumbers'⟩ := step_ringsLegal ⟨hrings, hnumbers⟩ h
  unfold State.Inv
  rw [step_cfg h]
  exact ⟨hcfg, hslaves', hmasters', hrings', hnumbers', step_outside_nodup houtside h⟩

/-! ### Which bytes of its caller's memory a call may write (R262, R263) -/

theorem Call.dataAct_ne_readData (mem : Memory) (c : Call) : c.dataAct mem ≠ .readData := by
  rcases c.dataAct_cases mem with ⟨v, h⟩ | h | h <;> rw [h] <;> nofun

theorem Call.dataAct_ne_stop (mem : Memory) (c : Call) : c.dataAct mem ≠ .stop := by
  rcases c.dataAct_cases mem with ⟨v, h⟩ | h | h <;> rw [h] <;> nofun

/-- A data read is planned in a receive alone, and leaves m.i and the buffer as they are. -/
theorem Planned.readData_inv {p : Params} {mem : Memory} {c c' : Call} (h : Planned mem c .readData c')
    (hw : c.wf p) : c' = c ∧ c.rw = true := by
  obtain ⟨-, -, -, -, -, -, hread⟩ := hw
  cases h with
  | readData hpos =>
    rcases hpos with hpos | ⟨-, -, hrw⟩
    · exact ⟨rfl, (hread (.inl hpos)).1⟩
    · exact ⟨rfl, hrw⟩
  | data _ ph j ha => exact absurd ha.symm (Call.dataAct_ne_readData _ _)

/-- The bytes received when a call is stopped lie in its buffer's first m.len positions: code 3 comes of
FAIL alone, which leaves m.i. -/
theorem Planned.stop_received_le {p : Params} {mem : Memory} {c c' : Call} (h : Planned mem c .stop c')
    (hw : c.wf p) : c'.received ≤ c.len := by
  obtain ⟨-, -, -, -, hdata, hother, -⟩ := hw
  have hi : c.i ≤ c.len := by
    by_cases hph : c.phase = .waitData
    · exact (hdata hph).le
    · exact hother hph ▸ Nat.zero_le _
  cases h with
  | data _ ph j ha => exact absurd ha.symm (Call.dataAct_ne_stop _ _)
  | stop rc j hrc =>
    unfold Call.received
    split
    · next hcode =>
      rcases hrc with ⟨-, rfl⟩ | rfl
      · exact hi
      · have hne : (0 : Rc) ≠ 3 := by decide
        exact absurd hcode hne
    · exact Nat.zero_le _

theorem Planned.stop_frame {mem : Memory} {c c' : Call} (h : Planned mem c .stop c') :
    c'.rw = c.rw ∧ c'.buf = c.buf ∧ c'.len = c.len := by
  cases h with
  | data _ ph j ha => exact absurd ha.symm (Call.dataAct_ne_stop _ _)
  | stop rc j => exact ⟨rfl, rfl, rfl⟩

/-- A transmit leaves no output position open. -/
theorem Call.openCount_of_transmit {c : Call} (h : c.rw = false) : c.openCount = 0 := by
  simp [Call.openCount, h]

theorem Call.openCount_le (c : Call) : c.openCount ≤ c.len - c.received := by
  unfold Call.openCount
  split
  · exact le_rfl
  · exact Nat.zero_le _

theorem Planned.read_memAfter_of_readData {p : Params} {m : Master} {c c' : Call}
    (hp : Planned m.mem c .readData c') (hw : c.wf p) (hm : m.mem.wf) (d : Nat) {a : Nat}
    (ha : a ≠ bufAddr c.buf c.i) :
    (c'.memAfter d .readData m).read a = m.mem.read a := by
  obtain ⟨rfl, -⟩ := hp.readData_inv hw
  exact (Memory.read_write hm _ _ a).trans (if_neg ha)

theorem Planned.read_memAfter_of_stop {p : Params} {m : Master} {c c' : Call}
    (hp : Planned m.mem c .stop c') (hw : c.wf p) (hm : m.mem.wf) (d : Nat) {a : Nat}
    (ha : a < bufAddr c.buf 0 ∨ bufAddr c.buf c.len ≤ a) :
    (c'.memAfter d .stop m).read a = m.mem.read a := by
  obtain ⟨-, hbuf, hlen⟩ := hp.stop_frame
  have hreceived := hp.stop_received_le hw
  have hopen := c'.openCount_le
  refine Memory.read_fillFree_of_outside hm d _ _ a ?_
  simp only [bufAddr, hbuf] at ha ⊢
  omega

theorem Planned.memAfter_of_transmit {p : Params} {m : Master} {a : MAct} {c c' : Call}
    (hp : Planned m.mem c a c') (hw : c.wf p) (d : Nat) (hrw : c.rw = false) : c'.memAfter d a m = m.mem := by
  by_cases hread : a = .readData
  · subst hread
    exact absurd (hp.readData_inv hw).2 (by simp [hrw])
  · by_cases hstop : a = .stop
    · subst hstop
      have hopen : c'.openCount = 0 := Call.openCount_of_transmit (hp.stop_frame.1.trans hrw)
      simp only [Call.memAfter, hopen, Memory.fillFree]
    · exact Call.memAfter_eq d c' m hread hstop

/-- Settles O59: by `exec_mem` a memory changes only where the node's own call reads a byte or stops, and a
planned read or stop writes within the receive's buffer. -/
theorem memoryFrame : Obligations.MemoryFrame := by
  intro s t i j m m' h hm hm'
  rcases exec_mem (exec_next h) hm hm' with hmem | ⟨hj, a, c₀, c', hc₀, hp, hact, hmem⟩
  · exact ⟨fun _ _ => hmem, fun _ => hmem, fun _ => hmem,
      fun _ _ _ _ => ⟨fun _ => hmem, fun _ _ _ => by rw [hmem], fun _ _ _ => by rw [hmem]⟩⟩
  · refine ⟨fun hr hs => ?_, fun hne => absurd hj hne, fun hnone => ?_, fun c hc hwf hw => ?_⟩
    · rcases hact with ⟨-, hi⟩ | ⟨-, hi⟩
      · exact absurd hi hr
      · exact absurd hi hs
    · rw [hnone] at hc₀
      cases hc₀
    · rw [hc₀] at hc
      cases hc
      rw [hmem]
      refine ⟨hp.memAfter_of_transmit hw _, fun hi b hb => ?_, fun hi b hb => ?_⟩
      · rcases hact with ⟨rfl, -⟩ | ⟨-, hi'⟩
        · exact hp.read_memAfter_of_readData hw hwf _ hb
        · rw [hi] at hi'
          cases hi'
      · rcases hact with ⟨-, hi'⟩ | ⟨rfl, -⟩
        · rw [hi] at hi'
          cases hi'
        · exact hp.read_memAfter_of_stop hw hwf _ hb

end Sys2Proof.Machine

namespace Sys2Proof

/-! ### The fields of an address byte (R101, R104) -/

@[simp] theorem addrField_toNat (b : Byte) : (addrField b).toNat = b.toNat / 2 := by
  have hlt := b.isLt
  rw [addrField, BitVec.extractLsb'_toNat, Nat.shiftRight_eq_div_pow, Nat.mod_eq_of_lt (by omega)]

theorem rwField_eq_decide (b : Byte) : rwField b = decide (b.toNat % 2 = 1) := by
  simp [rwField, BitVec.getLsbD, Nat.testBit_zero]

theorem addrByte_toNat (a : Addr7) (rw : Bool) :
    (addrByte a rw).toNat = 2 * a.toNat + (if rw then 1 else 0) := by
  have hlt := a.isLt
  have hshift : (a.setWidth 8 <<< 1).toNat = 2 * a.toNat := by
    rw [BitVec.toNat_shiftLeft, BitVec.toNat_setWidth, Nat.shiftLeft_eq, Nat.mod_eq_of_lt (by omega),
      Nat.mod_eq_of_lt (by omega)]
    omega
  cases rw with
  | false => simp [addrByte, hshift]
  | true =>
    have hor : 2 * a.toNat ||| 1 = 2 * a.toNat + 1 := by
      simpa using Nat.two_pow_add_eq_or_of_lt (i := 1) (b := 1) (by decide) a.toNat |>.symm
    simp [addrByte, hshift, hor]

@[simp] theorem addrField_addrByte (a : Addr7) (rw : Bool) : addrField (addrByte a rw) = a := by
  apply BitVec.eq_of_toNat_eq
  rw [addrField_toNat, addrByte_toNat]
  split <;> omega

@[simp] theorem rwField_addrByte (a : Addr7) (rw : Bool) : rwField (addrByte a rw) = rw := by
  rw [rwField_eq_decide, addrByte_toNat]
  cases rw <;> simp

/-- An address byte is its two fields: no bit of it is dropped. -/
@[simp] theorem addrByte_addrField_rwField (b : Byte) : addrByte (addrField b) (rwField b) = b := by
  apply BitVec.eq_of_toNat_eq
  rw [addrByte_toNat, addrField_toNat, rwField_eq_decide]
  simp only [decide_eq_true_eq]
  split <;> omega

theorem addrByte_eq_zero_iff (a : Addr7) (rw : Bool) : addrByte a rw = 0#8 ↔ a = 0 ∧ rw = false := by
  have hzero : addrByte 0 false = 0#8 := by decide
  constructor
  · intro h
    rw [← hzero] at h
    exact ⟨by simpa using congrArg addrField h, by simpa using congrArg rwField h⟩
  · rintro ⟨rfl, rfl⟩
    exact hzero

theorem addrField_eq_iff (b : Byte) (a : Addr7) : addrField b = a ↔ b.toNat / 2 = a.toNat := by
  rw [← BitVec.toNat_inj, addrField_toNat]

/-- Settles O7: the byte's value gives both its fields, and bit 0 chooses the row. -/
theorem masterAddressByte : Obligations.MasterAddressByte := by
  intro own a rw
  refine ⟨addrByte_toNat a rw, addrField_addrByte a rw, rwField_addrByte a rw, ?_⟩
  simp [decode, rec0, decodeMasterAddr]

/-! ### The class of an address byte (R102, R103) -/

/-- What each class says of the byte. -/
theorem classify_cases (b : Byte) (own : Addr7) :
    (classify b own = .generalCall ∧ b = 0#8) ∨
    (classify b own = .ownWrite ∧ b ≠ 0#8 ∧ addrField b = own ∧ rwField b = false) ∨
    (classify b own = .ownRead ∧ b ≠ 0#8 ∧ addrField b = own ∧ rwField b = true) ∨
    (classify b own = .noMatch ∧ b ≠ 0#8 ∧ addrField b ≠ own) := by
  unfold classify
  by_cases hb : b = 0#8
  · simp [hb]
  · by_cases hown : addrField b = own
    · cases hrw : rwField b <;> simp [hb, hown]
    · simp [hb, hown]

/-- Settles O6: each class says of the byte what excludes the other three (`classify_cases`). -/
theorem addressByteClass : Obligations.AddressByteClass := by
  intro own b hown
  have hown' : own.toNat ≠ 0 := fun h => hown (BitVec.eq_of_toNat_eq h)
  have hone : classify 1#8 own = .noMatch := by
    rcases classify_cases 1#8 own with ⟨-, h⟩ | ⟨-, -, h, -⟩ | ⟨-, -, h, -⟩ | ⟨h, -⟩
    · exact absurd h (by decide)
    · exact absurd h.symm hown
    · exact absurd h.symm hown
    · exact h
  rcases classify_cases b own with ⟨hc, h0⟩ | ⟨hc, h0, ha, hrw⟩ | ⟨hc, h0, ha, hrw⟩ | ⟨hc, h0, ha⟩
  · subst h0
    simp [hc, hone, Ne.symm hown']
  · rw [addrField_eq_iff] at ha
    rw [rwField_eq_decide, decide_eq_false_iff_not, Nat.mod_two_not_eq_one] at hrw
    simp [hc, hone, ha, hrw, h0]
  · rw [addrField_eq_iff] at ha
    rw [rwField_eq_decide, decide_eq_true_iff] at hrw
    simp [hc, hone, ha, hrw, h0]
  · rw [Ne, addrField_eq_iff] at ha
    simp [hc, hone, ha, h0]

/-! ### Operand records read back (R115) -/

theorem rec0_eq_ok {r : List Nat} {i j : Instr} : rec0 r i = .ok j ↔ r = [] ∧ i = j := by
  cases r <;> simp [rec0]

theorem recByte_eq_ok {r : List Nat} {f : Byte → Instr} {j : Instr} :
    recByte r f = .ok j ↔ ∃ b, r = [b.toNat] ∧ f b = j := by
  constructor
  · intro h
    unfold recByte at h
    split at h
    · split at h
      · next x hx => exact ⟨BitVec.ofNat 8 x, by simp [Nat.mod_eq_of_lt hx], by injection h⟩
      · cases h
    · cases h
  · rintro ⟨b, rfl, rfl⟩
    simp [recByte, b.isLt]

theorem recBytes_eq_ok {r : List Nat} {f : Byte → Byte → Instr} {j : Instr} :
    recBytes r f = .ok j ↔ ∃ b c, r = [b.toNat, c.toNat] ∧ f b c = j := by
  constructor
  · intro h
    unfold recBytes at h
    split at h
    · split at h
      · next x y hxy =>
        exact ⟨BitVec.ofNat 8 x, BitVec.ofNat 8 y,
          by simp [Nat.mod_eq_of_lt hxy.1, Nat.mod_eq_of_lt hxy.2], by injection h⟩
      · cases h
    · cases h
  · rintro ⟨b, c, rfl, rfl⟩
    simp [recBytes, b.isLt, c.isLt]

theorem recNat_eq_ok {r : List Nat} {f : Nat → Instr} {j : Instr} :
    recNat r f = .ok j ↔ ∃ x, r = [x] ∧ f x = j := by
  unfold recNat
  split <;> simp_all

theorem recNats_eq_ok {r : List Nat} {f : Nat → Nat → Instr} {j : Instr} :
    recNats r f = .ok j ↔ ∃ x y, r = [x, y] ∧ f x y = j := by
  unfold recNats
  split <;> simp_all

theorem recBool_eq_ok {r : List Nat} {f : Bool → Instr} {j : Instr} :
    recBool r f = .ok j ↔ ∃ d, r = [encodeBool d] ∧ f d = j := by
  unfold recBool
  split <;> simp_all [encodeBool]

theorem bufSize_eq_some {tag size : Nat} {sz : Option Nat} (base : Nat) :
    bufSize tag size = some sz ↔ [base, tag, size] = BufRef.fields ⟨base, sz⟩ := by
  unfold bufSize
  split <;> cases sz <;> simp_all [BufRef.fields]

theorem recCall_eq_ok {r : List Nat} {f : Byte → BufRef → Nat → Instr} {j : Instr} :
    recCall r f = .ok j ↔ ∃ a b len, r = a.toNat :: b.fields ++ [len] ∧ f a b len = j := by
  constructor
  · intro h
    unfold recCall at h
    split at h
    · next a base tag size len =>
      split at h
      · next sz hsz =>
        split at h
        · next ha =>
          refine ⟨BitVec.ofNat 8 a, ⟨base, sz⟩, len, ?_, by injection h⟩
          simp [← (bufSize_eq_some base).1 hsz, Nat.mod_eq_of_lt ha]
        · cases h
      · cases h
    · cases h
  · rintro ⟨a, ⟨base, size⟩, len, rfl, rfl⟩
    cases size <;> simp [recCall, BufRef.fields, bufSize, a.isLt]

/-! ### The wire rows read back (R103, R105) -/

/-- The row a slave reads from an address byte, by the byte's class. -/
theorem decodeAddr_cases (own : Addr7) (b : Byte) :
    (b = 0#8 ∧ decodeAddr own b = .addrGeneralCall) ∨
    (addrField b = own ∧ rwField b = false ∧ decodeAddr own b = .addrOwnWrite (addrField b)) ∨
    (addrField b = own ∧ rwField b = true ∧ decodeAddr own b = .addrOwnRead (addrField b)) ∨
    (addrField b ≠ own ∧ decodeAddr own b = .addrNoMatch (addrField b) (rwField b)) := by
  unfold decodeAddr
  rcases classify_cases b own with ⟨hc, h0⟩ | ⟨hc, -, ha, hrw⟩ | ⟨hc, -, ha, hrw⟩ | ⟨hc, -, ha⟩ <;> rw [hc]
  · exact .inl ⟨h0, rfl⟩
  · exact .inr (.inl ⟨ha, hrw, rfl⟩)
  · exact .inr (.inr (.inl ⟨ha, hrw, rfl⟩))
  · exact .inr (.inr (.inr ⟨ha, rfl⟩))

/-- The row a slave reads from an address byte is encoded by that byte. -/
theorem encode_decodeAddr (own : Addr7) (b : Byte) : encode (decodeAddr own b) = ⟨.addrByte, b, []⟩ := by
  have hfields := addrByte_addrField_rwField b
  rcases decodeAddr_cases own b with ⟨h0, hd⟩ | ⟨-, hrw, hd⟩ | ⟨-, hrw, hd⟩ | ⟨-, hd⟩ <;> rw [hd]
  · rw [h0]; rfl
  · rw [hrw] at hfields
    rw [encode, hfields]
  · rw [hrw] at hfields
    rw [encode, hfields]
  · rw [encode, hfields]

theorem encode_decodeMasterAddr (b : Byte) : encode (decodeMasterAddr b) = ⟨.masterAddrByte, b, []⟩ := by
  have hfields := addrByte_addrField_rwField b
  unfold decodeMasterAddr
  split
  · next hrw => rw [hrw] at hfields; rw [encode, hfields]
  · next hrw => rw [Bool.eq_false_of_not_eq_true hrw] at hfields; rw [encode, hfields]

/-- A slave reads a wire row that is coherent with its own address from the row's byte. -/
theorem decodeAddr_encode {own : Addr7} {i : Instr} (hi : i.coherent own = true)
    (hfmt : (encode i).fmt = .addrByte) : decodeAddr own (encode i).bits = i := by
  cases i with
  | addrGeneralCall => rfl
  | addrOwnWrite a =>
    obtain ⟨rfl, ha⟩ : a = own ∧ own ≠ 0 := by simpa [Instr.coherent] using hi
    have hbyte : addrByte a false ≠ 0#8 := fun h => ha ((addrByte_eq_zero_iff a false).1 h).1
    simp [encode, decodeAddr, classify, hbyte]
  | addrOwnRead a =>
    obtain ⟨rfl, ha⟩ : a = own ∧ own ≠ 0 := by simpa [Instr.coherent] using hi
    have hbyte : addrByte a true ≠ 0#8 := fun h => ha ((addrByte_eq_zero_iff a true).1 h).1
    simp [encode, decodeAddr, classify, hbyte]
  | addrNoMatch a rw =>
    obtain ⟨ha, hne⟩ : a ≠ own ∧ ¬(a = 0 ∧ rw = false) := by
      simpa [Instr.coherent, imp_iff_not_or] using hi
    have hbyte : addrByte a rw ≠ 0#8 := fun h => hne ((addrByte_eq_zero_iff a rw).1 h)
    simp [encode, decodeAddr, classify, hbyte, ha]
  | _ => cases hfmt

/-! ### Operation words (R114, R123) -/

theorem encode_of_rec0 {word : Byte} {r : List Nat} {i j : Instr} (h : rec0 r i = .ok j)
    (hi : encode i = .op word []) : encode j = .op word r := by
  obtain ⟨rfl, rfl⟩ := rec0_eq_ok.1 h
  exact hi

theorem encode_of_recByte {word : Byte} {r : List Nat} {f : Byte → Instr} {j : Instr}
    (h : recByte r f = .ok j) (hf : ∀ b, encode (f b) = .op word [b.toNat]) : encode j = .op word r := by
  obtain ⟨b, rfl, rfl⟩ := recByte_eq_ok.1 h
  exact hf b

theorem encode_of_recNat {word : Byte} {r : List Nat} {f : Nat → Instr} {j : Instr}
    (h : recNat r f = .ok j) (hf : ∀ x, encode (f x) = .op word [x]) : encode j = .op word r := by
  obtain ⟨x, rfl, rfl⟩ := recNat_eq_ok.1 h
  exact hf x

theorem encode_of_recNats {word : Byte} {r : List Nat} {f : Nat → Nat → Instr} {j : Instr}
    (h : recNats r f = .ok j) (hf : ∀ x y, encode (f x y) = .op word [x, y]) : encode j = .op word r := by
  obtain ⟨x, y, rfl, rfl⟩ := recNats_eq_ok.1 h
  exact hf x y

theorem encode_of_recCall {word : Byte} {r : List Nat} {f : Byte → BufRef → Nat → Instr} {j : Instr}
    (h : recCall r f = .ok j)
    (hf : ∀ a b len, encode (f a b len) = .op word (a.toNat :: b.fields ++ [len])) :
    encode j = .op word r := by
  obtain ⟨a, b, len, rfl, rfl⟩ := recCall_eq_ok.1 h
  exact hf a b len

/-- What a word and a record decode to is encoded by them: row by row of R114's table. -/
theorem encode_of_decodeOp {word : Byte} {r : List Nat} {i : Instr} (h : decodeOp word r = .ok i) :
    encode i = .op word r := by
  obtain ⟨n, hn⟩ : ∃ n, word.toNat = n := ⟨_, rfl⟩
  obtain rfl : word = BitVec.ofNat 8 n := by rw [← hn, BitVec.ofNat_toNat, BitVec.setWidth_eq]
  unfold decodeOp at h
  rw [hn] at h
  split at h
  · exact encode_of_rec0 h rfl
  · exact encode_of_recByte h fun _ => rfl
  · exact encode_of_rec0 h rfl
  · exact encode_of_recByte h fun _ => rfl
  · exact encode_of_recByte h fun _ => rfl
  · exact encode_of_rec0 h rfl
  · exact encode_of_rec0 h rfl
  · exact encode_of_rec0 h rfl
  · exact encode_of_recNats h fun _ _ => rfl
  · exact encode_of_recNats h fun _ _ => rfl
  · exact encode_of_recNat h fun _ => rfl
  · exact encode_of_recNat h fun _ => rfl
  · exact encode_of_recCall h fun _ _ _ => rfl
  · exact encode_of_recCall h fun _ _ _ => rfl
  · exact encode_of_recNat h fun _ => rfl
  · obtain ⟨d, rfl, rfl⟩ := recBool_eq_ok.1 h
    rfl
  · exact encode_of_rec0 h rfl
  · exact encode_of_recByte h fun _ => rfl
  · exact encode_of_rec0 h rfl
  · exact encode_of_rec0 h rfl
  · exact encode_of_recByte h fun _ => rfl
  · exact encode_of_rec0 h rfl
  · exact encode_of_rec0 h rfl
  · exact encode_of_rec0 h rfl
  · exact encode_of_rec0 h rfl
  · exact encode_of_rec0 h rfl
  · exact encode_of_rec0 h rfl
  · obtain ⟨st, d, rfl, rfl⟩ := recBytes_eq_ok.1 h
    rfl
  · cases h

/-- An encoded operation's word and record decode to it. -/
theorem decodeOp_encode {i : Instr} (hfmt : (encode i).fmt = .opword) :
    decodeOp (encode i).bits (encode i).fields = .ok i := by
  cases i with
  | evShift b | initEngine b | sendChar b | writeSr b | mhWrite b => exact recByte_eq_ok.2 ⟨b, rfl, rfl⟩
  | rbInit x y | rbPush x y => exact recNats_eq_ok.2 ⟨x, y, rfl, rfl⟩
  | rbPop x | rbHasData x | armShift x => exact recNat_eq_ok.2 ⟨x, rfl, rfl⟩
  | mTransmit a b len | mReceive a b len => exact recCall_eq_ok.2 ⟨a, b, len, rfl, rfl⟩
  | setLineDriven d => exact recBool_eq_ok.2 ⟨d, rfl, rfl⟩
  | envMComplete st d => exact recBytes_eq_ok.2 ⟨st, d, rfl, rfl⟩
  | evStart | evOther | charAvailable | receiveChar | sleep | readSr | rearmStart | mhStart | mhReadAck
  | mhReadNack | mhStop | mhPoll | mhStatus | mhReadData => rfl
  | addrGeneralCall | addrOwnWrite | addrOwnRead | addrNoMatch | masterAddrWrite | masterAddrRead | wireAck
  | wireNack => cases hfmt

/-! ### Decode and encode agree -/

/-- A wire row has no record (R101, R105). -/
theorem encode_fields_of_wireRow {i : Instr} (hfmt : (encode i).fmt ≠ .opword) : (encode i).fields = [] := by
  cases i with
  | addrGeneralCall | addrOwnWrite | addrOwnRead | addrNoMatch | masterAddrWrite | masterAddrRead | wireAck
  | wireNack => rfl
  | _ => exact absurd rfl hfmt

theorem decodeMasterAddr_encode {i : Instr} (hfmt : (encode i).fmt = .masterAddrByte) :
    decodeMasterAddr (encode i).bits = i := by
  cases i with
  | masterAddrWrite a => simp [encode, decodeMasterAddr]
  | masterAddrRead a => simp [encode, decodeMasterAddr]
  | _ => cases hfmt

/-- Settles O1, by the format: an operation word's record is read back field by field, and an address byte's
class is that of the row's own fields. -/
theorem encodedOperationDecodesToItself : Obligations.EncodedOperationDecodesToItself := by
  intro own i hi
  cases hfmt : (encode i).fmt with
  | opword => exact decodeOp_encode hfmt
  | addrByte =>
    exact rec0_eq_ok.2 ⟨encode_fields_of_wireRow (by simp [hfmt]), decodeAddr_encode hi hfmt⟩
  | masterAddrByte =>
    exact rec0_eq_ok.2 ⟨encode_fields_of_wireRow (by simp [hfmt]), decodeMasterAddr_encode hfmt⟩
  | ackBit =>
    cases i with
    | wireAck | wireNack => rfl
    | _ => cases hfmt

/-- Settles O2, by the format: a word's rows one by one, and an address byte is its two fields. -/
theorem decodedFormIsTheEncodedForm : Obligations.DecodedFormIsTheEncodedForm := by
  intro own fmt bits fields i h
  cases fmt with
  | opword => exact encode_of_decodeOp h
  | addrByte =>
    obtain ⟨rfl, rfl⟩ := rec0_eq_ok.1 h
    exact encode_decodeAddr own bits
  | masterAddrByte =>
    obtain ⟨rfl, rfl⟩ := rec0_eq_ok.1 h
    exact encode_decodeMasterAddr bits
  | ackBit =>
    simp only [decode] at h
    split at h
    · next hbits =>
      obtain ⟨rfl, rfl⟩ := rec0_eq_ok.1 h
      obtain rfl : bits = 0 := BitVec.eq_of_toNat_eq hbits
      rfl
    · next hbits =>
      obtain ⟨rfl, rfl⟩ := rec0_eq_ok.1 h
      obtain rfl : bits = 1 := BitVec.eq_of_toNat_eq hbits
      rfl
    · cases h

/-- Settles O3: the decoder is evaluated on the eleven forms. -/
theorem sampleOperationWordsDecode : Obligations.SampleOperationWordsDecode := by
  unfold Obligations.SampleOperationWordsDecode
  decide

/-! ### What is no operation (R117) -/

theorem mem_listedWords_of_recordFits {word : Nat} {fields : List Nat} (h : RecordFits word fields) :
    word ∈ listedWords := by
  have hsub : ∀ l : List Nat, l ⊆ listedWords → word ∈ l → word ∈ listedWords := fun _ hl hw => hl hw
  rcases h with ⟨h, -⟩ | ⟨h, -⟩ | ⟨h, -⟩ | ⟨h, -⟩ | ⟨rfl, -⟩ | ⟨h, -⟩ | ⟨rfl, -⟩
  · exact hsub _ (by decide) h
  · exact hsub _ (by decide) h
  · exact hsub _ (by decide) h
  · exact hsub _ (by decide) h
  · decide
  · exact hsub _ (by decide) h
  · decide

/-- An encoded operation's record is one that R115 admits for its word. -/
theorem recordFits_encode {i : Instr} (hfmt : (encode i).fmt = .opword) :
    RecordFits (encode i).bits.toNat (encode i).fields := by
  cases i with
  | evStart | evOther | charAvailable | receiveChar | sleep | readSr | rearmStart | mhStart | mhReadAck
  | mhReadNack | mhStop | mhPoll | mhStatus | mhReadData => exact .inl ⟨by decide, rfl⟩
  | evShift b | initEngine b | sendChar b | writeSr b | mhWrite b =>
    simp [RecordFits, encode, Encoded.op, b.isLt]
  | rbInit q x | rbPush q x => simp [RecordFits, encode, Encoded.op]
  | rbPop q | rbHasData q | armShift q => simp [RecordFits, encode, Encoded.op]
  | setLineDriven d => cases d <;> simp [RecordFits, encode, Encoded.op, encodeBool]
  | mTransmit a b len | mReceive a b len =>
    obtain ⟨base, size⟩ := b
    cases size <;> simp [RecordFits, encode, Encoded.op, BufRef.fields, a.isLt]
  | envMComplete st d => simp [RecordFits, encode, Encoded.op, st.isLt, d.isLt]
  | addrGeneralCall | addrOwnWrite | addrOwnRead | addrNoMatch | masterAddrWrite | masterAddrRead | wireAck
  | wireNack => cases hfmt

theorem encode_ackBit_lt {i : Instr} (hfmt : (encode i).fmt = .ackBit) : (encode i).bits.toNat < 2 := by
  cases i with
  | wireAck | wireNack => decide
  | _ => cases hfmt

/-- What is encoded by no operation is rejected. -/
theorem decode_eq_reject {own : Addr7} {fmt : Format} {bits : Byte} {fields : List Nat}
    (h : fmt = .opword ∧ (bits.toNat ∉ listedWords ∨ ¬ RecordFits bits.toNat fields) ∨
      fmt ≠ .opword ∧ fields ≠ [] ∨ fmt = .ackBit ∧ 2 ≤ bits.toNat) :
    ∃ e, decode own fmt bits fields = .reject e := by
  cases hd : decode own fmt bits fields with
  | reject e => exact ⟨e, rfl⟩
  | ok i =>
    have henc := decodedFormIsTheEncodedForm own fmt bits fields i hd
    obtain ⟨rfl, rfl, rfl⟩ : (encode i).fmt = fmt ∧ (encode i).bits = bits ∧ (encode i).fields = fields := by
      simp [henc]
    rcases h with ⟨hfmt, hword⟩ | ⟨hfmt, hfields⟩ | ⟨hfmt, hbits⟩
    · have hfits := recordFits_encode hfmt
      rcases hword with hword | hword
      · exact absurd (mem_listedWords_of_recordFits hfits) hword
      · exact absurd hfits hword
    · exact absurd (encode_fields_of_wireRow hfmt) hfields
    · exact absurd (encode_ackBit_lt hfmt) (by omega)

end Sys2Proof

namespace Sys2Proof.Machine

/-! ### A turn that issues bits (R112, R117) -/

theorem step_of_issue {s : State} {agent : Agent} {node : Nat} {op : Encoded} {rest : List Turn}
    (hs : s.sched = .issue agent node op :: rest) :
    step s = State.issueTurn agent node op { s with sched := rest } := by
  unfold step
  rw [hs]
  rfl

theorem State.issueTurn_of_ok {s : State} {agent : Agent} {node : Nat} {op : Encoded} {i : Instr}
    (h : decode ({ s with ctx := ⟨agent, node⟩ } : State).ownHere op.fmt op.bits op.fields = .ok i) :
    s.issueTurn agent node op = exec i { s with ctx := ⟨agent, node⟩ } := by
  unfold State.issueTurn
  dsimp only
  rw [h]

theorem State.issueTurn_of_reject {s : State} {agent : Agent} {node : Nat} {op : Encoded} {e : DecodeError}
    (h : decode ({ s with ctx := ⟨agent, node⟩ } : State).ownHere op.fmt op.bits op.fields = .reject e) :
    s.issueTurn agent node op = ({ s with ctx := ⟨agent, node⟩ } : State).refuseUndecoded op.fmt op.bits := by
  unfold State.issueTurn
  dsimp only
  rw [h]

/-- Settles O8: the turn is taken off the schedule, and what it issues decodes. -/
theorem stepRunsTheDecodedOperation : Obligations.StepRunsTheDecodedOperation := by
  intro s agent node op rest i hs hi
  rw [step_of_issue hs]
  exact State.issueTurn_of_ok hi

theorem decodeTableWord_eq_some {nbits w : Nat} {i : Instr} :
    decodeTableWord nbits w = some i ↔
      decodeOp (tableFields nbits w).1 (tableFields nbits w).2 = .ok i := by
  unfold decodeTableWord Decoded.toOption
  dsimp only
  split <;> simp_all

theorem State.turnOfBits_of_ok {s : State} {nbits w : Nat} {i : Instr}
    (h : decodeOp (tableFields nbits w).1 (tableFields nbits w).2 = .ok i) :
    s.turnOfBits nbits w = .issue (issuerOf s.cfg.env s.ctx.node i) s.ctx.node
      (.op (tableFields nbits w).1 (tableFields nbits w).2) := by
  unfold State.turnOfBits
  dsimp only
  rw [h]

/-- Settles O9: the placed turn is the next one, and it issues what decodes to the operation. -/
theorem stepRunsThePlacedWord : Obligations.StepRunsThePlacedWord := by
  intro s nbits w i h
  rw [decodeTableWord_eq_some] at h
  have hs : (s.withFetchWord nbits w).sched = .issue (issuerOf s.cfg.env s.ctx.node i) s.ctx.node
      (.op (tableFields nbits w).1 (tableFields nbits w).2) :: s.sched := by
    rw [State.withFetchWord, State.turnOfBits_of_ok h]
  exact stepRunsTheDecodedOperation _ _ _ _ _ i hs h

theorem Status.quiescent_of_ne_clean {st : Status} (h : st ≠ Status.clean) : st.quiescent = true :=
  Bool.eq_true_of_not_eq_false fun hq => h (Status.quiescent_eq_false.1 hq)

theorem State.refuseUndecoded_of_quiescent {s : State} {fmt : Format} {word : Byte} {st : Status}
    (h : s.statusOf (s.instOfWord fmt word) = some st) (hst : st ≠ Status.clean) :
    s.refuseUndecoded fmt word = .fault .quiescent := by
  simp [State.refuseUndecoded, h, Status.quiescent_of_ne_clean hst]

theorem State.refuseUndecoded_of_clean {s : State} {fmt : Format} {word : Byte}
    (h : s.statusOf (s.instOfWord fmt word) = some Status.clean) (hs : s.stall = none) :
    s.refuseUndecoded fmt word = .next (s.refuse (s.instOfWord fmt word) .unassignedWord) := by
  simp [State.refuseUndecoded, h, hs, Status.quiescent_clean]

/-- An element of a byte ring that is no byte fails the first check (R333; log 25). -/
theorem State.failedCheck_rbPush_of_no_byte (s : State) {q x : Nat} (hq : q < 2) (hx : 256 ≤ x) :
    s.failedCheck (.rbPush q x) = some .word := by
  have hshape : (Instr.rbPush q x).shapeOk = false := by simp [Instr.shapeOk, hq, hx]
  simp [State.failedCheck, hshape]

/-- Settles O4: what is encoded by no operation is rejected, and what it is charged to exists (`Charged`). -/
theorem whatIsNoOperationIsRefused : Obligations.WhatIsNoOperationIsRefused := by
  refine ⟨fun s agent node fmt bits fields rest hs hop => ?_, fun s q x hq hx hstall hclean => ?_⟩
  · intro s'
    obtain ⟨e, he⟩ := decode_eq_reject (own := s'.ownHere) hop
    have hstep : step s = s'.refuseUndecoded fmt bits := by
      rw [step_of_issue hs]
      exact State.issueTurn_of_reject he
    obtain ⟨st, hst⟩ := (Charged.instOfWord s' fmt bits).statusOf
    rw [hstep]
    refine ⟨st, hst, State.refuseUndecoded_of_quiescent hst, ?_⟩
    rintro rfl hstall
    exact State.refuseUndecoded_of_clean hst hstall
  · exact State.admit_refused _ (by simp [hclean, Status.quiescent_clean]) hstall
      (s.failedCheck_rbPush_of_no_byte hq hx)

/-! ### Bits shifted in (R302, R304) -/

@[simp] theorem getElem_shiftIn_zero (v : Byte) (s : Bool) : (shiftIn v s)[0] = s := by
  cases s <;> simp [shiftIn]

@[simp] theorem getElem_shiftIn_succ (v : Byte) (s : Bool) {i : Nat} (hi : i + 1 < 8) :
    (shiftIn v s)[i + 1] = v[i] := by
  cases s <;> simp [shiftIn]

/-- The eight bits of a byte, shifted in, are the byte, whatever the register held. -/
theorem foldl_shiftIn_bitsMsbFirst (b v : Byte) : (bitsMsbFirst b).foldl shiftIn v = b := by
  apply BitVec.eq_of_getElem_eq
  intro i hi
  simp only [bitsMsbFirst, List.foldl]
  interval_cases i <;> simp

/-- A bit slot leaves in the shift register one of the values R168 admits after a 1-bit shift. -/
theorem shiftIn_eq_oneBitSample (v w : Byte) : shiftIn v (w.getLsbD 0) = oneBitSample (v <<< 1) w := by
  apply BitVec.eq_of_getLsbD_eq
  intro i hi
  rw [oneBitSample, BitVec.getLsbD_append, BitVec.getLsbD_eq_getElem hi]
  cases i with
  | zero => simp
  | succ i =>
    have hlow : i < 7 := by omega
    have hhigh : 1 + i < 8 := by omega
    simp [hlow, hhigh]

/-! ### A node that counts bit slots (R304) -/

/-- As many slots as are armed: the bits are shifted in, and at the last one the shift-complete handler runs. -/
theorem Slave.busSlots_of_armed {n : Slave} {vs : List Bool} (hsteps : n.takesSteps = true)
    (henabled : n.enabled = true) (hstate : n.state ≠ .corrupt) (harmed : n.armed = vs.length) (hvs : vs ≠ []) :
    vs.foldl (fun m v => m.busSlot v) n =
      Slave.shiftHandler { n with sr := vs.foldl shiftIn n.sr, armed := 0, sleeping := false } := by
  induction vs generalizing n with
  | nil => exact absurd rfl hvs
  | cons v vs ih =>
    by_cases hlast : vs = []
    · subst hlast
      have hone : n.armed = 1 := harmed
      simp [Slave.busSlot, hsteps, henabled, hone, hstate]
    · have hpos : 0 < vs.length := List.length_pos_of_ne_nil hlast
      rw [List.length_cons] at harmed
      rw [List.foldl_cons, Slave.busSlot_of_counting v hsteps henabled (by omega)]
      exact ih (n := { n with sr := shiftIn n.sr v, armed := n.armed - 1 }) hsteps henabled hstate
        (by simp [harmed]) hlast

/-- A node with nothing armed ignores any number of slots. -/
theorem Slave.busSlots_of_idle {n : Slave} (h : n.armed = 0) (vs : List Bool) :
    vs.foldl (fun m v => m.busSlot v) n = n := by
  induction vs with
  | nil => rfl
  | cons v vs ih => rw [List.foldl_cons, Slave.busSlot_of_idle v (.inl h), ih]

/-- The node floats the line in each of the next k slots: it is not driving, and its shift, if one is armed,
does not end before the last of them. -/
def Slave.FloatsFor (k : Nat) (n : Slave) : Prop := 0 < k → n.driven = false ∧ (n.armed = 0 ∨ k ≤ n.armed)

theorem Slave.FloatsFor.busSlot {k : Nat} {n : Slave} (h : n.FloatsFor (k + 1)) (v : Bool) :
    (n.busSlot v).FloatsFor k := by
  intro hk
  obtain ⟨hdriven, harmed⟩ := h (Nat.succ_pos k)
  rcases n.busSlot_cases v with e | ⟨-, -, ⟨hone, -, -⟩ | ⟨hone, -, -⟩ | ⟨hcount, e⟩⟩
  · rw [e]; exact ⟨hdriven, by omega⟩
  · omega
  · omega
  · rw [e]; exact ⟨hdriven, .inr (by dsimp only; omega)⟩

/-- Where every node floats the line, the slots have the values of whoever clocks them, and each node sees
them. -/
theorem State.wireBits_of_floating {bits : List Bool} {s : State}
    (h : ∀ n ∈ s.slaves, n.FloatsFor bits.length) :
    bits.foldl (fun s bit => s.wireBit bit) s =
      { s with
        slaves := s.slaves.map (fun n => bits.foldl (fun m v => m.busSlot v) n)
        bus    := { s.bus with line := bits.getLastD s.bus.line } } := by
  induction bits generalizing s with
  | nil => simp
  | cons bit bits ih =>
    have hfloat : ∀ n ∈ s.slaves, n.driven = false := fun n hn => (h n hn (Nat.succ_pos _)).1
    have hnext : ∀ n ∈ (s.wireBit bit).slaves, n.FloatsFor bits.length := by
      intro n hn
      obtain ⟨m, hm, rfl⟩ := List.mem_map.1 hn
      exact (h m hm).busSlot _
    rw [List.foldl_cons, ih hnext]
    simp [slotValue_of_floating hfloat, Function.comp_def, List.getLast?_cons]

/-! ### Bits put on the wire by the unnamed master (log 16) -/

/-- The slots of a wire row move the nodes and the line alone. -/
theorem State.wireBits_sameOutside (bits : List Bool) (s : State) :
    bits.foldl (fun s bit => s.wireBit bit) s =
      { s with
        slaves := (bits.foldl (fun s bit => s.wireBit bit) s).slaves
        bus    := { s.bus with line := (bits.foldl (fun s bit => s.wireBit bit) s).bus.line } } := by
  obtain ⟨vs, -, h⟩ := s.wireBits_frame bits
  rw [h]

/-- On a ready wire an address byte and an acknowledge bit are carried. -/
theorem WireReady.admitted {s : State} (h : WireReady s) {i : Instr} (run : Out)
    (hfmt : (encode i).fmt = .addrByte ∨ (encode i).fmt = .ackBit) : s.admitted i run = run := by
  have hmay : (s.ctx.agent == .env && s.cfg.env == .bits) = true := by
    obtain ⟨-, hagent, henv⟩ := h
    simp [hagent, henv]
  cases i with
  | addrGeneralCall | addrOwnWrite | addrOwnRead | addrNoMatch | wireAck | wireNack =>
    exact State.admit_wire run h rfl (State.failedCheck_eq_none rfl rfl rfl hmay rfl rfl rfl)
  | _ => exact hfmt.elim nofun nofun

theorem WireReady.exec_addressRow {s : State} (h : WireReady s) {i : Instr} {b : Byte}
    (hi : i = .addrGeneralCall ∧ b = 0 ∨ (∃ a, i = .addrOwnWrite a ∧ b = addrByte a false) ∨
      (∃ a, i = .addrOwnRead a ∧ b = addrByte a true) ∨ (∃ a rw, i = .addrNoMatch a rw ∧ b = addrByte a rw)) :
    exec i s = .next (s.wireByte b) := by
  rcases hi with ⟨rfl, rfl⟩ | ⟨a, rfl, rfl⟩ | ⟨a, rfl, rfl⟩ | ⟨a, rw, rfl, rfl⟩ <;>
    exact h.admitted _ (.inl rfl)

theorem WireReady.exec_acknowledgeRow {s : State} (h : WireReady s) (nack : Bool) :
    exec (if nack then .wireNack else .wireAck) s = .next (s.wireBit nack) := by
  cases nack <;> exact h.admitted _ (.inr rfl)

/-- The handler's comparison (R205) in numbers. -/
theorem ushiftRight_one_eq_iff (b : Byte) (own : Addr7) :
    b >>> 1 = own.setWidth 8 ↔ b.toNat / 2 = own.toNat := by
  have hown := own.isLt
  rw [← BitVec.toNat_inj, BitVec.toNat_ushiftRight, BitVec.toNat_setWidth, Nat.shiftRight_eq_div_pow,
    Nat.mod_eq_of_lt (by omega)]

/-- What a node that waits for an address leaves when the byte b is in (R205). -/
theorem Slave.onAddress_of_byte (n : Slave) (b : Byte) :
    Slave.onAddress { n with sr := b, armed := 0, sleeping := false } =
      if b = 0 ∨ b.toNat / 2 = n.own.toNat then
        { n with
          sr := 0, armed := 1, driven := true, sleeping := false
          state := if b.toNat % 2 = 1 then .sendData else .sendAck
          trace := n.trace ++ [.readSr, .armShift 1, .writeSr 0, .setLineDriven true] }
      else
        { n with
          sr := b, armed := 0, driven := false, sleeping := false, state := .waitForStart
          trace := n.trace ++ [.readSr, .rearmStart] } := by
  have hrw : b.getLsbD 0 = decide (b.toNat % 2 = 1) := rwField_eq_decide b
  simp only [← ushiftRight_one_eq_iff]
  split
  · next h =>
    rw [Slave.onAddress_of_match h, hrw]
    simp
  · next h =>
    rw [Slave.onAddress_of_mismatch h]
    simp

/-- A node that waits for an address takes the eight slots of a byte as that byte (R205, R304). -/
theorem Slave.busByte_of_waitForAddress {n : Slave} (b : Byte) (hsteps : n.takesSteps = true)
    (henabled : n.enabled = true) (harmed : n.armed = 8) (hstate : n.state = .waitForAddress) :
    (bitsMsbFirst b).foldl (fun m v => m.busSlot v) n =
      Slave.onAddress { n with sr := b, armed := 0, sleeping := false } := by
  have hcorrupt : n.state ≠ .corrupt := by simp [hstate]
  rw [Slave.busSlots_of_armed (vs := bitsMsbFirst b) hsteps henabled hcorrupt harmed (List.cons_ne_nil _ _),
    foldl_shiftIn_bitsMsbFirst, Slave.shiftHandler]
  dsimp only
  rw [hstate]

/-- Settles O47: the slots have the byte's bits, and a node that waits for its address runs its handler at the
last one. -/
theorem addressByteOnTheWire : Obligations.AddressByteOnTheWire := by
  intro s i b hready hi
  refine ⟨s.wireByte b, hready.exec_addressRow hi, State.wireBits_sameOutside _ s, fun hfloat => ?_⟩
  have hbits : ∀ n ∈ s.slaves, n.FloatsFor (bitsMsbFirst b).length := fun n hn _ => by
    obtain ⟨hdriven, harmed⟩ := hfloat n hn
    exact ⟨hdriven, harmed.imp_right fun h => h.ge⟩
  rw [State.wireByte_eq, State.wireBits_of_floating hbits]
  refine ⟨rfl, fun j n hn => ⟨fun hidle => ?_, fun hsteps henabled harmed hstate => ?_⟩⟩
  · simp [hn, Slave.busSlots_of_idle hidle]
  · rw [← Slave.onAddress_of_byte, ← Slave.busByte_of_waitForAddress b hsteps henabled harmed hstate]
    simp [hn]

theorem exists_getLsbD_zero (v : Bool) : ∃ w : Byte, w.getLsbD 0 = v := by
  cases v
  · exact ⟨0, rfl⟩
  · exact ⟨1, rfl⟩

/-- The last slot of a 1-bit shift is its EV_SHIFT. -/
theorem Slave.busSlot_eq_evShift {n : Slave} (w : Byte) (hsteps : n.takesSteps = true)
    (henabled : n.enabled = true) (harmed : n.armed = 1) (hstate : n.state ≠ .corrupt) :
    n.busSlot (w.getLsbD 0) = n.evShift (n.sr <<< 1) w := by
  simp [Slave.busSlot, Slave.evShift, hsteps, henabled, harmed, hstate, ← shiftIn_eq_oneBitSample]

/-- Settles O48: the row is one bit slot, which for a node with one bit armed is its EV_SHIFT. -/
theorem acknowledgeBitOnTheWire : Obligations.AcknowledgeBitOnTheWire := by
  intro s nack hready
  refine ⟨s.wireBit nack, hready.exec_acknowledgeRow nack, rfl, ?_, fun j n hn => ⟨fun hidle => ?_,
    fun hsteps henabled harmed hstate => ?_⟩⟩
  · rw [← Bool.not_eq_true, State.wireBit_bus, slotValue_eq_true, not_and_or]
    simp
  · simp [hn, Slave.busSlot_of_idle _ (.inl hidle)]
  · obtain ⟨w, hw⟩ := exists_getLsbD_zero (s.wireBit nack).bus.line
    refine ⟨n.sr <<< 1, w, hw, ?_⟩
    rw [← Slave.busSlot_eq_evShift w hsteps henabled harmed hstate, hw]
    simp [hn]

end Sys2Proof.Machine

namespace Sys2Proof.Machine

/-! ### A ring as a queue (R33, R35, R148) -/

section
variable {α : Type} {r : Ring α} {ib : Nat}

theorem Ring.push_eq_ite (r : Ring α) (x : α) :
    r.push x = if (r.write + 1) % r.n = r.read then (false, r) else
      (true, { r with storage := r.storage.set r.write x, write := (r.write + 1) % r.n }) := by
  simp [Ring.push, Ring.isFull]

theorem Ring.pop_eq_ite (r : Ring α) :
    r.pop = if r.read = r.write then (none, r) else
      (r.storage[r.read]?, { r with read := (r.read + 1) % r.n }) := by
  simp [Ring.pop, Ring.isEmpty]

/-- `count` is the one distance below N from the read index to the write index (R33). -/
theorem Ring.count_eq_iff (h : r.wf ib) {c : Nat} (hc : c < r.n) :
    r.count = c ↔ (r.read + c) % r.n = r.write := by
  obtain ⟨hn, -, hread, hwrite, -⟩ := h
  have hcount : (r.read + r.count) % r.n = r.write := by
    rw [Ring.count, Nat.add_mod_mod, Nat.add_sub_cancel' (by omega), Nat.add_mod_right,
      Nat.mod_eq_of_lt hwrite]
  constructor
  · rintro rfl
    exact hcount
  · intro hdist
    have hmod : r.count ≡ c [MOD r.n] := Nat.ModEq.add_left_cancel' r.read (hcount.trans hdist.symm)
    exact hmod.eq_of_lt_of_lt (Nat.mod_lt _ hn) hc

theorem Ring.count_lt (h : r.wf ib) : r.count < r.n := Nat.mod_lt _ h.1

theorem Ring.read_add_count (h : r.wf ib) : (r.read + r.count) % r.n = r.write :=
  (Ring.count_eq_iff h (Ring.count_lt h)).1 rfl

theorem Ring.count_eq_zero_iff (h : r.wf ib) : r.count = 0 ↔ r.isEmpty = true := by
  have hread := h.2.2.1
  rw [Ring.count_eq_iff h h.1, Ring.isEmpty_iff, Nat.add_zero, Nat.mod_eq_of_lt hread]

/-- A ring is full where it holds N-1 items: one more would bring the write index round to the read index
(R34, R148). -/
theorem Ring.isFull_iff_count (h : r.wf ib) : r.isFull = true ↔ r.count = r.n - 1 := by
  have hlt := Ring.count_lt h
  have hread := h.2.2.1
  have hnext : (r.write + 1) % r.n = (r.read + (r.count + 1)) % r.n := by
    rw [← Ring.read_add_count h, Nat.mod_add_mod, Nat.add_assoc]
  have hround : (r.read + (r.count + 1)) % r.n = r.read ↔ r.n ∣ r.count + 1 := by
    simpa only [Nat.ModEq, Nat.mod_eq_of_lt hread] using
      Nat.add_modEq_left_iff (a := r.read) (b := r.count + 1) (n := r.n)
  rw [Ring.isFull_iff, hnext, hround]
  constructor
  · intro hdvd
    have := Nat.le_of_dvd (Nat.succ_pos _) hdvd
    omega
  · intro hcount
    rw [show r.count + 1 = r.n by omega]

theorem Ring.items_length (h : r.wf ib) : r.items.length = r.count := by
  obtain ⟨hn, -, -, -, hslots⟩ := h
  have hsome : ∀ j ∈ List.range r.count, (r.storage[(r.read + j) % r.n]?).isSome := fun j _ => by
    simp [hslots, Nat.mod_lt _ hn]
  rw [Ring.items, List.filterMap_length_eq_length.2 hsome, List.length_range]

/-- A push on a ring with room appends the item: no slot before the write index is an older item's. -/
theorem Ring.items_push (h : r.wf ib) (hroom : r.isFull = false) (x : α) :
    (r.push x).2.items = r.items ++ [x] := by
  have hlt := Ring.count_lt h
  have hcount : (r.push x).2.count = r.count + 1 := by
    have hnotFull : r.count ≠ r.n - 1 := fun hc => by simp [(Ring.isFull_iff_count h).2 hc] at hroom
    refine (Ring.count_eq_iff (Ring.wf_push h x) (by rw [Ring.push_n]; omega)).2 ?_
    rw [Ring.push_of_room hroom]
    dsimp only
    rw [← Ring.read_add_count h, Nat.mod_add_mod, Nat.add_assoc]
  have holder : ∀ j ∈ List.range r.count, (r.read + j) % r.n ≠ r.write := fun j hj hw => by
    have hj := List.mem_range.1 hj
    have := (Ring.count_eq_iff h (hj.trans hlt)).2 hw
    omega
  have hslot : r.write < r.storage.length := h.2.2.2.2 ▸ h.2.2.2.1
  rw [Ring.items, hcount, Ring.push_of_room hroom, List.range_succ, List.filterMap_append, Ring.items]
  congr 1
  · exact List.filterMap_congr fun j hj => List.getElem?_set_ne (holder j hj).symm
  · simp [Ring.read_add_count h, hslot]

/-- A pop takes the oldest item off a ring that holds data. -/
theorem Ring.items_eq_cons (h : r.wf ib) (hdata : r.isEmpty = false) :
    ∃ v, r.pop.1 = some v ∧ r.items = v :: r.pop.2.items := by
  have hpop := Ring.pop_of_data hdata
  obtain ⟨c, hc⟩ : ∃ c, r.count = c + 1 := Nat.exists_eq_succ_of_ne_zero fun hzero => by
    simp [(Ring.count_eq_zero_iff h).1 hzero] at hdata
  have hnext : ∀ j, ((r.read + 1) % r.n + j) % r.n = (r.read + (j + 1)) % r.n := fun j => by
    rw [Nat.mod_add_mod, Nat.add_assoc, Nat.add_comm 1]
  have hcount : r.pop.2.count = c := by
    have hlt := Ring.count_lt h
    refine (Ring.count_eq_iff (Ring.wf_pop h) (by rw [Ring.pop_n]; omega)).2 ?_
    rw [hpop]
    dsimp only
    rw [hnext, ← hc, Ring.read_add_count h]
  obtain ⟨v, hv⟩ := Option.isSome_iff_exists.1 (Ring.storage_read_isSome h)
  refine ⟨v, by rw [hpop, hv], ?_⟩
  rw [Ring.items, Ring.items, hcount, hc, hpop, List.range_succ_eq_map, List.filterMap_cons,
    List.filterMap_map]
  simp only [Nat.add_zero, Nat.mod_eq_of_lt h.2.2.1, hv, hnext]
  rfl

theorem Ring.items_of_empty (h : r.wf ib) (hempty : r.isEmpty = true) : r.items = [] := by
  rw [← List.length_eq_zero_iff, Ring.items_length h, Ring.count_eq_zero_iff h, hempty]

theorem Ring.push_fst (r : Ring α) (x : α) : (r.push x).1 = !r.isFull := by
  unfold Ring.push
  split <;> simp [*]

end

/-- Settles O17: a push is decided by `isFull`, a pop by `isEmpty`, and both are conditions on `count`. -/
theorem ringIsABoundedQueue : Obligations.RingIsABoundedQueue := by
  intro α ib r x h
  have hlength := Ring.items_length h
  have hlt := Ring.count_lt h
  refine ⟨hlength, by omega, ?_, fun hdone => ?_, fun hfail => ?_, ?_⟩
  · simp [Ring.push_fst, hlength, Ring.isFull_iff_count h]
  · exact Ring.items_push h (by simpa [Ring.push_fst] using hdone) x
  · rw [Ring.push_of_full (by simpa [Ring.push_fst] using hfail)]
  · rw [Ring.hasData_eq_not_isEmpty]
    cases hempty : r.isEmpty
    · obtain ⟨v, hv, hitems⟩ := Ring.items_eq_cons h hempty
      simp [hv, hitems]
    · simp [Ring.pop_of_empty hempty, Ring.items_of_empty h hempty]

/-! ### RB_PUSH, RB_POP and RB_HAS_DATA admitted (R119, R340) -/

/-- RB_PUSH, RB_POP and RB_HAS_DATA with the ring reference q; an element of a slave ring is a byte (log 25). -/
inductive RingOp (q : Nat) : Instr → Prop where
  | push (x : Nat) : (q < 2 → x < 256) → RingOp q (.rbPush q x)
  | pop : RingOp q (.rbPop q)
  | hasData : RingOp q (.rbHasData q)

theorem NodeReady.node {s : State} {n : Slave} {a : Agent} (h : NodeReady s n a) : s.node? = some n := h.1

theorem NodeReady.agent {s : State} {n : Slave} {a : Agent} (h : NodeReady s n a) : s.ctx.agent = a := by
  obtain ⟨-, -, -, -, hagent, -⟩ := h
  exact hagent

theorem RingReady.agent {s : State} {q : Nat} {r : Standalone} {a : Agent} (h : RingReady s q r a) :
    s.ctx.agent = a := by
  obtain ⟨-, -, -, hagent, -⟩ := h
  exact hagent

section
variable {s : State} {q : Nat} {i : Instr}

/-- The checks of R119 that need no state. -/
theorem RingOp.wellFormed (h : RingOp q i) (p : Params) :
    i.shapeOk = true ∧ i.kOk = true ∧ i.cfgOk p.indexBits = true ∧ i.bufOk = true := by
  cases h with
  | push x hx =>
    have hshape : 2 ≤ q ∨ x < 256 := (Nat.lt_or_ge q 2).symm.imp_right hx
    exact ⟨by simpa [Instr.shapeOk] using hshape, rfl, rfl, rfl⟩
  | pop | hasData => exact ⟨rfl, rfl, rfl, rfl⟩

theorem RingOp.ringOk (h : RingOp q i) (s : State) : s.ringOk i = s.ringExists q := by
  cases h <;> rfl

theorem RingOp.actsOn_slave (h : RingOp q i) (hq : q < 2) (s : State) : s.actsOn i = s.slaveInst := by
  obtain rfl | rfl : q = 0 ∨ q = 1 := by omega
  all_goals cases h <;> rfl

theorem RingOp.actsOn_ring (h : RingOp q i) (hq : 2 ≤ q) (s : State) : s.actsOn i = s.ringInst q := by
  obtain ⟨k, rfl⟩ := Nat.exists_eq_add_of_le' hq
  cases h <;> rfl

theorem State.ringExists_standalone (s : State) (hq : 2 ≤ q) : s.ringExists q = (s.ring? q).isSome := by
  obtain ⟨k, rfl⟩ := Nat.exists_eq_add_of_le' hq
  rfl

/-- WF_RING fails where q names no ring (R119; log 31). -/
theorem State.ringExists_eq_false
    (h : q = 0 ∧ (∀ n, s.node? = some n → n.rxCreated = false) ∨
      q = 1 ∧ (∀ n, s.node? = some n → n.txCreated = false) ∨ 2 ≤ q ∧ s.ring? q = none) :
    s.ringExists q = false := by
  rcases h with ⟨rfl, h⟩ | ⟨rfl, h⟩ | ⟨hq, h⟩
  · exact (Option.any_eq_false _ _).2 h
  · exact (Option.any_eq_false _ _).2 h
  · simp [State.ringExists_standalone s hq, h]

theorem NodeReady.ringExists {n : Slave} {a : Agent} (h : NodeReady s n a) (hq : q < 2) :
    s.ringExists q = true := by
  obtain ⟨hnode, hrx, htx, -⟩ := h
  obtain rfl | rfl : q = 0 ∨ q = 1 := by omega
  · simp [State.ringExists, hnode, hrx]
  · simp [State.ringExists, hnode, htx]

/-- On the rings of a ready node an operation runs if R340 lets it through. -/
theorem RingOp.admitted_slave {n : Slave} {a : Agent} (h : RingOp q i) (hq : q < 2)
    (hready : NodeReady s n a) (hstall : s.stall = none) (hmay : s.mayIssue i = true) (k : Slave → Out) :
    s.admitted i (s.onNode k) = k n := by
  obtain ⟨hshape, hk, hcfg, hbuf⟩ := h.wellFormed s.cfg
  have hacts := h.actsOn_slave hq s
  rw [State.admit_node _ hready hacts hstall (State.failedCheck_eq_none hshape hk
    ((h.ringOk s).trans (hready.ringExists hq)) hmay hcfg (hacts ▸ hready.configOk) hbuf)]
  exact State.onNode_of hready.node k

/-- On a ready stand-alone ring an operation runs if R340 lets it through. -/
theorem RingOp.admitted_ring {r : Standalone} {a : Agent} (h : RingOp q i) (hready : RingReady s q r a)
    (ha : a = .ringProducer q ∨ a = .ringConsumer q) (hmay : s.mayIssue i = true) (k : Standalone → Out) :
    s.admitted i (s.onRing q k) = k r := by
  have ⟨hq, hring, _, _, hcapacity⟩ := hready
  obtain ⟨hshape, hk, hcfg, hbuf⟩ := h.wellFormed s.cfg
  have hacts := h.actsOn_ring hq s
  have hexists : s.ringOk i = true := by simp [h.ringOk, State.ringExists_standalone s hq, hring]
  have hconfig : s.configOk (s.actsOn i) = true := by
    simp [hacts, State.ringInst_of hring, State.configOk, hring, hcapacity]
  obtain ⟨hslaveFg, hmasterFg, hengine⟩ : a ≠ .slaveFg ∧ a ≠ .masterFg ∧ a ≠ .masterEngine := by
    rcases ha with rfl | rfl <;> simp
  rw [State.admit_ring _ hready hslaveFg hmasterFg hengine hacts
    (State.failedCheck_eq_none hshape hk hexists hmay hcfg hconfig hbuf)]
  exact State.onRing_of hring k

end

/-! ### RB_PUSH, RB_POP and RB_HAS_DATA on a ring (R143, R144, R145) -/

/-- Settles O11: the two agents R340 names are let through, and what runs is `Ring.push`. -/
theorem pushOnSlaveRings : Obligations.PushOnSlaveRings := by
  intro s n x hx
  refine ⟨fun hready henabled hstate => ?_, fun hready hfree => ?_⟩
  · have hmay : s.mayIssue (.rbPush 0 x) = true := by
      simp [State.mayIssue, hready.agent, hready.node, Slave.pushesRx, henabled, hstate]
    refine ((RingOp.push x fun _ => hx).admitted_slave Nat.two_pos hready
      (hready.stall nofun (by simp)) hmay _).trans ?_
    rw [Ring.push_eq_ite]
    split <;> rfl
  · have hmay : s.mayIssue (.rbPush 1 x) = true := by simp [State.mayIssue, hready.agent]
    refine ((RingOp.push x fun _ => hx).admitted_slave Nat.one_lt_two hready
      (hready.stall (fun _ => hfree) (by simp)) hmay _).trans ?_
    rw [Ring.push_eq_ite]
    split <;> rfl

/-- Settles O12: the two agents R340 names are let through, and what runs is `Ring.pop`. -/
theorem popOnSlaveRings : Obligations.PopOnSlaveRings := by
  intro s n
  refine ⟨fun hready hfree => ?_, fun hready henabled hstate => ?_⟩
  · have hmay : s.mayIssue (.rbPop 0) = true := by simp [State.mayIssue, hready.agent]
    refine (RingOp.pop.admitted_slave Nat.two_pos hready
      (hready.stall (fun _ => hfree) (by simp)) hmay _).trans ?_
    rw [Ring.pop_eq_ite]
    split <;> rfl
  · have hmay : s.mayIssue (.rbPop 1) = true := by
      simp [State.mayIssue, hready.agent, hready.node, Slave.popsTx, henabled, hstate]
    refine (RingOp.pop.admitted_slave Nat.one_lt_two hready
      (hready.stall nofun (by simp)) hmay _).trans ?_
    rw [Ring.pop_eq_ite]
    split <;> rfl

/-- Settles O14: the declared producer and consumer are let through, and what runs is `Ring.push` and
`Ring.pop`. -/
theorem pushAndPopOnStandaloneRings : Obligations.PushAndPopOnStandaloneRings := by
  intro s q r x
  refine ⟨fun hready => ?_, fun hready => ?_⟩
  all_goals obtain ⟨k, rfl⟩ := Nat.exists_eq_add_of_le' hready.1
  · have hmay : s.mayIssue (.rbPush (k + 2) x) = true := by simp [State.mayIssue, hready.agent]
    refine ((RingOp.push x fun h => by omega).admitted_ring hready (.inl rfl) hmay _).trans ?_
    rw [Ring.push_eq_ite]
    split <;> rfl
  · have hmay : s.mayIssue (.rbPop (k + 2)) = true := by simp [State.mayIssue, hready.agent]
    refine (RingOp.pop.admitted_ring hready (.inr rfl) hmay _).trans ?_
    rw [Ring.pop_eq_ite]
    split <;> rfl

/-- Settles O13: the agents R340 names are let through, and what runs is `Ring.hasData`. -/
theorem hasDataComparesTheIndices : Obligations.HasDataComparesTheIndices := by
  intro s n
  refine ⟨fun hready hfree => ?_, fun hready => ?_, fun q r hready => ?_⟩
  · have hmay : s.mayIssue (.rbHasData 0) = true := by simp [State.mayIssue, hready.agent]
    exact RingOp.hasData.admitted_slave Nat.two_pos hready (hready.stall (fun _ => hfree) (by simp)) hmay _
  · have hmay : s.mayIssue (.rbHasData 1) = true := by simp [State.mayIssue, hready.agent]
    exact RingOp.hasData.admitted_slave Nat.one_lt_two hready (hready.stall nofun (by simp)) hmay _
  · obtain ⟨k, rfl⟩ := Nat.exists_eq_add_of_le' hready.1
    have hmay : s.mayIssue (.rbHasData (k + 2)) = true := by simp [State.mayIssue, hready.agent]
    exact RingOp.hasData.admitted_ring hready (.inr rfl) hmay _

/-! ### RB_INIT (R140) and what is refused (R333) -/

section
variable {s : State} {q n : Nat}

theorem any_quiescent_of_eq_clean {o : Option Status} (h : o = some Status.clean) :
    o.any Status.quiescent = false := by
  rw [h]
  rfl

theorem State.statusOf_node {x : Slave} (h : s.node? = some x) :
    s.statusOf (.slave s.ctx.node) = some x.status := by
  rw [State.node?] at h
  simp [State.statusOf, h]

/-- Charged to a clean record and issued by an agent that is not stalled, what fails a check is refused. -/
theorem State.admitted_of_failedCheck {i : Instr} {c : WfCheck} (run : Out)
    (hclean : s.statusOf (s.instOf i) = some Status.clean) (hstall : s.stall = none)
    (hfail : s.failedCheck i = some c) :
    s.admitted i run = .next (s.refuse (s.instOf i) c.reason) :=
  State.admit_refused run (any_quiescent_of_eq_clean hclean) hstall hfail

theorem exec_of_failedCheck {i : Instr} {c : WfCheck} (hclean : s.statusOf (s.instOf i) = some Status.clean)
    (hstall : s.stall = none) (hfail : s.failedCheck i = some c) :
    exec i s = .next (s.refuse (s.instOf i) c.reason) := by
  obtain ⟨run, hrun⟩ := exec_admitted i s
  rw [hrun, State.admitted_of_failedCheck run hclean hstall hfail]

theorem State.failedCheck_ring {i : Instr} (hshape : i.shapeOk = true) (hk : i.kOk = true)
    (hring : s.ringOk i = false) : s.failedCheck i = some .ring := by
  simp [State.failedCheck, hshape, hk, hring]

theorem State.failedCheck_cfg {i : Instr} (hshape : i.shapeOk = true) (hk : i.kOk = true)
    (hring : s.ringOk i = true) (hmay : s.mayIssue i = true) (hconfig : s.configOk (s.instOf i) = false) :
    s.failedCheck i = some .cfg := by
  simp [State.failedCheck, hshape, hk, hring, hmay, hconfig]

/-- The ring q of the issuing node, or the stand-alone ring q, has not been created yet (R140; log 23). -/
def State.ringIsNew (s : State) (q : Nat) : Bool :=
  match q with
  | 0 => s.node?.any (fun x => !x.rxCreated)
  | 1 => s.node?.any (fun x => !x.txCreated)
  | q => (s.ring? q).isNone

theorem State.mayIssue_rbInit (s : State) (q n : Nat) :
    s.mayIssue (.rbInit q n) = (s.ctx.agent == .creator && s.ringIsNew q) := by
  rcases q with _ | _ | k <;> rfl

theorem State.ringIsNew_standalone (s : State) (hq : 2 ≤ q) : s.ringIsNew q = (s.ring? q).isNone := by
  obtain ⟨k, rfl⟩ := Nat.exists_eq_add_of_le' hq
  rfl

/-- A ring that exists is not new, and neither is a slave ring of a node without slave engine (R140; log 31). -/
theorem State.ringIsNew_eq_false
    (h : q = 0 ∧ (∀ x, s.node? = some x → x.rxCreated = true) ∨
      q = 1 ∧ (∀ x, s.node? = some x → x.txCreated = true) ∨ 2 ≤ q ∧ (s.ring? q).isSome = true) :
    s.ringIsNew q = false := by
  rcases h with ⟨rfl, h⟩ | ⟨rfl, h⟩ | ⟨hq, h⟩
  · exact (Option.any_eq_false _ _).2 fun x hx => by simp [h x hx]
  · exact (Option.any_eq_false _ _).2 fun x hx => by simp [h x hx]
  · simp [State.ringIsNew_standalone s hq, h]

theorem State.instOf_rbInit_slave {x : Slave} (ha : s.ctx.agent = .creator) (hx : s.node? = some x)
    (hq : q < 2) : s.instOf (.rbInit q n) = .slave s.ctx.node := by
  rw [State.instOf_target _ (.inr (.inr ha)), ← State.slaveInst_of hx]
  exact if_pos hq

theorem State.instOf_rbInit_standalone (ha : s.ctx.agent = .creator) (hq : 2 ≤ q) :
    s.instOf (.rbInit q n) = .outside ⟨s.ctx, some q⟩ := by
  rw [State.instOf_target _ (.inr (.inr ha))]
  exact if_neg (Nat.not_lt.2 hq)

/-- Where R340 lets RB_INIT through, its capacity and those of what it is charged to
decide (R119). -/
theorem State.failedCheck_rbInit (hmay : s.mayIssue (.rbInit q n) = true) :
    s.failedCheck (.rbInit q n) =
      if (ringConfigOk s.cfg.indexBits n && s.configOk (s.instOf (.rbInit q n))) = true then none
      else some .cfg := by
  cases h : ringConfigOk s.cfg.indexBits n && s.configOk (s.instOf (.rbInit q n)) <;>
    simp [State.failedCheck, Instr.shapeOk, Instr.kOk, State.ringOk, Instr.cfgOk, Instr.bufOk, hmay, h]

/-- The creation of a new ring is carried out or refused with BAD_CONFIG (R140). -/
theorem State.admitted_rbInit (ha : s.ctx.agent = .creator) (hnew : s.ringIsNew q = true)
    (hclean : s.statusOf (s.instOf (.rbInit q n)) = some Status.clean) (run : Out) :
    s.admitted (.rbInit q n) run =
      if (ringConfigOk s.cfg.indexBits n && s.configOk (s.instOf (.rbInit q n))) = true then run
      else .next (s.refuse (s.instOf (.rbInit q n)) .badConfig) := by
  have hstall : s.stall = none := by simp [State.stall, ha]
  have hcheck := State.failedCheck_rbInit (s := s) (q := q) (n := n) (by simp [State.mayIssue_rbInit, ha, hnew])
  split
  · next hconfig =>
    exact State.admit_run run (any_quiescent_of_eq_clean hclean) hstall (hcheck.trans (if_pos hconfig))
  · next hconfig =>
    exact State.admitted_of_failedCheck run hclean hstall (hcheck.trans (if_neg hconfig))

theorem ringConfigOk_iff {indexBits n : Nat} :
    ringConfigOk indexBits n = true ↔ 1 ≤ n ∧ n ≤ 2 ^ indexBits := by
  simp [ringConfigOk]

theorem ringConfigOk_eq_false_iff {indexBits n : Nat} :
    ringConfigOk indexBits n = false ↔ n = 0 ∨ 2 ^ indexBits < n := by
  rw [← Bool.not_eq_true, ringConfigOk_iff]
  omega

theorem Ring.created_of_length {α : Type} {storage : List α} (h : storage.length = n) :
    Ring.created storage = ⟨n, 0, 0, storage⟩ := by
  rw [← h]
  rfl

/-- The creation of a new ring of a clean node is carried out where the capacities are admitted, and else
refused (R140). -/
theorem State.admitted_rbInit_slave {x : Slave} (ha : s.ctx.agent = .creator) (hx : s.node? = some x)
    (hclean : x.status = Status.clean) (hq : q < 2) (hnew : s.ringIsNew q = true) (run : Out) :
    s.admitted (.rbInit q n) run =
      if (ringConfigOk s.cfg.indexBits n && x.configOk s.cfg.indexBits) = true then run
      else .next (s.putNode { x with status := ⟨[], some .badConfig⟩ }) := by
  have hinst : s.instOf (.rbInit q n) = .slave s.ctx.node := State.instOf_rbInit_slave ha hx hq
  have hconfig : s.configOk (.slave s.ctx.node) = x.configOk s.cfg.indexBits := by
    rw [State.node?] at hx
    simp [State.configOk, hx]
  have hrefuse : s.refuse (.slave s.ctx.node) .badConfig =
      s.putNode { x with status := ⟨[], some .badConfig⟩ } := by
    rw [State.refuse, State.mapStatus_node hx, hclean]
    rfl
  rw [State.admitted_rbInit ha hnew (by rw [hinst, State.statusOf_node hx, hclean]), hinst, hconfig, hrefuse]

/-- The creation of a new stand-alone ring is carried out where its capacity is admitted, and else refused
(R140). -/
theorem State.admitted_rbInit_standalone (ha : s.ctx.agent = .creator) (hq : 2 ≤ q) (hnone : s.ring? q = none)
    (hclean : s.statusOf (.outside ⟨s.ctx, some q⟩) = some Status.clean) (run : Out) :
    s.admitted (.rbInit q n) run =
      if ringConfigOk s.cfg.indexBits n = true then run
      else .next (s.refuse (.outside ⟨s.ctx, some q⟩) .badConfig) := by
  have hinst : s.instOf (.rbInit q n) = .outside ⟨s.ctx, some q⟩ := State.instOf_rbInit_standalone ha hq
  have hnew : s.ringIsNew q = true := by simp [State.ringIsNew_standalone s hq, hnone]
  rw [State.admitted_rbInit ha hnew (hinst ▸ hclean), hinst]
  simp [State.configOk]

end

/-- Settles O15: the creation is admitted, and its slots are drawn free values. -/
theorem ringCreation : Obligations.RingCreation := by
  intro s q n ha h1 hmax
  have hcapacity : ringConfigOk s.cfg.indexBits n = true := ringConfigOk_iff.2 ⟨h1, hmax⟩
  refine ⟨fun hq hnone hclean => ?_, fun x hx hclean hconfig => ⟨fun hrx => ?_, fun htx => ?_⟩⟩
  · refine ⟨freeElems s.draws n, s.draws + n, freeElems_length _ _, ?_⟩
    rw [← Ring.created_of_length (freeElems_length s.draws n)]
    obtain ⟨k, rfl⟩ := Nat.exists_eq_add_of_le' hq
    exact (State.admitted_rbInit_standalone ha hq hnone hclean _).trans (if_pos hcapacity)
  all_goals
    refine ⟨freeBytes s.draws n, s.draws + n, freeBytes_length _ _, ?_⟩
    rw [← Ring.created_of_length (freeBytes_length s.draws n)]
  · have hnew : s.ringIsNew 0 = true := by simp [State.ringIsNew, hx, hrx]
    refine ((State.admitted_rbInit_slave ha hx hclean Nat.two_pos hnew _).trans
      (if_pos (by rw [hcapacity, hconfig]; rfl))).trans ?_
    exact State.onNode_of hx _
  · have hnew : s.ringIsNew 1 = true := by simp [State.ringIsNew, hx, htx]
    refine ((State.admitted_rbInit_slave ha hx hclean Nat.one_lt_two hnew _).trans
      (if_pos (by rw [hcapacity, hconfig]; rfl))).trans ?_
    exact State.onNode_of hx _

/-- A node created with a capacity that is not admitted records the refusal (R140, R333). -/
theorem Slave.created_status_of_badConfig {p : Params} {rx tx : Nat}
    (h : ringConfigOk p.indexBits rx = false ∨ ringConfigOk p.indexBits tx = false) :
    (Slave.created p rx tx).status = ⟨[], some .badConfig⟩ := by
  rcases h with h | h <;> simp [Slave.created, h]

/-- Settles O16: each clause names the first check of R119 that fails. -/
theorem ringOperationsRefused : Obligations.RingOperationsRefused := by
  refine ⟨fun s q n ha hn => ⟨fun hq hnone hclean => ?_, fun x hx hclean hnew => ?_⟩, fun p rx tx h => ?_,
    fun s q n hstall hclean h => ?_, fun s q x i hstall hbyte hi hclean h => ?_,
    fun s i hstall hclean hshape hk hring hmay hconfig => ?_⟩
  · refine (State.admitted_rbInit_standalone ha hq hnone hclean _).trans (if_neg ?_)
    simp [ringConfigOk_eq_false_iff.2 hn]
  · have hq : q < 2 := by omega
    have hnew : s.ringIsNew q = true := by
      rcases hnew with ⟨rfl, h⟩ | ⟨rfl, h⟩ <;> simp [State.ringIsNew, hx, h]
    refine (State.admitted_rbInit_slave ha hx hclean hq hnew _).trans (if_neg ?_)
    simp [ringConfigOk_eq_false_iff.2 hn]
  · refine Slave.created_status_of_badConfig ?_
    rwa [ringConfigOk_eq_false_iff, ringConfigOk_eq_false_iff, or_assoc]
  · have hmay : s.mayIssue (.rbInit q n) = false := by
      rw [State.mayIssue_rbInit]
      rcases h with h | h
      · simp [h]
      · simp [State.ringIsNew_eq_false h]
    exact exec_of_failedCheck hclean hstall (State.failedCheck_agent rfl rfl rfl hmay)
  · have hop : RingOp q i := by
      rcases hi with rfl | rfl | rfl
      · exact .push x hbyte
      · exact .pop
      · exact .hasData
    obtain ⟨hshape, hk, -, -⟩ := hop.wellFormed s.cfg
    have hring : s.ringOk i = false := (hop.ringOk s).trans (State.ringExists_eq_false h)
    exact exec_of_failedCheck hclean hstall (State.failedCheck_ring hshape hk hring)
  · exact exec_of_failedCheck hclean hstall (State.failedCheck_cfg hshape hk hring hmay hconfig)

end Sys2Proof.Machine

namespace Sys2Proof.Machine

/-! ### Operations of a slave engine admitted (R119, R340) -/

/-- The operations of a slave engine that name no ring: the bus events, the foreground interface and the HAL
actions; ARM_SHIFT's k is one WF_K admits. -/
inductive SlaveOp : Instr → Prop where
  | evStart : SlaveOp .evStart
  | evShift (w : Byte) : SlaveOp (.evShift w)
  | evOther : SlaveOp .evOther
  | initEngine (a : Byte) : SlaveOp (.initEngine a)
  | sendChar (b : Byte) : SlaveOp (.sendChar b)
  | charAvailable : SlaveOp .charAvailable
  | receiveChar : SlaveOp .receiveChar
  | sleep : SlaveOp .sleep
  | armShift (k : Nat) : k = 1 ∨ k = 8 → SlaveOp (.armShift k)
  | setLineDriven (d : Bool) : SlaveOp (.setLineDriven d)
  | readSr : SlaveOp .readSr
  | writeSr (v : Byte) : SlaveOp (.writeSr v)
  | rearmStart : SlaveOp .rearmStart

section
variable {s : State} {n : Slave} {i : Instr} {a : Agent}

/-- The checks of R119 but for WF_AGENT and the capacities of the node's rings. -/
theorem SlaveOp.wellFormed (h : SlaveOp i) (s : State) :
    i.shapeOk = true ∧ i.kOk = true ∧ s.ringOk i = true ∧ i.cfgOk s.cfg.indexBits = true ∧ i.bufOk = true := by
  cases h with
  | armShift k hk => exact ⟨rfl, by simpa [Instr.kOk] using hk, rfl, rfl, rfl⟩
  | _ => exact ⟨rfl, rfl, rfl, rfl, rfl⟩

theorem SlaveOp.actsOn (h : SlaveOp i) (s : State) : s.actsOn i = s.slaveInst := by
  cases h <;> rfl

/-- On a ready node an operation of the slave engine runs if R340 lets it through. -/
theorem SlaveOp.admitted (h : SlaveOp i) (hready : NodeReady s n a) (hstall : s.stall = none)
    (hmay : s.mayIssue i = true) (k : Slave → Out) : s.admitted i (s.onNode k) = k n := by
  obtain ⟨hshape, hk, hring, hcfg, hbuf⟩ := h.wellFormed s
  have hacts := h.actsOn s
  rw [State.admit_node _ hready hacts hstall
    (State.failedCheck_eq_none hshape hk hring hmay hcfg (hacts ▸ hready.configOk) hbuf)]
  exact State.onNode_of hready.node k

theorem NodeReady.onSlave (h : NodeReady s n a) : s.onSlave a = true := by
  simp [State.onSlave, h.agent, h.node, h.isCreated]

/-! ### The slave bus events on a ready node (R167, R168, R169) -/

theorem Slave.evStart_eq (n : Slave) : n.evStart =
    { n with
      armed := 8, driven := false, sleeping := false, state := .waitForAddress
      trace := n.trace ++ [.armShift 8, .setLineDriven false] } := by
  simp [Slave.evStart, Slave.startHandler, Slave.armShift, Slave.setLineDriven, Slave.record, Slave.goto]

/-- On a ready node EV_START runs where it is delivered and the node is enabled (R167). -/
theorem NodeReady.exec_evStart (h : NodeReady s n .env) (hstarts : s.cfg.env.starts = true) :
    exec .evStart s = if n.enabled = true then .next (s.putNode n.evStart) else .fault .notAdmissible :=
  SlaveOp.evStart.admitted h (h.stall nofun (by simp)) (by simp [State.mayIssue, h.onSlave, hstarts]) _

/-- On a ready node EV_SHIFT runs where it is delivered and admissible (R168). -/
theorem NodeReady.exec_evShift (h : NodeReady s n .env) (hshifts : s.cfg.env.shifts = true) (w : Byte) :
    exec (.evShift w) s =
      if n.shiftAdmissible = true then
        .next { s.putNode (n.evShift (Config.freeByte s.draws) w) with
          draws := if n.armed = 1 then s.draws + 1 else s.draws }
      else .fault .notAdmissible :=
  (SlaveOp.evShift w).admitted h (h.stall nofun (by simp)) (by simp [State.mayIssue, h.onSlave, hshifts]) _

theorem Slave.shiftAdmissible_iff :
    n.shiftAdmissible = true ↔ n.enabled = true ∧ (n.armed = 1 ∨ n.armed = 8) := by
  simp [Slave.shiftAdmissible]

/-! ### The slave HAL actions in the HAL bench (R161-R165; log 8) -/

theorem HalReady.nodeReady (h : HalReady s n) : NodeReady s n .isr := h.1

theorem HalReady.mayDriveHal (h : HalReady s n) : s.mayDriveHal = true := by
  obtain ⟨hready, hbench, hdisabled⟩ := h
  simp [State.mayDriveHal, hready.agent, hready.node, hready.isCreated, hbench, hdisabled]

/-- In the HAL bench a HAL action runs on a node before its INITIALIZE if R340 lets it through. -/
theorem HalReady.admitted (h : HalReady s n) (hop : SlaveOp i) (hmay : s.mayIssue i = true)
    (k : Slave → Out) : s.admitted i (s.onNode k) = k n :=
  hop.admitted h.nodeReady (h.nodeReady.stall nofun (by simp)) hmay k

/-- In the HAL bench READ_SR is let through once hal.sr has been written (R334). -/
theorem HalReady.mayIssue_readSr (h : HalReady s n) : s.mayIssue .readSr = n.srWritten := by
  simp [State.mayIssue, h.mayDriveHal, h.nodeReady.node]

/-- What the ISR issues on a ready node is refused where it fails a check (R119, R333). -/
theorem NodeReady.exec_isr_of_failedCheck {c : WfCheck} (h : NodeReady s n .isr)
    (hfail : s.failedCheck i = some c) :
    exec i s = .next (s.putNode { n with status := ⟨[], some c.reason⟩ }) := by
  obtain ⟨run, hrun⟩ := exec_admitted i s
  rw [hrun, State.admit_node_refused run h (h.instOf i (.inl rfl)) (h.stall nofun (by simp)) hfail]

/-- WF_K fails for a k that is neither 1 nor 8 (R161). -/
theorem State.failedCheck_armShift (s : State) {k : Nat} (hne1 : k ≠ 1) (hne8 : k ≠ 8) :
    s.failedCheck (.armShift k) = some .k := by
  simp [State.failedCheck, Instr.shapeOk, Instr.kOk, hne1, hne8]

/-! ### The completion of an operation in flight (R184, R308) -/

theorem State.statusOf_master {m : Master} (h : s.master? = some m) :
    s.statusOf (.master s.ctx.node) = some m.status := by
  rw [State.master?] at h
  simp [State.statusOf, h]

/-- The issuer of a completion on the issuing node: the environment, or the wire where it is this master's
environment (R340; log 19). -/
def State.completer (s : State) : Agent := if s.cfg.env = .wire s.ctx.node then .wire else .env

theorem State.agent_eq_completer (h : s.ctx.agent = .env ∧ s.cfg.env ≠ .wire s.ctx.node ∨
    s.ctx.agent = .wire ∧ s.cfg.env = .wire s.ctx.node) : s.ctx.agent = s.completer := by
  rcases h with ⟨hagent, henv⟩ | ⟨hagent, henv⟩ <;> simp [State.completer, hagent, henv]

/-- From the one who completes, a completion on a clean master runs where it is admissible (R184). -/
theorem exec_envMComplete {m : Master} (hmaster : s.master? = some m) (hclean : m.status = Status.clean)
    (hagent : s.ctx.agent = s.completer) (st d : Byte) :
    exec (.envMComplete st d) s =
      if s.completes m = true then .next (s.putMaster (m.completeOp (s.answer m st d).1 (s.answer m st d).2))
      else .fault .notAdmissible := by
  have hmay : s.mayIssue (.envMComplete st d) = true := by
    simp [State.mayIssue, hagent, State.completer, hmaster]
  have hstall : s.stall = none := by
    rw [State.completer] at hagent
    split at hagent <;> simp [State.stall, hagent]
  have hstatus : (s.statusOf (s.instOf (.envMComplete st d))).any Status.quiescent = false := by
    rw [State.instOf_master? hmay hmaster rfl]
    exact any_quiescent_of_eq_clean ((State.statusOf_master hmaster).trans (congrArg some hclean))
  exact (State.admit_run _ hstatus hstall
    (State.failedCheck_eq_none rfl rfl rfl hmay rfl s.configOk_masterInst rfl)).trans
    (State.onMaster_of hmaster _)

end

/-- Settles O18: an enabled node takes the start, whatever its state is, and `Slave.evStart` is what runs. -/
theorem startConditionInAnyState : Obligations.StartConditionInAnyState := by
  intro s n ⟨hready, hstarts, henabled⟩
  rw [hready.exec_evStart hstarts, if_pos henabled, n.evStart_eq]

/-- Settles O19: each event is let through by R340 and is then not admissible. -/
theorem inadmissibleEventHasNoStep : Obligations.InadmissibleEventHasNoStep := by
  refine ⟨fun s n hready hdisabled => ⟨fun hstarts => ?_, fun hshifts w => ?_⟩,
    fun s n w hready hshifts hne1 hne8 => ?_, fun s m st d hmaster hclean hagent hnot => ?_⟩
  · rw [hready.exec_evStart hstarts, if_neg (by simp [hdisabled])]
  · rw [hready.exec_evShift hshifts, if_neg (by simp [Slave.shiftAdmissible_iff, hdisabled])]
  · rw [hready.exec_evShift hshifts, if_neg (by simp [Slave.shiftAdmissible_iff, hne1, hne8])]
  · rw [exec_envMComplete hmaster hclean (State.agent_eq_completer hagent), if_neg ?_]
    rw [State.completes_iff]
    rintro ⟨hflight, hdue⟩
    rcases hnot with hop | hcomplete | ⟨hwire, hpending⟩
    · simp [Master.inFlight, hop] at hflight
    · simp [Master.inFlight, hcomplete] at hflight
    · rcases hagent with ⟨henv, -⟩ | ⟨-, henv⟩
      · cases henv.symm.trans hwire
      · exact hpending (hdue henv)

/-- Settles O26: EV_OTHER is admissible at any time, and `Slave.evOther` is what runs. -/
theorem otherEventWakesOnly : Obligations.OtherEventWakesOnly := fun _ _ hready =>
  SlaveOp.evOther.admitted hready (hready.stall nofun (by simp)) hready.onSlave _

/-- Settles O36: in the HAL bench each action is let through, but for a READ_SR of an unwritten hal.sr, and
WF_K precedes WF_AGENT. -/
theorem slaveHalActions : Obligations.SlaveHalActions := by
  refine fun s n => ⟨fun hhal => ⟨fun k hk => ?_, fun d => ?_, fun hwritten => ?_, fun hunwritten => ?_,
    fun v => ?_, ?_⟩, fun hready k hne1 hne8 => ?_⟩
  · exact hhal.admitted (.armShift k hk) hhal.mayDriveHal _
  · exact hhal.admitted (.setLineDriven d) hhal.mayDriveHal _
  · exact hhal.admitted .readSr (hhal.mayIssue_readSr.trans hwritten) _
  · exact hhal.nodeReady.exec_isr_of_failedCheck
      (State.failedCheck_agent rfl rfl rfl (hhal.mayIssue_readSr.trans hunwritten))
  · exact hhal.admitted (.writeSr v) hhal.mayDriveHal _
  · exact hhal.admitted .rearmStart hhal.mayDriveHal _
  · exact hready.exec_isr_of_failedCheck (s.failedCheck_armShift hne1 hne8)

/-- Settles O38: the completion is admissible, and its values are the issuer's or, on the composed wire, the
wire's. -/
theorem completionOfTheOperationInFlight : Obligations.CompletionOfTheOperationInFlight := by
  refine fun s m st d hmaster hclean hflight => ⟨fun hagent henv => ?_, fun hagent henv hpending => ?_⟩
  · rw [exec_envMComplete hmaster hclean (State.agent_eq_completer (.inl ⟨hagent, henv⟩)),
      if_pos (State.completes_iff.2 ⟨hflight, fun h => absurd h henv⟩), State.answer, if_neg henv]
    rfl
  · rw [exec_envMComplete hmaster hclean (State.agent_eq_completer (.inr ⟨hagent, henv⟩)),
      if_pos (State.completes_iff.2 ⟨hflight, fun _ => hpending⟩), State.answer, if_pos henv]
    rfl

end Sys2Proof.Machine

namespace Sys2Proof.Machine

section
variable {s : State} {n : Slave} {w : Byte}

/-! ### EV_SHIFT on a ready node: the shift, then the handler of the state (R168, R200) -/

/-- What a shift leaves in hal.sr, `free` giving the open bits of a 1-bit shift (R168). -/
def Slave.sampled (free w : Byte) (n : Slave) : Byte := if n.armed = 8 then w else oneBitSample free w

theorem getLsbD_zero_oneBitSample (free w : Byte) : (oneBitSample free w).getLsbD 0 = w.getLsbD 0 := by
  rw [oneBitSample, BitVec.getLsbD_append]
  simp

theorem Slave.sampledAs_sampled (free w : Byte) (n : Slave) : SampledAs n w (n.sampled free w) := by
  refine ⟨fun h8 => if_pos h8, fun h1 => ?_⟩
  rw [Slave.sampled, if_neg (by omega), getLsbD_zero_oneBitSample]

theorem Slave.evShift_of_not_corrupt (free w : Byte) (h : n.state ≠ .corrupt) :
    n.evShift free w =
      Slave.shiftHandler { n with sr := n.sampled free w, armed := 0, sleeping := false } := if_neg h

theorem Slave.evShift_of_corrupt (free w : Byte) (h : n.state = .corrupt) :
    n.evShift free w = n.refuseCorrupt := if_pos h

theorem shiftLeaves_of_evShift (h : ShiftReady s n) {after : Byte → Slave}
    (hafter : ∀ free, n.evShift free w = after (n.sampled free w)) : ShiftLeaves s n w after := by
  obtain ⟨hready, hshifts, henabled, harmed⟩ := h
  have hexec := hready.exec_evShift hshifts w
  rw [if_pos (Slave.shiftAdmissible_iff.2 ⟨henabled, harmed⟩), hafter] at hexec
  exact ⟨_, _, n.sampledAs_sampled _ w, fun h8 => if_neg (by omega), hexec⟩

/-- What the handler of the state makes of the node with the sampled value in hal.sr is what EV_SHIFT leaves. -/
theorem shiftLeaves_of_handler {st : SlaveState} {handler : Slave → Slave} {after : Byte → Slave}
    (h : ShiftReady s n) (hstate : n.state = st) (hne : st ≠ .corrupt)
    (hrow : ∀ {m : Slave}, m.state = st → m.shiftHandler = handler m)
    (hafter : ∀ v, handler { n with sr := v, armed := 0, sleeping := false } = after v) :
    ShiftLeaves s n w after :=
  shiftLeaves_of_evShift h fun free =>
    (Slave.evShift_of_not_corrupt free w (hstate ▸ hne)).trans (Eq.trans (hrow hstate) (hafter _))

/-! ### The dispatch, row by row (R200) -/

theorem Slave.shiftHandler_of_waitForStart (h : n.state = .waitForStart) : n.shiftHandler = n := by
  rw [Slave.shiftHandler, h]

theorem Slave.shiftHandler_of_waitForAddress (h : n.state = .waitForAddress) :
    n.shiftHandler = n.onAddress := by
  rw [Slave.shiftHandler, h]

theorem Slave.shiftHandler_of_sendAck (h : n.state = .sendAck) : n.shiftHandler = n.onSendAck := by
  rw [Slave.shiftHandler, h]

theorem Slave.shiftHandler_of_waitForData (h : n.state = .waitForData) : n.shiftHandler = n.onData := by
  rw [Slave.shiftHandler, h]

theorem Slave.shiftHandler_of_sendData (h : n.state = .sendData) : n.shiftHandler = n.sendDataLogic := by
  rw [Slave.shiftHandler, h]

theorem Slave.shiftHandler_of_requestAck (h : n.state = .requestAck) : n.shiftHandler = n.onRequestAck := by
  rw [Slave.shiftHandler, h]

theorem Slave.shiftHandler_of_waitAck (h : n.state = .waitAck) : n.shiftHandler = n.onWaitAck := by
  rw [Slave.shiftHandler, h]

/-! ### The handlers on a node with the sampled value in hal.sr (R203, R206, R209) -/

theorem Slave.onSendAck_eq (n : Slave) : n.onSendAck =
    { n with
      armed := 8, driven := false, state := .waitForData
      trace := n.trace ++ [.armShift 8, .setLineDriven false] } := by
  simp [Slave.onSendAck, Slave.armShift, Slave.setLineDriven, Slave.record, Slave.goto]

theorem Slave.onRequestAck_eq (n : Slave) : n.onRequestAck =
    { n with
      armed := 1, driven := false, state := .waitAck
      trace := n.trace ++ [.armShift 1, .setLineDriven false] } := by
  simp [Slave.onRequestAck, Slave.armShift, Slave.setLineDriven, Slave.record, Slave.goto]

/-- With a legal tx ring the SendData logic finds a slot to read wherever tx holds data (R203). -/
theorem Slave.sendDataLogic_eq {ib : Nat} (n : Slave) (v : Byte) (before : List SAct) (h : n.tx.wf ib) :
    Slave.sendDataLogic { n with sr := v, armed := 0, sleeping := false, trace := n.trace ++ before } =
      SendDataLeaves n v before := by
  rw [SendDataLeaves]
  split
  case isTrue hempty =>
    have hpop := Ring.pop_of_empty (Ring.isEmpty_iff.2 hempty)
    exact Slave.sendDataLogic_of_none hpop
  case isFalse hdata =>
    obtain ⟨b, hb⟩ := Option.isSome_iff_exists.1 (Ring.storage_read_isSome h)
    have hpop := Ring.pop_of_data (Bool.eq_false_iff.2 (mt Ring.isEmpty_iff.1 hdata))
    rw [hb] at hpop
    exact Eq.trans (Slave.sendDataLogic_of_some hpop) (by simp [hb])

theorem Slave.onWaitAck_of_nack (h : n.sr.toNat % 2 = 1) : n.onWaitAck =
    { n with
      armed := 0, driven := false, state := .waitForStart
      trace := n.trace ++ [.readSr, .rearmStart] } := by
  have hack : ackBit n.sr = true := (rwField_eq_decide n.sr).trans (decide_eq_true h)
  simp [Slave.onWaitAck, hack, Slave.readSr, Slave.rearmStart, Slave.record, Slave.goto]

theorem Slave.onWaitAck_of_ack (h : n.sr.toNat % 2 ≠ 1) : n.onWaitAck = n.readSr.sendDataLogic := by
  have hack : ackBit n.sr = false := (rwField_eq_decide n.sr).trans (decide_eq_false h)
  simp [Slave.onWaitAck, hack]

end

/-- Settles O20: the handler is `Slave.onAddress`, on the sampled byte. -/
theorem addressHandler : Obligations.AddressHandler := fun _ n _ hready hstate =>
  shiftLeaves_of_handler hready hstate nofun Slave.shiftHandler_of_waitForAddress n.onAddress_of_byte

/-- Settles O21: neither handler looks at the sampled value. -/
theorem ackSlotHandlers : Obligations.AckSlotHandlers := fun _ _ _ hready =>
  ⟨fun hstate => shiftLeaves_of_handler hready hstate nofun Slave.shiftHandler_of_sendAck
      fun _ => Slave.onSendAck_eq _,
    fun hstate => shiftLeaves_of_handler hready hstate nofun Slave.shiftHandler_of_requestAck
      fun _ => Slave.onRequestAck_eq _⟩

/-- Settles O22: the push on rx succeeds where rx has room. -/
theorem dataHandler : Obligations.DataHandler := by
  intro s n w hready hstate
  refine shiftLeaves_of_handler hready hstate nofun Slave.shiftHandler_of_waitForData fun b => ?_
  split
  case isTrue hfull =>
    exact Eq.trans (Slave.onData_of_full (Ring.isFull_iff.2 hfull)) (by simp)
  case isFalse hroom =>
    have hfull : n.rx.isFull = false := Bool.eq_false_iff.2 (mt Ring.isFull_iff.1 hroom)
    exact Eq.trans (Slave.onData_of_room hfull) (by simp [Ring.push_of_room hfull])

/-- Settles O23: the handler is the SendData logic. -/
theorem sendDataHandler : Obligations.SendDataHandler := by
  intro s n w hready hstate htx
  refine shiftLeaves_of_handler hready hstate nofun Slave.shiftHandler_of_sendData fun v => ?_
  rw [← n.sendDataLogic_eq v [] htx, List.append_nil]

/-- Settles O24: the acknowledge bit is bit 0 of the sampled value, its parity. -/
theorem masterAckHandler : Obligations.MasterAckHandler := by
  intro s n w hready hstate htx
  refine shiftLeaves_of_handler hready hstate nofun Slave.shiftHandler_of_waitAck fun v => ?_
  split
  case isTrue hnack => exact Slave.onWaitAck_of_nack hnack
  case isFalse hack => exact (Slave.onWaitAck_of_ack hack).trans (n.sendDataLogic_eq v [.readSr] htx)

/-- Settles O25: WaitForStart has no handler, and the encoding 7 is refused before the shift. -/
theorem dispatchOfUnreachedStates : Obligations.DispatchOfUnreachedStates := by
  refine fun s n w hready => ⟨fun hstate => ?_, fun hstate => ?_⟩
  · exact shiftLeaves_of_handler hready hstate nofun Slave.shiftHandler_of_waitForStart fun _ => rfl
  · refine shiftLeaves_of_evShift hready fun free => ?_
    obtain ⟨⟨-, -, -, hclean, -⟩, -⟩ := hready
    rw [Slave.evShift_of_corrupt free w hstate, Slave.refuseCorrupt, Slave.mapStatus, hclean]
    rfl

/-! ### What a shift leaves unchanged (R218) -/

theorem Slave.sendDataLogic_status (n : Slave) : n.sendDataLogic.status = n.status := by
  rcases n.sendDataLogic_cases with ⟨b, tx, -, h⟩ | ⟨tx, -, h⟩ <;> rw [h]

/-- No handler records a fault or a refusal; the dispatch refuses the encoding 7 alone. -/
theorem Slave.shiftHandler_status {n : Slave} (h : n.state ≠ .corrupt) :
    n.shiftHandler.status = n.status := by
  cases hstate : n.state with
  | waitForStart => rw [Slave.shiftHandler_of_waitForStart hstate]
  | waitForAddress =>
    rw [Slave.shiftHandler_of_waitForAddress hstate, Slave.onAddress]
    split <;> rfl
  | sendAck => rw [Slave.shiftHandler_of_sendAck hstate, Slave.onSendAck_eq]
  | waitForData =>
    rw [Slave.shiftHandler_of_waitForData hstate, Slave.onData]
    split <;> rfl
  | sendData => rw [Slave.shiftHandler_of_sendData hstate, Slave.sendDataLogic_status]
  | requestAck => rw [Slave.shiftHandler_of_requestAck hstate, Slave.onRequestAck_eq]
  | waitAck =>
    rw [Slave.shiftHandler_of_waitAck hstate]
    by_cases hnack : n.sr.toNat % 2 = 1
    · rw [Slave.onWaitAck_of_nack hnack]
    · rw [Slave.onWaitAck_of_ack hnack, Slave.sendDataLogic_status, Slave.readSr_status]
  | corrupt => exact absurd hstate h

/-- Settles O27: an event that has a step leaves the issuing node changed by its handler, and no handler
touches what is not the ISR's (`Slave.SameOutside`). -/
theorem eventsRaiseNoFault : Obligations.EventsRaiseNoFault := by
  intro s t n i hready henabled hstate hi hexec
  rcases hi with ⟨rfl, hstarts⟩ | ⟨⟨w, rfl⟩, hshifts⟩ | rfl
  · rw [hready.exec_evStart hstarts, if_pos henabled] at hexec
    obtain rfl := out_next hexec
    exact ⟨n.evStart, State.node?_putNode hready.node, rfl, rfl, rfl, rfl, henabled⟩
  · rw [hready.exec_evShift hshifts] at hexec
    split at hexec
    case isTrue =>
      obtain rfl := out_next hexec
      rw [Slave.evShift_of_not_corrupt _ w hstate]
      have hsame := Slave.shiftHandler_sameOutside
        { n with sr := n.sampled (Config.freeByte s.draws) w, armed := 0, sleeping := false }
      exact ⟨_, State.node?_putNode hready.node, Slave.shiftHandler_status hstate, hsame.results, hsame.own,
        hsame.sleeping, hsame.enabled.trans henabled⟩
    case isFalse => cases hexec
  · rw [otherEventWakesOnly s n hready] at hexec
    obtain rfl := out_next hexec
    exact ⟨_, State.node?_putNode hready.node, rfl, rfl, rfl, rfl, henabled⟩

/-! ### The HAL registers and eng.state (R213) -/

/-- Nothing R213's table speaks of has changed. -/
structure Slave.KeepsHal (n m : Slave) : Prop where
  state   : m.state = n.state := by rfl
  armed   : m.armed = n.armed := by rfl
  driven  : m.driven = n.driven := by rfl
  enabled : m.enabled = n.enabled := by rfl

theorem Slave.KeepsHal.inStep {n m : Slave} (h : n.KeepsHal m) (hn : n.inStep) : m.inStep := by
  rwa [Slave.inStep, h.state, h.armed, h.driven]

theorem Slave.KeepsHal.standsUnder {n m : Slave} {env : Env} (h : n.KeepsHal m) (hn : n.standsUnder env) :
    m.standsUnder env := by
  have hwire (hn : n.inStepOnWire) : m.inStepOnWire := by
    rwa [Slave.inStepOnWire, h.state, h.armed, h.driven]
  cases env with
  | events => exact h.inStep hn
  | halBench => exact fun henabled => h.inStep (hn (h.enabled.symm.trans henabled))
  | bits => exact hwire hn
  | wire j => exact hwire hn

theorem Slave.inStep.standsUnder {n : Slave} (h : n.inStep) (env : Env) : n.standsUnder env := by
  cases env with
  | events => exact h
  | halBench => exact fun _ => h
  | bits => exact Slave.inStepOnWire_of_inStep h
  | wire j => exact Slave.inStepOnWire_of_inStep h

theorem Slave.inStep.not_corrupt {n : Slave} (h : n.inStep) : n.state ≠ .corrupt := by
  intro hstate
  rwa [Slave.inStep, hstate] at h

/-- Where the table holds, a shift is armed in every state but WaitForStart. -/
theorem Slave.inStep.armed_iff {n : Slave} (h : n.inStep) :
    n.armed = 1 ∨ n.armed = 8 ↔ n.state ≠ .waitForStart := by
  unfold Slave.inStep at h
  split at h <;> simp_all

theorem Slave.inStep_evStart (n : Slave) : n.evStart.inStep := ⟨rfl, rfl⟩

/-- A node in step that takes a shift is not waiting for a start, so a handler arms what the table says. -/
theorem Slave.inStep.evShift {n : Slave} (h : n.inStep) (harmed : n.armed = 1 ∨ n.armed = 8)
    (free w : Byte) : (n.evShift free w).inStep := by
  rw [Slave.evShift_of_not_corrupt free w h.not_corrupt]
  exact Slave.inStep_shiftHandler (h.armed_iff.1 harmed) h.not_corrupt

/-- A change of a node is a shift, brings the node in step with its state, or leaves the table's registers
alone. -/
theorem NodeChange.hal_cases {p : Params} {n m : Slave} (h : NodeChange p n m) :
    (p.env.shifts = true ∧ n.enabled = true ∧ (n.inStep → m.inStep)) ∨ m.inStep ∨ n.KeepsHal m := by
  cases h with
  | start => exact .inr (.inl n.inStep_evStart)
  | shift free w hshifts henabled harmed =>
    exact .inl ⟨hshifts, henabled, fun h => h.evShift harmed free w⟩
  | init a => exact .inr (.inl ⟨rfl, rfl⟩)
  | other | result | pushRx | pushTx | popRx | popTx | sleep | createRx | createTx => exact .inr (.inr {})

theorem NodeChange.inStep {p : Params} {n m : Slave} (h : NodeChange p n m) (hn : n.inStep) : m.inStep := by
  rcases h.hal_cases with ⟨-, -, hshift⟩ | hm | hkeeps
  · exact hshift hn
  · exact hm
  · exact hkeeps.inStep hn

/-- Whole shifts are delivered where the table holds exactly, on an enabled node. -/
theorem NodeChange.standsUnder {p : Params} {n m : Slave} (h : NodeChange p n m)
    (hn : n.standsUnder p.env) : m.standsUnder p.env := by
  rcases h.hal_cases with ⟨hshifts, henabled, hshift⟩ | hm | hkeeps
  · have hstep : n.inStep := by
      cases henv : p.env with
      | events => rwa [henv] at hn
      | halBench => rw [henv] at hn; exact hn henabled
      | bits | wire => simp [henv, Env.shifts] at hshifts
    exact (hshift hstep).standsUnder p.env
  · exact hm.standsUnder p.env
  · exact hkeeps.standsUnder hn

theorem BareChange.enabled {n m : Slave} (h : BareChange n m) : m.enabled = n.enabled := by
  cases h <;> rfl

theorem Slave.standsUnder_busStart {n : Slave} {env : Env} (h : n.standsUnder env) :
    n.busStart.standsUnder env := by
  unfold Slave.busStart
  split
  · exact n.inStep_evStart.standsUnder env
  · exact h

/-- A shift of more than one bit is that of a byte; the states that shift one bit have no bit to count down. -/
theorem Slave.inStepOnWire.count {n : Slave} (h : n.inStepOnWire) (harmed : 1 < n.armed) (v : Byte) :
    Slave.inStepOnWire { n with sr := v, armed := n.armed - 1 } := by
  revert h
  unfold Slave.inStepOnWire
  dsimp only
  cases n.state with
  | waitForAddress | waitForData | requestAck =>
    rintro ⟨-, hle, hdriven⟩
    exact ⟨by omega, by omega, hdriven⟩
  | waitForStart | sendAck | sendData | waitAck => omega
  | corrupt => exact id

/-- A bit slot counts the shift down, and at its last bit the handler arms what the table says (R304). -/
theorem Slave.inStepOnWire.busSlot {n : Slave} (h : n.inStepOnWire) (v : Bool) :
    (n.busSlot v).inStepOnWire := by
  have hcorrupt : n.state ≠ .corrupt := by
    intro hstate
    rwa [Slave.inStepOnWire, hstate] at h
  rcases n.busSlot_cases v with e | ⟨-, -, ⟨-, hstate, -⟩ | ⟨hone, -, e⟩ | ⟨hcount, e⟩⟩
  · rwa [e]
  · exact absurd hstate hcorrupt
  · have hstart : n.state ≠ .waitForStart := by
      intro hstate
      rw [Slave.inStepOnWire, hstate] at h
      omega
    rw [e]
    exact Slave.inStepOnWire_of_inStep (Slave.inStep_shiftHandler hstart hcorrupt)
  · rw [e]
    exact h.count hcount _

theorem Slave.standsUnder_busSlot {n : Slave} {env : Env} (hshifts : env.shifts = false)
    (h : n.standsUnder env) (v : Bool) : (n.busSlot v).standsUnder env := by
  cases env with
  | events | halBench => cases hshifts
  | bits => exact Slave.inStepOnWire.busSlot h v
  | wire j => exact Slave.inStepOnWire.busSlot h v

theorem NodeRel.standsUnder (p : Params) : NodeRel p (fun n m => n.standsUnder p.env → m.standsUnder p.env) where
  refl _ := id
  raised _ _ := Slave.KeepsHal.standsUnder {}
  refused _ _ := Slave.KeepsHal.standsUnder {}
  change _ _ := NodeChange.standsUnder
  bare n m henv hdisabled hbare _ := by
    rw [henv]
    exact fun henabled => by simp [← hbare.enabled, henabled] at hdisabled
  busStart _ _ := Slave.standsUnder_busStart
  busSlots hshifts n vs := busSlots_of (R := fun n m => n.standsUnder p.env → m.standsUnder p.env)
    (fun _ => id) (fun _ _ _ h k => k ∘ h) (fun _ v h => Slave.standsUnder_busSlot hshifts h v) vs n

/-- Settles O29: the correspondence is kept over every change of a node (`NodeRel.standsUnder`), and a step
leaves the environment. -/
theorem halRegistersStandWithTheState : Obligations.HalRegistersStandWithTheState := by
  intro s t hs hstep
  rw [step_cfg hstep]
  exact NodesRel.all (step_slaves_length hstep) (step_nodes (NodeRel.standsUnder s.cfg) hstep) hs

/-- An operation that is no HAL action and no wire row keeps the table at every node. -/
theorem exec_inStep {s t : State} {i : Instr} (hhal : isSlaveHal i = false) (hrow : isWireRow i = false)
    (h : ExecNext i s t) : NodesRel (fun n m => n.inStep → m.inStep) s.slaves t.slaves := by
  cases h with
  | refused c => exact .mapStatus s _ (fun _ => id) fun _ => Slave.KeepsHal.inStep {}
  | raised c => exact .mapStatus s _ (fun _ => id) fun _ => Slave.KeepsHal.inStep {}
  | node n m d _ hn hc => exact .putNode hn (fun _ => id) hc.inStep
  | bare n m _ hi => simp [hhal] at hi
  | wire bits hi => simp [hrow] at hi
  | ring | newRing | begin_ | call | complete => exact .same (fun _ => id) _

theorem Slave.inStep.shiftAdmissible_iff {n : Slave} (h : n.inStep) (henabled : n.enabled = true) :
    n.shiftAdmissible = true ↔ n.state ≠ .waitForStart := by
  rw [Slave.shiftAdmissible_iff, h.armed_iff, and_iff_right henabled]

theorem Slave.inStep.state_of_driven {n : Slave} (h : n.inStep) (hdriven : n.driven = true) :
    n.state = .sendAck ∨ n.state = .sendData ∨ n.state = .requestAck := by
  unfold Slave.inStep at h
  split at h <;> simp_all

/-- Settles O30: none of the operations named is a HAL action or a wire row. -/
theorem eventsKeepTheHalTable : Obligations.EventsKeepTheHalTable := by
  refine ⟨fun s t i hi hs hexec => ?_, fun n hn => ⟨hn.shiftAdmissible_iff, hn.state_of_driven⟩⟩
  have hnext := exec_next hexec
  have hkind : isSlaveHal i = false ∧ isWireRow i = false := by
    rcases hi with rfl | ⟨w, rfl⟩ | rfl | ⟨a, rfl⟩ | ⟨b, rfl⟩ | rfl | rfl | rfl <;> exact ⟨rfl, rfl⟩
  exact NodesRel.all (exec_slaves_length hnext) (exec_inStep hkind.1 hkind.2 hnext) hs

end Sys2Proof.Machine

namespace Sys2Proof.Machine

section
variable {s : State} {n : Slave} {i : Instr}

/-! ### The slave's foreground operations on a ready node (R240-R244) -/

/-- On a ready node whose foreground is free, an operation of the slave's foreground interface runs. -/
theorem SlaveOp.admitted_foreground (hop : SlaveOp i) (hready : NodeReady s n .slaveFg)
    (hfree : ForegroundFree s n) (hagent : s.mayIssue i = s.onSlave .slaveFg) (k : Slave → Out) :
    s.admitted i (s.onNode k) = k n :=
  hop.admitted hready (hready.stall (fun _ => hfree) (by simp)) (hagent.trans hready.onSlave) k

theorem ownAddressOk_iff {a : Byte} : ownAddressOk a = true ↔ 1 ≤ a.toNat ∧ a.toNat ≤ 127 := by
  simp [ownAddressOk]

/-- INITIALIZE runs with a legal address and faults with any other (R240). -/
theorem NodeReady.exec_initEngine (hready : NodeReady s n .slaveFg) (hfree : ForegroundFree s n) (a : Byte) :
    exec (.initEngine a) s = if ownAddressOk a = true then .next (s.putNode (n.initEngine (toAddr7 a)))
      else .next (s.putNode { n with status := ⟨[.badOwnAddress], none⟩ }) := by
  rw [← hready.raiseFault .badOwnAddress]
  exact (SlaveOp.initEngine a).admitted_foreground hready hfree rfl _

/-- SLEEP halts the foreground of a node with an empty rx ring and faults on any other (R244). -/
theorem NodeReady.exec_sleep (hready : NodeReady s n .slaveFg) (hfree : ForegroundFree s n) :
    exec .sleep s =
      if n.rx.hasData = true then .next (s.putNode { n with status := ⟨[.sleepWithRxPending], none⟩ })
      else .next (s.putNode { n with sleeping := true }) := by
  rw [← hready.raiseFault .sleepWithRxPending]
  exact SlaveOp.sleep.admitted_foreground hready hfree rfl _

/-- RECEIVE_CHAR is a pop of rx, with 0x00 for a byte that is not there (R243). -/
theorem NodeReady.exec_receiveChar (hready : NodeReady s n .slaveFg) (hfree : ForegroundFree s n) :
    exec .receiveChar s = .next (s.putNode { n with
      rx := n.rx.pop.2, results := n.results ++ [.byte (n.rx.pop.1.getD 0)] }) :=
  SlaveOp.receiveChar.admitted_foreground hready hfree rfl _

theorem Ring.hasData_iff {α : Type} {r : Ring α} : r.hasData = true ↔ r.read ≠ r.write := by
  simp [Ring.hasData]

/-! ### A foreground that has no step (R47, R343) -/

/-- Charged to a clean record, no operation of a stalled issuer has a step (log 20, log 21). -/
theorem exec_of_stall {f : Fault} (hclean : s.statusOf (s.instOf i) = some Status.clean)
    (hstall : s.stall = some f) : exec i s = .fault f := by
  obtain ⟨run, hrun⟩ := exec_admitted i s
  rw [hrun, State.admit_stalled run (any_quiescent_of_eq_clean hclean) hstall]

/-- SLEEP halts every agent of the node's one foreground (R343). -/
theorem State.stall_of_sleeping
    (hagent : s.ctx.agent = .slaveFg ∨ s.ctx.agent = .masterFg ∨ s.ctx.agent = .masterEngine)
    (hnode : s.node? = some n) (hsleeping : n.sleeping = true) : s.stall = some .asleep := by
  rcases hagent with hagent | hagent | hagent <;> simp [State.stall, hagent, hnode, hsleeping]

/-- A call of the node's master halts the slave's foreground while it is awake (R343). -/
theorem State.stall_of_call {m : Master} (hagent : s.ctx.agent = .slaveFg)
    (hawake : ∀ n, s.node? = some n → n.sleeping = false) (hmaster : s.master? = some m)
    (hcall : m.call.isSome = true) : s.stall = some .foregroundBusy := by
  have hnode : s.node?.any (·.sleeping) = false := (Option.any_eq_false _ _).2 hawake
  simp [State.stall, hagent, hnode, hmaster, hcall]

end

/-- Settles O31: the address passes the test of R240 and fits the register of 7 bits. -/
theorem initializeWithALegalAddress : Obligations.InitializeWithALegalAddress := by
  intro s n a hready hfree hlow hhigh
  refine ⟨?_, ?_⟩
  · rw [BitVec.toNat_setWidth, Nat.mod_eq_of_lt (Nat.lt_succ_of_le hhigh)]
  · rw [hready.exec_initEngine hfree, if_pos (ownAddressOk_iff.2 ⟨hlow, hhigh⟩)]
    rfl

/-- Settles O32: the address fails the test of R240, and rx holds data. -/
theorem foregroundFaults : Obligations.ForegroundFaults := by
  intro s n hready hfree
  refine ⟨fun a hbad => ?_, fun hdata => ?_⟩
  · rw [hready.exec_initEngine hfree, if_neg (by rw [ownAddressOk_iff]; omega)]
  · rw [hready.exec_sleep hfree, if_pos (Ring.hasData_iff.2 hdata)]

/-- Settles O33: what runs is `Ring.push` on tx. -/
theorem sendCharPushesTx : Obligations.SendCharPushesTx := by
  intro s n b hready hfree
  refine ((SlaveOp.sendChar b).admitted_foreground hready hfree rfl _).trans ?_
  rw [Slave.pushTx, Ring.push_eq_ite]
  split <;> rfl

/-- Settles O34: what runs is `Ring.hasData` and `Ring.pop` on rx, and in a legal ring the slot read exists. -/
theorem charAvailableAndReceiveChar : Obligations.CharAvailableAndReceiveChar := by
  intro s n hready hfree
  refine ⟨SlaveOp.charAvailable.admitted_foreground hready hfree rfl _, fun hempty => ?_, fun hwf hdata => ?_⟩
  · rw [hready.exec_receiveChar hfree, Ring.pop_eq_ite, if_pos hempty]
    rfl
  · obtain ⟨x, hx⟩ := Option.isSome_iff_exists.1 (Ring.storage_read_isSome hwf)
    refine ⟨x, hx, ?_⟩
    rw [hready.exec_receiveChar hfree, Ring.pop_eq_ite, if_neg hdata, hx]
    rfl

/-- Settles O35: SLEEP finds rx empty, and admission stops what a stalled foreground issues. -/
theorem sleepHaltsTheForeground : Obligations.SleepHaltsTheForeground := by
  refine ⟨fun s n hready hfree hempty => ?_, fun s i hclean => ⟨?_, ?_⟩⟩
  · rw [hready.exec_sleep hfree, if_neg (by simp [Ring.hasData_iff, hempty])]
  · rintro hagent ⟨n, hnode, hsleeping⟩
    exact exec_of_stall hclean (State.stall_of_sleeping hagent hnode hsleeping)
  · rintro hagent hawake ⟨m, hmaster, hcall⟩
    exact exec_of_stall hclean (State.stall_of_call hagent hawake hmaster hcall)

end Sys2Proof.Machine

namespace Sys2Proof.Machine

section
variable {s : State} {m : Master} {c c' : Call} {a : MAct} {i : Instr}

theorem MasterReady.master {g : Agent} (h : MasterReady s m g) : s.master? = some m := h.1

theorem MasterReady.agent {g : Agent} (h : MasterReady s m g) : s.ctx.agent = g := by
  obtain ⟨-, -, hagent, -⟩ := h
  exact hagent

/-! ### The HAL actions of a call as operations (R340, R104) -/

/-- The operations that issue a master HAL action: its own row, and for an address byte the row R104 gives
it (log 16). -/
inductive IssuesAct : Instr → MAct → Prop where
  | act (a : MAct) : IssuesAct a.toInstr a
  | addrWrite (t : Addr7) : IssuesAct (.masterAddrWrite t) (.write (addrByte t false))
  | addrRead (t : Addr7) : IssuesAct (.masterAddrRead t) (.write (addrByte t true))

/-- The row of the address byte in the direction of the call. -/
theorem IssuesAct.addressRow (t : Addr7) (rw : Bool) :
    IssuesAct (if rw then .masterAddrRead t else .masterAddrWrite t) (.write (addrByte t rw)) := by
  cases rw
  · exact .addrWrite t
  · exact .addrRead t

theorem State.mayIssue_addressRow (s : State) (t : Addr7) (rw : Bool) :
    s.mayIssue (if rw then .masterAddrRead t else .masterAddrWrite t) = s.mayAddress (addrByte t rw) := by
  cases rw <;> rfl

theorem exec_toInstr (a : MAct) (s : State) : exec a.toInstr s = s.admitted a.toInstr (s.masterIssue a) := by
  cases a <;> rfl

theorem IssuesAct.exec_eq (h : IssuesAct i a) (s : State) : exec i s = s.admitted i (s.masterIssue a) := by
  cases h with
  | act => exact exec_toInstr a s
  | addrWrite t | addrRead t => rfl

/-- The checks of R119 but for WF_AGENT: a master HAL action fails none of them. -/
theorem IssuesAct.wellFormed (h : IssuesAct i a) (s : State) :
    i.shapeOk = true ∧ i.kOk = true ∧ s.ringOk i = true ∧ i.cfgOk s.cfg.indexBits = true ∧ i.bufOk = true := by
  cases h with
  | act => cases a <;> exact ⟨rfl, rfl, rfl, rfl, rfl⟩
  | addrWrite t | addrRead t => exact ⟨rfl, rfl, rfl, rfl, rfl⟩

theorem IssuesAct.actsOn (h : IssuesAct i a) (s : State) : s.actsOn i = s.masterInst := by
  cases h with
  | act => cases a <;> rfl
  | addrWrite t | addrRead t => rfl

theorem State.mayIssue_toInstr (s : State) (a : MAct) : s.mayIssue a.toInstr = s.mayAct a := by
  cases a <;> rfl

/-- R340 lets a row through only where it lets its HAL action through. -/
theorem IssuesAct.mayAct (h : IssuesAct i a) (hmay : s.mayIssue i = true) : s.mayAct a = true := by
  cases h with
  | act => exact (s.mayIssue_toInstr a).symm.trans hmay
  | addrWrite t | addrRead t => exact (Bool.and_eq_true_iff.1 hmay).1

/-- An action that its row's agent may not take is refused with WRONG_AGENT (R333, R340). -/
theorem MasterReady.exec_refused (h : MasterReady s m .masterEngine) (hop : IssuesAct i a)
    (hmay : s.mayIssue i = false) :
    exec i s = .next (s.putMaster { m with status := ⟨[], some .wrongAgent⟩ }) := by
  obtain ⟨hshape, hk, hring, -, -⟩ := hop.wellFormed s
  rw [hop.exec_eq]
  exact State.admit_master_refused _ h nofun (h.instOf i (.inr rfl))
    (State.failedCheck_agent hshape hk hring hmay)

/-- Where R340 lets the row of a call's next HAL action through, the step is the call's. -/
theorem MasterReady.exec_issue (h : MasterReady s m .masterEngine) (hop : IssuesAct i a)
    (hmay : s.mayIssue i = true) (hcall : m.call = some c) (hplan : c.plan m.mem = some (a, c')) :
    exec i s = .next (s.callStep a c' m) := by
  obtain ⟨hshape, hk, hring, hcfg, hbuf⟩ := hop.wellFormed s
  have hacts := hop.actsOn s
  rw [hop.exec_eq, State.admit_master _ h nofun hacts
    (State.failedCheck_eq_none hshape hk hring hmay hcfg (hacts ▸ s.configOk_masterInst) hbuf),
    State.masterIssue, State.onMaster_of h.master, hcall, Option.bind_some, hplan]

/-- A call's next HAL action is let through, unless it would issue an operation while one is in flight. -/
theorem MasterReady.mayAct (h : MasterReady s m .masterEngine) (hcall : m.call = some c)
    (hplan : c.plan m.mem = some (a, c')) (hflight : actIssues a = true → m.inFlight = false) :
    s.mayAct a = true :=
  State.mayAct_iff.2 ⟨h.agent, m, h.master, hflight, by simp [Master.nextAct, hcall, hplan]⟩

/-- The call's next HAL action, issued by its own row. -/
theorem MasterReady.exec_act (h : MasterReady s m .masterEngine) (hcall : m.call = some c)
    (hplan : c.plan m.mem = some (a, c')) (hflight : actIssues a = true → m.inFlight = false) :
    exec a.toInstr s = .next (s.callStep a c' m) :=
  h.exec_issue (.act a) ((s.mayIssue_toInstr a).trans (h.mayAct hcall hplan hflight)) hcall hplan

/-! ### What a step of the call leaves (R176-R183) -/

/-- The actions that issue an operation, with the mh.op each sets. -/
inductive Launches : MAct → MhOp → Prop where
  | start : Launches .start .start
  | write (v : Byte) : Launches (.write v) .write
  | readAck : Launches .readAck .readAck
  | readNack : Launches .readNack .readNack

/-- After an action that issues an operation the call polls. -/
theorem Launches.callStep_eq {op : MhOp} (h : Launches a op) (s : State) (c : Call) (m : Master) :
    s.callStep a c m = AfterIssue s m a op (some { c with pos := .poll }) := by
  cases h <;> rfl

/-- An action that only reads puts nothing on the wire. -/
theorem State.carryAct_of_reads (h : actIssues a = false) (s : State) : s.carryAct a = s := by
  have hbus : s.bus.carry a = s.bus := by
    cases a with
    | poll | status | readData => simp [Bus.carry, actSymbols]
    | _ => cases h
  simp [State.carryAct, hbus]

/-- An action that only reads changes nothing but the master. -/
theorem State.callStep_of_reads (h : actIssues a = false) (s : State) (c : Call) (m : Master) :
    s.callStep a c m = s.putMaster { m.callStep s.cfg a c with mem := c.memAfter s.draws a m } := by
  have hdraws : c.drawn a = 0 := by
    cases a with
    | stop => cases h
    | _ => rfl
  rw [State.callStep, State.carryAct_of_reads h, hdraws]
  rfl

/-- The poll, the status read and the data read of a call (R181, R182, R183). -/
theorem MasterReady.exec_read (h : MasterReady s m .masterEngine) (hcall : m.call = some c)
    (hplan : c.plan m.mem = some (a, c')) (hreads : actIssues a = false) :
    exec a.toInstr s =
      .next (s.putMaster { m.callStep s.cfg a c' with mem := c'.memAfter s.draws a m }) := by
  rw [h.exec_act hcall hplan (by simp [hreads]), State.callStep_of_reads hreads]

/-- The actions of a call that issue an operation (R176-R179). -/
theorem MasterReady.exec_launch {op : MhOp} (h : MasterReady s m .masterEngine) (hcall : m.call = some c)
    (hflight : m.inFlight = false) (hplan : c.plan m.mem = some (a, c')) (hop : Launches a op) :
    exec a.toInstr s = .next (AfterIssue s m a op (some { c' with pos := .poll })) := by
  rw [h.exec_act hcall hplan fun _ => hflight, hop.callStep_eq]

/-! ### The plan of a call (R262, R263) -/

/-- The registers with which a call ends with code rc, m.i being j (R262, R263, FINISH). -/
def Call.ended (rc : Rc) (j : Nat) (c : Call) : Call := { c with phase := .finish, rc := rc, i := j }

theorem Call.plan_of_begin (mem : Memory) (h : c.pos = .begin) :
    c.plan mem = some (.start, { c with phase := .waitStart }) := by
  simp [Call.plan, h]

theorem Call.plan_of_poll (mem : Memory) (h : c.pos = .poll) : c.plan mem = some (.poll, c) := by
  simp [Call.plan, h]

theorem Call.plan_of_status (mem : Memory) (h : c.pos = .status) : c.plan mem = some (.status, c) := by
  simp [Call.plan, h]

theorem Call.plan_of_fail (mem : Memory) {rc : Rc} (h : c.pos = .fail rc) :
    c.plan mem = some (.stop, c.ended rc c.i) := by
  simp [Call.plan, Call.finishWith, Call.ended, h]

theorem Call.plan_of_address (mem : Memory) (hphase : c.phase = .waitStart) (hpos : c.pos = .good) :
    c.plan mem = some (.write (addrByte c.addr c.rw), { c with phase := .waitAddr }) := by
  simp [Call.plan, hpos, hphase]

theorem Call.plan_of_readData (mem : Memory)
    (h : c.pos = .readData ∨ c.pos = .good ∧ c.phase = .waitData ∧ c.rw = true) :
    c.plan mem = some (.readData, c) := by
  rcases h with hpos | ⟨hpos, hphase, hrw⟩
  · simp [Call.plan, hpos]
  · simp [Call.plan, hpos, hphase, hrw]

/-- The call stands before the loop head of R262 and R263, with byte j next and m.phase ph: after the
address, after a byte written, after a byte read and stored. -/
inductive Call.AtByte (c : Call) : Phase → Nat → Prop where
  | first : c.phase = .waitAddr → c.pos = .good → c.AtByte .waitData c.i
  | written : c.phase = .waitData → c.pos = .good → c.rw = false → c.AtByte .waitData (c.i + 1)
  | stored : c.pos = .stored → c.AtByte c.phase (c.i + 1)

theorem Call.AtByte.plan {ph : Phase} {j : Nat} (h : c.AtByte ph j) (mem : Memory) :
    c.plan mem = some (Call.dataPhase mem { c with phase := ph, i := j }) := by
  cases h with
  | first hphase hpos => simp [Call.plan, hpos, hphase]
  | written hphase hpos hrw => simp [Call.plan, hpos, hphase, hrw]
  | stored hpos => simp [Call.plan, hpos]

/-- While a byte is left to write, it is written (R262). -/
theorem Call.AtByte.plan_of_write {ph : Phase} {j : Nat} (h : c.AtByte ph j) (hj : j < c.len)
    (hrw : c.rw = false) (mem : Memory) :
    c.plan mem = some (.write (mem.read (c.buf.base + j)), { c with phase := ph, i := j }) := by
  simp [h.plan, Call.dataPhase, Call.dataAct, bufAddr, hj, hrw]

/-- A byte to read that is not the last is read with ACK (R263). -/
theorem Call.AtByte.plan_of_readAck {ph : Phase} {j : Nat} (h : c.AtByte ph j) (hrw : c.rw = true)
    (hmore : j + 1 < c.len) (mem : Memory) :
    c.plan mem = some (.readAck, { c with phase := ph, i := j }) := by
  simp [h.plan, Call.dataPhase, Call.dataAct, Call.nonFinal, Nat.lt_of_succ_lt hmore, hrw, hmore]

/-- The last byte to read is read with NACK (R263). -/
theorem Call.AtByte.plan_of_readNack {ph : Phase} {j : Nat} (h : c.AtByte ph j) (hrw : c.rw = true)
    (hlast : j + 1 = c.len) (mem : Memory) :
    c.plan mem = some (.readNack, { c with phase := ph, i := j }) := by
  simp [h.plan, Call.dataPhase, Call.dataAct, Call.nonFinal, hrw, ← hlast]

/-- Where no byte is left, the call stops with code 0. -/
theorem Call.AtByte.plan_of_ge {ph : Phase} {j : Nat} (h : c.AtByte ph j) (hj : c.len ≤ j) (mem : Memory) :
    c.plan mem = some (.stop, c.ended 0 j) := by
  rw [h.plan, Call.dataPhase, if_neg (Nat.not_lt.2 hj)]
  rfl

theorem Call.afterPoll_eq (c : Call) : c.afterPoll =
    if c.rw = true ∧ c.phase = .waitData ∧ c.len ≤ c.i + 1 then .readData else .status := by
  simp [Call.afterPoll, Call.nonFinal, and_assoc]

/-- When M_TRANSMIT returns without a stop (R262). -/
theorem Call.stopsAfter_eq_false {p : Params} {rc : Rc} :
    c.stopsAfter p rc = false ↔ c.rw = false ∧ rc ≠ 3 ∧ p.txStopOnEarlyFail = false := by
  simp [Call.stopsAfter, and_assoc]

/-- The status each waiting phase compares with, and the code of another one (R108, R262, R263). -/
theorem Call.expected_and_failCode {p : Params} {expected : Byte} {code : Rc}
    (h : c.phase = .waitStart ∧ expected = p.stStartSent ∧ code = 1 ∨
     c.phase = .waitAddr ∧ expected = (if c.rw then p.stAddrRAck else p.stAddrWAck) ∧ code = 2 ∨
     c.phase = .waitData ∧ expected = (if c.rw then p.stDataRxAck else p.stDataTxAck) ∧ code = 3) :
    c.expected p = expected ∧ c.failCode = code := by
  rcases h with ⟨hphase, rfl, rfl⟩ | ⟨hphase, rfl, rfl⟩ | ⟨hphase, rfl, rfl⟩ <;>
    simp [Call.expected, Call.failCode, hphase]

/-- What a failed receive has stored: all bytes received on code 3, none on codes 1 and 2 (R263). -/
theorem Call.received_ended {rc : Rc} {j : Nat} (h : rc = 3 → j = c.i) :
    (c.ended rc j).received = if rc = 3 then c.i else 0 :=
  if_ctx_congr Iff.rfl h fun _ => rfl

/-- A stop leaves no position open where the call transmits or succeeds (R263). -/
theorem Call.openCount_eq_zero (h : c.rw = false ∨ c.rc = 0) : c.openCount = 0 := by
  rcases h with h | h <;> simp [Call.openCount, h]

/-- The open positions of a failed receive reach from the last byte received to the length asked for. -/
theorem Memory.read_fillFree_openCount {mem : Memory} (hwf : mem.wf) (draws : Nat) (c : Call) {x : Nat}
    (hx : x < bufAddr c.buf c.received ∨ bufAddr c.buf c.len ≤ x) :
    (mem.fillFree draws (bufAddr c.buf c.received) c.openCount).read x = mem.read x := by
  by_cases hopen : c.openCount = 0
  · rw [hopen]
    rfl
  · have hcount : c.openCount = c.len - c.received := by
      unfold Call.openCount at hopen ⊢
      split
      · rfl
      · next h => exact absurd (if_neg h) hopen
    refine Memory.read_fillFree_of_outside hwf _ _ _ _ ?_
    unfold bufAddr at hx ⊢
    omega

/-! ### Making a call (R260, R262, R263) -/

/-- The operations that make a call, with the direction of it. -/
inductive MakesCall (t : Byte) (buf : BufRef) (len : Nat) : Instr → Bool → Prop where
  | transmit : MakesCall t buf len (.mTransmit t buf len) false
  | receive : MakesCall t buf len (.mReceive t buf len) true

section
variable {t : Byte} {buf : BufRef} {len : Nat} {rw : Bool}

theorem MakesCall.exec_eq (h : MakesCall t buf len i rw) (s : State) :
    exec i s = s.admitted i (s.onMaster fun m => .next (s.beginCall rw t buf len m)) := by
  cases h <;> rfl

/-- The checks of R119 that come before WF_BUF, but for WF_AGENT. -/
theorem MakesCall.wellFormed (h : MakesCall t buf len i rw) (s : State) :
    i.shapeOk = true ∧ i.kOk = true ∧ s.ringOk i = true ∧ i.cfgOk s.cfg.indexBits = true := by
  cases h <;> exact ⟨rfl, rfl, rfl, rfl⟩

theorem MakesCall.bufOk (h : MakesCall t buf len i rw) : i.bufOk = buf.size.isSome := by
  cases h <;> rfl

theorem MakesCall.actsOn (h : MakesCall t buf len i rw) (s : State) : s.actsOn i = s.masterInst := by
  cases h <;> rfl

theorem MakesCall.mayIssue (h : MakesCall t buf len i rw) (hready : MasterReady s m .masterFg) :
    s.mayIssue i = m.free := by
  cases h <;> simp [State.mayIssue, hready.agent, hready.master]

theorem MasterReady.exec_call_refused {w : WfCheck} (h : MasterReady s m .masterFg)
    (hop : MakesCall t buf len i rw) (hfail : s.failedCheck i = some w) :
    exec i s = .next (s.putMaster { m with status := ⟨[], some w.reason⟩ }) := by
  rw [hop.exec_eq, State.admit_master_refused _ h nofun (h.instOf i (.inl rfl)) hfail]

/-- A call that may be made, with a buffer of known size, is made. -/
theorem MasterReady.exec_call (h : MasterReady s m .masterFg) (hop : MakesCall t buf len i rw)
    (hfree : m.free = true) (hsize : buf.size.isSome = true) :
    exec i s = .next (s.beginCall rw t buf len m) := by
  obtain ⟨hshape, hk, hring, hcfg⟩ := hop.wellFormed s
  have hacts := hop.actsOn s
  rw [hop.exec_eq, State.admit_master _ h nofun hacts
    (State.failedCheck_eq_none hshape hk hring ((hop.mayIssue h).trans hfree) hcfg
      (hacts ▸ s.configOk_masterInst) (hop.bufOk.trans hsize)), State.onMaster_of h.master]

/-- WF_BUF is the first check that fails where the call may be made and the buffer has no known size. -/
theorem MakesCall.failedCheck_buf (hop : MakesCall t buf len i rw) (h : MasterReady s m .masterFg)
    (hfree : m.free = true) (hsize : buf.size = none) : s.failedCheck i = some .buf := by
  obtain ⟨hshape, hk, hring, hcfg⟩ := hop.wellFormed s
  have hconfig : s.configOk (s.instOf i) = true := by
    rw [State.instOf_of_mayIssue ((hop.mayIssue h).trans hfree), hop.actsOn]
    exact s.configOk_masterInst
  simp [State.failedCheck, hshape, hk, hring, hop.mayIssue h, hfree, hcfg, hconfig, hop.bufOk, hsize]

theorem targetAddressOk_iff : targetAddressOk t = true ↔ t.toNat ≤ 127 := by
  simp [targetAddressOk]

theorem lengthOk_iff {p : Params} : lengthOk p buf len = true ↔ len ≤ p.lenMax ∧ len ≤ bufLen buf := by
  simp [lengthOk]

/-- Legal arguments: the call's step is that of its MH_START (R8, R264). -/
theorem State.beginCall_of_legal (haddr : t.toNat ≤ 127) (hmax : len ≤ s.cfg.lenMax) (hbuf : len ≤ bufLen buf) :
    s.beginCall rw t buf len m = AfterIssue s m .start .start
      (some ⟨.waitStart, rw, t.setWidth 7, len, 0, 0, buf, .poll⟩) := by
  simp only [State.beginCall, targetAddressOk_iff.2 haddr, lengthOk_iff.2 ⟨hmax, hbuf⟩]
  exact Launches.start.callStep_eq s _ m

/-- The address is checked first (R260). -/
theorem State.beginCall_of_badAddress (haddr : 127 < t.toNat) :
    s.beginCall rw t buf len m = s.raiseFault (.master s.ctx.node) .badTargetAddress := by
  have hbad : targetAddressOk t = false := by simpa [targetAddressOk] using haddr
  simp [State.beginCall, hbad]

/-- The length is checked after a legal address (R260). -/
theorem State.beginCall_of_badLength (haddr : t.toNat ≤ 127) (hlen : s.cfg.lenMax < len ∨ bufLen buf < len) :
    s.beginCall rw t buf len m = s.raiseFault (.master s.ctx.node) .badLength := by
  have hbad : lengthOk s.cfg buf len = false := by
    rw [Bool.eq_false_iff, Ne, lengthOk_iff]
    omega
  simp [State.beginCall, targetAddressOk_iff.2 haddr, hbad]

end

end

/-- Settles O43: the status test of the phase, and `Call.stopsAfter` where it fails. -/
theorem statusOfACall : Obligations.StatusOfACall := by
  intro s m c hready hcall hpos expected code hphase
  obtain ⟨hexpected, hcode⟩ := Call.expected_and_failCode hphase
  refine (hready.exec_read hcall (c.plan_of_status m.mem hpos) rfl).trans ?_
  simp only [Master.callStep, hexpected, hcode, ← Call.stopsAfter_eq_false]
  by_cases hgood : m.mhStatus = expected
  · simp only [if_pos hgood]
    rfl
  · simp only [if_neg hgood]
    cases c.stopsAfter s.cfg code <;> rfl

/-- Settles O44: the plan of the call has each action next, and R340 lets the address rows through where the
address byte is due. -/
theorem actionsOfACall : Obligations.ActionsOfACall := by
  refine fun s m c hready hcall hflight => ⟨fun hphase hpos => ?_, fun j hat hj => ?_⟩
  · have hplan := c.plan_of_address m.mem hphase hpos
    refine ⟨hready.exec_launch hcall hflight hplan (.write _), ?_⟩
    have hdue : s.master?.any Master.addressDue = true := by
      simp [hready.master, Master.addressDue, hcall, hphase, hpos]
    have hmay : s.mayAddress (addrByte c.addr c.rw) = true :=
      Bool.and_eq_true_iff.2 ⟨hready.mayAct hcall hplan fun _ => hflight, hdue⟩
    exact hready.exec_issue (.addressRow c.addr c.rw) ((s.mayIssue_addressRow _ _).trans hmay) hcall hplan
  · have hbyte : c.AtByte .waitData j := by
      rcases hat with ⟨hphase, hpos, rfl⟩ | ⟨hphase, hpos, hrw, rfl⟩ | ⟨hphase, hpos, rfl⟩
      · exact .first hphase hpos
      · exact .written hphase hpos hrw
      · exact hphase ▸ .stored hpos
    exact ⟨fun hrw => hready.exec_launch hcall hflight (hbyte.plan_of_write hj hrw m.mem) (.write _),
      fun hrw hmore => hready.exec_launch hcall hflight (hbyte.plan_of_readAck hrw hmore m.mem) .readAck,
      fun hrw hlast => hready.exec_launch hcall hflight (hbyte.plan_of_readNack hrw hlast m.mem) .readNack⟩

/-- Settles O45: the data read writes one byte of the caller's memory. -/
theorem receivedByteIsStored : Obligations.ReceivedByteIsStored := by
  intro s m c hready hcall hpos hwf
  refine ⟨m.mem.write (bufAddr c.buf c.i) m.mhData,
    hready.exec_read hcall (c.plan_of_readData m.mem hpos) rfl, ?_, fun x hx => ?_, Memory.wf_write hwf _ _⟩
  · rw [Memory.read_write hwf, if_pos rfl]
  · rw [Memory.read_write hwf, if_neg hx]

/-- Settles O46: the plan of the call is the stop, and the positions it opens are `Call.openCount` many. -/
theorem stopEndsTheCall : Obligations.StopEndsTheCall := by
  intro s m c rc hready hcall hflight hend
  obtain ⟨j, hj, hplan⟩ : ∃ j, (rc = 3 → j = c.i) ∧ c.plan m.mem = some (.stop, c.ended rc j) := by
    rcases hend with hpos | ⟨rfl, hpos, hphase, hlen⟩ | ⟨rfl, hpos, hphase, hrw, hlen⟩ | ⟨rfl, hpos, hlen⟩
    · exact ⟨c.i, fun _ => rfl, c.plan_of_fail m.mem hpos⟩
    · exact ⟨c.i, nofun, (Call.AtByte.first hphase hpos).plan_of_ge hlen m.mem⟩
    · exact ⟨c.i + 1, nofun, (Call.AtByte.written hphase hpos hrw).plan_of_ge hlen m.mem⟩
    · exact ⟨c.i + 1, nofun, (Call.AtByte.stored hpos).plan_of_ge hlen m.mem⟩
  refine ⟨m.mem.fillFree s.draws (bufAddr c.buf (c.ended rc j).received) (c.ended rc j).openCount,
    s.draws + (c.ended rc j).openCount, hready.exec_act hcall hplan fun _ => hflight, fun hclosed => ?_,
    fun hwf => ⟨Memory.wf_fillFree hwf _ _ _, fun x hx => ?_⟩⟩
  · rw [Call.openCount_eq_zero hclosed]
    exact ⟨rfl, rfl⟩
  · rw [← Call.received_ended hj] at hx
    exact Memory.read_fillFree_openCount hwf s.draws (c.ended rc j) hx

/-- Settles O39: the arguments pass the tests of R260, and the step is that of MH_START. -/
theorem callBegins : Obligations.CallBegins := by
  refine ⟨fun s m t base size len hready hcall hflight haddr hmax hsize => ⟨?_, ?_, ?_⟩,
    fun s m c hready hcall hpos hflight => ?_⟩
  · rw [BitVec.toNat_setWidth, Nat.mod_eq_of_lt (Nat.lt_succ_of_le haddr)]
  · rw [hready.exec_call .transmit (Master.free_iff.2 ⟨hcall, hflight⟩) rfl,
      State.beginCall_of_legal (buf := ⟨base, some size⟩) haddr hmax hsize]
  · rw [hready.exec_call .receive (Master.free_iff.2 ⟨hcall, hflight⟩) rfl,
      State.beginCall_of_legal (buf := ⟨base, some size⟩) haddr hmax hsize]
  · exact hready.exec_launch hcall hflight (c.plan_of_begin m.mem hpos) .start

/-- Settles O40: the call may be made, and `State.beginCall` raises the fault. -/
theorem badCallArgumentsFault : Obligations.BadCallArgumentsFault := by
  intro s m t base size len hready hcall hflight
  have hcalls : ∀ {i rw}, MakesCall t ⟨base, some size⟩ len i rw →
      exec i s = .next (s.beginCall rw t ⟨base, some size⟩ len m) :=
    fun hop => hready.exec_call hop (Master.free_iff.2 ⟨hcall, hflight⟩) rfl
  refine ⟨fun haddr => ?_, fun haddr hlen => ?_⟩
  · rw [hcalls .transmit, hcalls .receive, State.beginCall_of_badAddress haddr,
      State.beginCall_of_badAddress haddr, hready.raiseFault]
    exact ⟨rfl, rfl⟩
  · rw [hcalls .transmit, hcalls .receive, State.beginCall_of_badLength haddr hlen,
      State.beginCall_of_badLength haddr hlen, hready.raiseFault]
    exact ⟨rfl, rfl⟩

/-- Settles O41: R340 comes before WF_BUF, and lets through neither a call that may not be made nor an action
that issues an operation in flight. -/
theorem masterOperationsRefused : Obligations.MasterOperationsRefused := by
  refine ⟨fun s m t buf len i hready hi => ?_, fun s m i hready hflight hi => ?_⟩
  · obtain ⟨rw, hop⟩ : ∃ rw, MakesCall t buf len i rw := by
      rcases hi with rfl | rfl
      · exact ⟨_, .transmit⟩
      · exact ⟨_, .receive⟩
    refine ⟨fun hbusy => ?_, fun hcall hidle hsize => ?_⟩
    · have hfree : m.free = false := by
        rw [Bool.eq_false_iff, Ne, Master.free_iff]
        rintro ⟨hcall, hidle⟩
        simp [hcall, hidle] at hbusy
      obtain ⟨hshape, hk, hring, -⟩ := hop.wellFormed s
      exact hready.exec_call_refused hop
        (State.failedCheck_agent hshape hk hring ((hop.mayIssue hready).trans hfree))
    · exact hready.exec_call_refused hop
        (hop.failedCheck_buf hready (Master.free_iff.2 ⟨hcall, hidle⟩) hsize)
  · obtain ⟨a, hop, hissues⟩ : ∃ a, IssuesAct i a ∧ actIssues a = true := by
      rcases hi with rfl | ⟨v, rfl⟩ | rfl | rfl | rfl | ⟨t, rfl⟩ | ⟨t, rfl⟩
      · exact ⟨_, .act .start, rfl⟩
      · exact ⟨_, .act (.write v), rfl⟩
      · exact ⟨_, .act .readAck, rfl⟩
      · exact ⟨_, .act .readNack, rfl⟩
      · exact ⟨_, .act .stop, rfl⟩
      · exact ⟨_, .addrWrite t, rfl⟩
      · exact ⟨_, .addrRead t, rfl⟩
    refine hready.exec_refused hop (Bool.eq_false_iff.2 fun hmay => ?_)
    obtain ⟨-, m', hm', hidle, -⟩ := State.mayAct_iff.1 (hop.mayAct hmay)
    cases hready.master.symm.trans hm'
    exact Bool.false_ne_true ((hidle hissues).symm.trans hflight)

/-- Settles O42: the plan of the call is the poll, and where it leads is `Call.afterPoll`. -/
theorem pollOfACall : Obligations.PollOfACall := by
  intro s m c hready hcall hpos
  have hnext : (if m.complete = false then .poll
      else if c.rw = true ∧ c.phase = .waitData ∧ c.len ≤ c.i + 1 then .readData else .status) =
      if m.complete = true then c.afterPoll else .poll := by
    rw [← c.afterPoll_eq]
    cases m.complete <;> rfl
  rw [hnext]
  exact hready.exec_read hcall (c.plan_of_poll m.mem hpos) rfl

end Sys2Proof.Machine

namespace Sys2Proof.Machine

section
variable {s : State} {j : Nat}

/-! ### Agents that move by themselves (R264, R308, R122, R386; log 5, log 15) -/

theorem step_of_cons {t : Turn} {rest : List Turn} (h : s.sched = t :: rest) :
    step s = State.takeTurn t { s with sched := rest } := by
  unfold step
  rw [h]

theorem step_of_nil (h : s.sched = []) : step s = s.idleTurn := by
  unfold step
  rw [h]

theorem State.masterTurn_of_some {a : MAct} (h : s.nextActAt j = some a) :
    s.masterTurn j = exec a.toInstr { s with ctx := ⟨.masterEngine, j⟩ } := by
  unfold State.masterTurn
  rw [h]

theorem State.scriptTurn_of_cons {st d : Byte} {xs : List (Byte × Byte)} (h : s.scripts[j]? = some ((st, d) :: xs)) :
    s.scriptTurn j = exec (.envMComplete st d) { s with scripts := s.scripts.set j xs, ctx := ⟨.env, j⟩ } := by
  unfold State.scriptTurn
  rw [h]

theorem State.wireTurn_of_due {x : Sym} {xs : List Sym} (henv : s.cfg.env = .wire j)
    (hdue : s.bus.pending = x :: xs) :
    s.wireTurn = .next ({ s with bus := { s.bus with pending := xs } }.carrySym x) := by
  unfold State.wireTurn
  rw [henv, hdue]

theorem State.wireTurn_of_inFlight {m : Master} (henv : s.cfg.env = .wire j) (hdue : s.bus.pending = [])
    (hmaster : s.masterAt j = some m) (hflight : m.inFlight = true) :
    s.wireTurn = exec (.envMComplete (s.bus.completion s.cfg m.op).1 (s.bus.completion s.cfg m.op).2)
      { s with ctx := ⟨.wire, j⟩ } := by
  unfold State.wireTurn
  simp only [henv, hdue, hmaster, hflight, if_true]

/-- The lowest node of which p holds, p being about its master. -/
theorem State.firstNode_eq_some {p : Nat → Bool} {q : Master → Bool} (hp : p j = true)
    (hmaster : (s.masterAt j).any q = true) (hlow : ∀ k, k < j → p k = false) : s.firstNode p = some j := by
  obtain ⟨m, hm⟩ := exists_of_any hmaster
  refine List.find?_range_eq_some.2 ⟨hp, List.mem_range.2 (State.masters_lt hm).2, fun k hk => ?_⟩
  rw [hlow k hk]
  rfl

theorem State.firstNode_eq_none {p : Nat → Bool} (h : ∀ k, p k = false) : s.firstNode p = none :=
  List.find?_eq_none.2 fun k _ => by simp [h k]

theorem State.firstNode_scriptDue (hdue : s.scriptDue j = true) (hlow : ∀ k, k < j → s.scriptDue k = false) :
    s.firstNode s.scriptDue = some j :=
  State.firstNode_eq_some hdue (Bool.and_eq_true_iff.1 (Bool.and_eq_true_iff.1 hdue).1).2 hlow

theorem State.firstNode_callAt (hcall : s.callAt j = true) (hlow : ∀ k, k < j → s.callAt k = false) :
    s.firstNode s.callAt = some j :=
  State.firstNode_eq_some hcall hcall hlow

/-- What moves by itself moves with nothing scheduled, and where the schedule awaits (log 15). -/
theorem step_of_movesAlone {rest : List Turn} (hs : s.sched = [] ∨ s.sched = .await :: rest)
    (hmoves : s.movesAlone = true) : step s = s.idleTurn := by
  rcases hs with hs | hs
  · exact step_of_nil hs
  · have hback : s = { s with sched := .await :: rest } := by rw [← hs]
    rw [step_of_cons hs]
    conv => rhs; rw [hback]
    exact if_pos hmoves

theorem step_of_wireDue {rest : List Turn} (hs : s.sched = [] ∨ s.sched = .await :: rest)
    (hwire : s.wireDue = true) : step s = s.wireTurn := by
  rw [step_of_movesAlone hs (by simp [State.movesAlone, hwire]), State.idleTurn, if_pos hwire]

theorem step_of_scriptDue {rest : List Turn} (hs : s.sched = [] ∨ s.sched = .await :: rest)
    (hwire : s.wireDue = false) (hfirst : s.firstNode s.scriptDue = some j) : step s = s.scriptTurn j := by
  rw [step_of_movesAlone hs (by simp [State.movesAlone, hfirst])]
  simp [State.idleTurn, hwire, hfirst]

theorem step_of_callAt {rest : List Turn} (hs : s.sched = [] ∨ s.sched = .await :: rest)
    (hwire : s.wireDue = false) (hscript : s.firstNode s.scriptDue = none)
    (hfirst : s.firstNode s.callAt = some j) : step s = s.masterTurn j := by
  rw [step_of_movesAlone hs (by simp [State.movesAlone, hfirst])]
  simp [State.idleTurn, hwire, hscript, hfirst]

end

/-- Settles O10: the turns of the schedule, and of what moves by itself the first in the order of log 15. -/
theorem stepOfAgentsThatMoveAlone : Obligations.StepOfAgentsThatMoveAlone := by
  refine fun s rest j => ⟨fun a hs hact => ?_, fun x xs hs henv hdue => ?_, fun m hs henv hdue hmaster hflight => ?_,
    fun hs => ⟨step_of_wireDue hs, fun st d xs hwire hdue hlow hscript => ?_,
      fun a hwire hnoScript hcall hlow hact => ?_⟩,
    fun hwire hnoScript hnoCall => ?_⟩
  · rw [step_of_cons hs]
    exact State.masterTurn_of_some hact
  · rw [step_of_cons hs]
    exact State.wireTurn_of_due henv hdue
  · rw [step_of_cons hs]
    exact State.wireTurn_of_inFlight henv hdue hmaster hflight
  · rw [step_of_scriptDue hs hwire (State.firstNode_scriptDue hdue hlow), State.scriptTurn_of_cons hscript]
  · rw [step_of_callAt hs hwire (State.firstNode_eq_none hnoScript) (State.firstNode_callAt hcall hlow),
      State.masterTurn_of_some hact]
  · have hscript := State.firstNode_eq_none (s := s) hnoScript
    have hcall := State.firstNode_eq_none (s := s) hnoCall
    refine ⟨fun hs => ?_, fun hs => ?_⟩
    · have hstill : s.movesAlone = false := by simp [State.movesAlone, hwire, hscript, hcall]
      rw [step_of_cons hs]
      exact if_neg (ne_true_of_eq_false hstill)
    · rw [step_of_nil hs]
      simp [State.idleTurn, hwire, hscript, hcall]

end Sys2Proof.Machine

namespace Sys2Proof.Machine

section
variable {s : State} {n : Slave}

/-! ### A symbol at the nodes and at the master (R301, R303, R304) -/

/-- One more sampled bit in numbers: the value doubles, and the eighth bit drops out. -/
theorem toNat_shiftIn (v : Byte) (b : Bool) : (shiftIn v b).toNat = (2 * v.toNat + b.toNat) % 256 := by
  have hdisjoint : v <<< 1 &&& (if b then 1#8 else 0#8) = 0#8 := by
    ext i
    cases i <;> cases b <;> simp
  rw [shiftIn, ← BitVec.add_eq_or_of_and_eq_zero _ _ hdisjoint, BitVec.toNat_add, BitVec.toNat_shiftLeft,
    Nat.shiftLeft_eq]
  cases b <;> simp <;> omega

/-- With one bit armed, a slot is the EV_SHIFT that samples its bit, in every state: both refuse the encoding 7. -/
theorem Slave.busSlot_of_armed_one (w : Byte) (hsteps : n.takesSteps = true) (henabled : n.enabled = true)
    (harmed : n.armed = 1) : n.busSlot (w.getLsbD 0) = n.evShift (n.sr <<< 1) w := by
  by_cases hstate : n.state = .corrupt
  · rw [Slave.evShift_of_corrupt _ w hstate]
    simp [Slave.busSlot, hsteps, henabled, harmed, hstate]
  · exact Slave.busSlot_eq_evShift w hsteps henabled harmed hstate

/-- A slot of a master action: each node takes its value, and the master samples it, as the acknowledge bit or as
the next bit of the byte it reads. -/
theorem State.masterSlot_eq (bit ack : Bool) (s : State) :
    s.masterSlot bit ack =
      { s.wireBit bit with
        bus := { s.bus with
          line := slotValue bit s.slaves
          ack := if ack then slotValue bit s.slaves else s.bus.ack
          sampled := if ack then s.bus.sampled else shiftIn s.bus.sampled (slotValue bit s.slaves) } } := by
  cases ack <;> rfl

end

/-- Settles O28: armed for as many slots, a node shifts the byte in and then runs its handler; one armed for a
single slot has the old bits where EV_SHIFT leaves them open. -/
theorem bitSlotsAgreeWithShiftEvents : Obligations.BitSlotsAgreeWithShiftEvents := by
  refine fun n hsteps henabled hstate => ⟨fun harmed b free => ?_, fun harmed v w hw => ⟨n.sr <<< 1, ?_⟩⟩
  · rw [Slave.busSlots_of_armed (vs := bitsMsbFirst b) hsteps henabled hstate harmed (List.cons_ne_nil _ _),
      foldl_shiftIn_bitsMsbFirst, Slave.evShift_of_not_corrupt free b hstate, Slave.sampled, if_pos harmed]
  · rw [← hw]
    exact Slave.busSlot_eq_evShift w hsteps henabled harmed hstate

/-- Settles O50: symbol by symbol, the wire's turn maps its part over the nodes. -/
theorem wireCarriesASymbol : Obligations.WireCarriesASymbol := by
  intro s rest k x xs hs henv hdue
  refine ⟨_, (step_of_cons hs).trans (State.wireTurn_of_due henv hdue), State.carrySym_frame x _, ?_⟩
  cases x with
  | start =>
    refine ⟨rfl, nofun, fun _ => ⟨rfl, fun j n hn => ?_⟩, nofun⟩
    simp [State.carrySym, Slave.busStart, hn, and_comm]
  | stop => exact ⟨rfl, fun _ => ⟨rfl, rfl⟩, nofun, nofun⟩
  | slot bit ack =>
    rw [State.carrySym, State.masterSlot_eq]
    refine ⟨rfl, nofun, nofun, ?_⟩
    rintro bit ack ⟨⟩
    refine ⟨slotValue_eq_true, fun hack => ⟨if_pos hack, if_pos hack⟩, fun hdata => ⟨?_, ?_⟩, fun j n hn =>
      ⟨fun hidle => ?_, fun hsteps henabled hcount => ?_, fun hsteps henabled harmed => ?_⟩⟩
    · simp [hdata]
    · simp [hdata, toNat_shiftIn]
    · simp [hn, Slave.busSlot_of_idle _ hidle]
    · simp [hn, Slave.busSlot_of_counting _ hsteps henabled hcount, shiftIn]
    · obtain ⟨w, hw⟩ := exists_getLsbD_zero (slotValue bit s.slaves)
      refine ⟨n.sr <<< 1, w, hw, ?_, ?_⟩
      · dsimp only
        rw [← shiftIn_eq_oneBitSample, hw]
      · rw [← Slave.busSlot_of_armed_one w hsteps henabled harmed, hw]
        simp [hn]

section
variable {s : State} {m : Master} {j : Nat}

/-! ### What the wire tells the master (R308, R10) -/

/-- The status of a write: the acknowledge slot selects ACK or NACK, and in the address phase the byte's bit 0 the
direction. -/
theorem Bus.completion_write (p : Params) (b : Bus) :
    (b.completion p .write).1 =
      if b.isAddr = true then
        (if b.ack = true then (if b.out.toNat % 2 = 1 then p.stAddrRNack else p.stAddrWNack)
         else (if b.out.toNat % 2 = 1 then p.stAddrRAck else p.stAddrWAck))
      else (if b.ack = true then p.stDataTxNack else p.stDataTxAck) := by
  rw [Bus.completion, rwField_eq_decide]
  simp only [decide_eq_true_eq]
  split <;> split <;> rfl

/-- R10's constraint, status by status. -/
theorem Params.statusesDiffer_iff {p : Params} : p.statusesDiffer = true ↔
    p.stAddrWNack ≠ p.stAddrWAck ∧ p.stAddrRNack ≠ p.stAddrRAck ∧ p.stDataTxNack ≠ p.stDataTxAck ∧
      p.stDataRxNack ≠ p.stDataRxAck := by
  simp [Params.statusesDiffer, and_assoc]

/-- Once no symbol is due, the wire's turn completes the operation in flight, with the wire's values. -/
theorem State.wireTurn_completes (henv : s.cfg.env = .wire j) (hdue : s.bus.pending = [])
    (hmaster : s.masterAt j = some m) (hflight : m.inFlight = true) (hclean : m.status = Status.clean) :
    s.wireTurn = .next (State.putMaster { s with ctx := ⟨.wire, j⟩ }
      (m.completeOp (s.bus.completion s.cfg m.op).1 (s.bus.completion s.cfg m.op).2)) := by
  rw [State.wireTurn_of_inFlight henv hdue hmaster hflight]
  exact (completionOfTheOperationInFlight { s with ctx := ⟨.wire, j⟩ } m _ _ hmaster hclean hflight).2 rfl henv hdue

end

/-- Settles O51: the completion's values are `Bus.completion`'s, which follow R308's table. -/
theorem wireCompletesAnOperation : Obligations.WireCompletesAnOperation := by
  intro s rest j m hs henv hdue hmaster hflight hclean
  refine ⟨_, m.completeOp _ _,
    (step_of_cons hs).trans (State.wireTurn_completes (s := { s with sched := rest }) henv hdue hmaster hflight hclean),
    State.master?_putMaster hmaster, rfl, rfl, rfl, rfl, rfl, rfl, fun hop => ?_, fun hop => ?_, fun hop => ?_,
    fun hop => ?_, fun hop hdiffer => ?_⟩
  · rw [Master.completeOp_mhStatus, hop, Bus.completion]
  · rw [Master.completeOp_mhStatus, hop, Bus.completion_write]
  · rw [Master.completeOp_mhStatus, Master.completeOp_mhData, if_pos (.inl hop), hop]
    exact ⟨rfl, rfl⟩
  · rw [Master.completeOp_mhStatus, Master.completeOp_mhData, if_pos (.inr hop), hop]
    exact ⟨rfl, rfl⟩
  · obtain ⟨haddrW, haddrR, hdata, -⟩ := Params.statusesDiffer_iff.1 hdiffer
    rw [Master.completeOp_mhStatus, hop, Bus.completion_write]
    refine ⟨fun haddr => ?_, fun haddr => ?_⟩
    · have hne : (if s.bus.out.toNat % 2 = 1 then s.cfg.stAddrRNack else s.cfg.stAddrWNack) ≠
          (if s.bus.out.toNat % 2 = 1 then s.cfg.stAddrRAck else s.cfg.stAddrWAck) := by
        split
        · exact haddrR
        · exact haddrW
      rw [if_pos haddr, hne.ite_eq_right_iff, Bool.not_eq_true]
    · rw [if_neg (ne_true_of_eq_false haddr), hdata.ite_eq_right_iff, Bool.not_eq_true]

/-- Settles O49: each action's row of R303, and the address phase is the first write after a start. -/
theorem symbolsOfMasterActions : Obligations.SymbolsOfMasterActions := by
  refine fun b => ⟨rfl, fun v => rfl, rfl, rfl, rfl, fun a ha => ?_, fun v w => ⟨rfl, rfl⟩⟩
  rcases ha with rfl | rfl | rfl <;> simp [Bus.carry, actSymbols]

end Sys2Proof.Machine

namespace Sys2Proof.Machine

/-! ### Recording a fault or a refusal (R332, R333) -/

/-- Replacing an entry by one that c does not tell from it is not seen through c. -/
theorem map_modify_of_eq {α β : Type} {c : α → β} {g : α → α} (h : ∀ x, c (g x) = c x) (l : List α)
    (j : Nat) : (l.modify j g).map c = l.map c := by
  refine List.ext_getElem? fun k => ?_
  rw [List.getElem?_map, List.getElem?_map, List.getElem?_modify]
  cases l[k]? with
  | none => rfl
  | some x =>
    simp only [Option.map_eq_map, Option.map_some]
    split
    · rw [h]
    · rfl

/-- A change of one record leaves every other field of the slave nodes. -/
theorem State.mapStatus_slaves_cleaned (s : State) (k : Inst) (f : Status → Status) :
    (s.mapStatus k f).slaves.map (fun n => { n with status := Status.clean }) =
      s.slaves.map (fun n => { n with status := Status.clean }) := by
  cases k with
  | slave j => exact map_modify_of_eq (g := Slave.mapStatus f) (fun _ => rfl) _ _
  | master j | ring q | outside c => rfl

/-- A change of one record leaves every other field of the master engines, their callers' memories among
them. -/
theorem State.mapStatus_masters_cleaned (s : State) (k : Inst) (f : Status → Status) :
    (s.mapStatus k f).masters.map (Option.map fun m => { m with status := Status.clean }) =
      s.masters.map (Option.map fun m => { m with status := Status.clean }) := by
  cases k with
  | master j => exact map_modify_of_eq (fun o => by cases o <;> rfl) _ _
  | slave j | ring q | outside c => rfl

/-- A change of one record leaves every other field of the stand-alone rings. -/
theorem State.mapStatus_rings_cleaned (s : State) (k : Inst) (f : Status → Status) :
    (s.mapStatus k f).rings.map (fun r => { r with status := Status.clean }) =
      s.rings.map (fun r => { r with status := Status.clean }) := by
  cases k with
  | ring q =>
    refine (List.map_map ..).trans (List.map_congr_left fun r _ => ?_)
    dsimp only [Function.comp]
    split <;> rfl
  | slave j | master j | outside c => rfl

theorem State.statusOf_mapStatus_same {s : State} {k : Inst} {st : Status} (h : s.statusOf k = some st)
    (f : Status → Status) : (s.mapStatus k f).statusOf k = some (f st) := by
  rw [State.statusOf_mapStatus, if_pos rfl, h, Option.map_some]

theorem State.statusOf_mapStatus_ne (s : State) {j k : Inst} (h : j ≠ k) (f : Status → Status) :
    (s.mapStatus k f).statusOf j = s.statusOf j := by
  rw [State.statusOf_mapStatus, if_neg h]

/-- A refusal sets the mark, and leaves one that is already there (R49). -/
theorem Status.refusal_refuse (r : RefuseReason) (st : Status) :
    (st.refuse r).refusal = some (st.refusal.getD r) := by
  obtain ⟨faults, refusal⟩ := st
  cases refusal <;> rfl

/-- Settles O5: raising and refusing are both `State.mapStatus`, which reaches one record and no field
beside the records. -/
theorem recordingTouchesOneRecordOnly : Obligations.RecordingTouchesOneRecordOnly := by
  intro s k st c r hst
  refine ⟨⟨_, State.statusOf_mapStatus_same hst _, rfl, fun x => mem_addFault⟩,
    ⟨_, State.statusOf_mapStatus_same hst _, rfl, ?_, fun hnone => ?_⟩,
    fun j hj => ⟨s.statusOf_mapStatus_ne hj _, s.statusOf_mapStatus_ne hj _⟩, fun t ht => ?_⟩
  · rw [Status.refusal_refuse, Option.isSome_some]
  · rw [Status.refusal_refuse, hnone, Option.getD_none]
  · obtain ⟨f, rfl⟩ : ∃ f, t = s.mapStatus k f := by
      rcases ht with rfl | rfl
      · exact ⟨_, rfl⟩
      · exact ⟨_, rfl⟩
    exact ⟨s.mapStatus_cfg k f, s.mapStatus_bus k f, s.mapStatus_ctx k f, s.mapStatus_sched k f,
      s.mapStatus_scripts k f, s.mapStatus_draws k f, s.mapStatus_slaves_cleaned k f,
      s.mapStatus_masters_cleaned k f, s.mapStatus_rings_cleaned k f⟩

/-! ### The master HAL actions outside a call and out of its order (R340) -/

/-- An action that is not the one the call's rule has next is refused (log 8). -/
theorem MasterReady.exec_out_of_order {s : State} {m : Master} {i : Instr} {a : MAct}
    (h : MasterReady s m .masterEngine) (hop : IssuesAct i a) (hnext : m.nextAct ≠ some a) :
    exec i s = .next (s.putMaster { m with status := ⟨[], some .wrongAgent⟩ }) := by
  refine h.exec_refused hop (Bool.eq_false_iff.2 fun hmay => ?_)
  obtain ⟨-, m', hm', -, hnext'⟩ := State.mayAct_iff.1 (hop.mayAct hmay)
  cases h.master.symm.trans hm'
  exact hnext hnext'

theorem Master.nextAct_of_call {m : Master} {c c' : Call} {a : MAct} (hcall : m.call = some c)
    (hplan : c.plan m.mem = some (a, c')) : m.nextAct = some a := by
  simp [Master.nextAct, hcall, hplan]

/-- No address byte is let through but where the call's next write is its address byte (log 16). -/
theorem State.mayAddress_eq_false {s : State} {m : Master} {c : Call} (hm : s.master? = some m)
    (hcall : m.call = some c) (h : ¬ (c.phase = .waitStart ∧ c.pos = .good)) (b : Byte) :
    s.mayAddress b = false := by
  have hdue : m.addressDue = false := by simpa [Master.addressDue, hcall] using h
  simp [State.mayAddress, hm, hdue]

/-- Settles O37: outside a call no action is next, inside one only the planned one is, and the address rows
need the address byte due besides. -/
theorem masterHalActionsBelongToACall : Obligations.MasterHalActionsBelongToACall := by
  refine fun s m hready => ⟨fun hcall i hi => ?_, fun c a c' b hcall hplan hne => ?_,
    fun c a hcall hdue => ⟨?_, ?_⟩⟩
  · obtain ⟨a, hop⟩ : ∃ a, IssuesAct i a := by
      rcases hi with rfl | ⟨v, rfl⟩ | rfl | rfl | rfl | rfl | rfl | rfl | ⟨t, rfl⟩ | ⟨t, rfl⟩
      · exact ⟨_, .act .start⟩
      · exact ⟨_, .act (.write v)⟩
      · exact ⟨_, .act .readAck⟩
      · exact ⟨_, .act .readNack⟩
      · exact ⟨_, .act .stop⟩
      · exact ⟨_, .act .poll⟩
      · exact ⟨_, .act .status⟩
      · exact ⟨_, .act .readData⟩
      · exact ⟨_, .addrWrite t⟩
      · exact ⟨_, .addrRead t⟩
    exact hready.exec_out_of_order hop (by simp [Master.nextAct, hcall])
  · refine hready.exec_out_of_order (.act b) ?_
    rw [Master.nextAct_of_call hcall hplan]
    exact fun h => hne (Option.some.inj h).symm
  · exact hready.exec_refused (.addrWrite a) (State.mayAddress_eq_false hready.master hcall hdue _)
  · exact hready.exec_refused (.addrRead a) (State.mayAddress_eq_false hready.master hcall hdue _)

end Sys2Proof.Machine

namespace Sys2Proof.Machine

/-! ### After a fault or a refusal (R334), and what has a step otherwise -/

/-- The events of R334 that may be inadmissible. -/
def MayBeInadmissible (i : Instr) : Prop :=
  i = .evStart ∨ (∃ w, i = .evShift w) ∨ ∃ st d, i = .envMComplete st d

/-- An outcome of operation i that is a next state, or the stop of an event that is not admissible. -/
def Answers (i : Instr) (o : Out) : Prop := (∃ t, o = .next t) ∨ o = .fault .notAdmissible ∧ MayBeInadmissible i

theorem Answers.next {i : Instr} (t : State) : Answers i (.next t) := .inl ⟨t, rfl⟩

theorem Answers.ite {i : Instr} {p : Prop} [Decidable p] {o o' : Out} (h : Answers i o) (h' : Answers i o') :
    Answers i (if p then o else o') := by
  split
  · exact h
  · exact h'

/-- What the node does not hold is answered by a refusal (R340). -/
theorem Answers.onNode {i : Instr} {s : State} {k : Slave → Out} (h : ∀ n, Answers i (k n)) :
    Answers i (s.onNode k) := by
  unfold State.onNode
  split
  · exact .next _
  · exact h _

theorem Answers.onMaster {i : Instr} {s : State} {k : Master → Out} (h : ∀ m, Answers i (k m)) :
    Answers i (s.onMaster k) := by
  unfold State.onMaster
  split
  · exact .next _
  · exact h _

theorem Answers.onRing {i : Instr} {s : State} {q : Nat} {k : Standalone → Out} (h : ∀ r, Answers i (k r)) :
    Answers i (s.onRing q k) := by
  unfold State.onRing
  split
  · exact .next _
  · exact h _

theorem Answers.masterIssue (i : Instr) (s : State) (a : MAct) : Answers i (s.masterIssue a) := by
  refine .onMaster fun m => ?_
  split
  · exact .next _
  · exact .next _

/-- No operation's own rule stops, but for an event that is not admissible (R334). -/
theorem exec_answers (i : Instr) (s : State) : ∃ run, exec i s = s.admitted i run ∧ Answers i run := by
  cases i with
  | evStart =>
    exact ⟨_, rfl, .onNode fun n => .ite (.next _) (.inr ⟨rfl, .inl rfl⟩)⟩
  | evShift w =>
    exact ⟨_, rfl, .onNode fun n => .ite (.next _) (.inr ⟨rfl, .inr (.inl ⟨w, rfl⟩)⟩)⟩
  | envMComplete st d =>
    exact ⟨_, rfl, .onMaster fun m => .ite (.next _) (.inr ⟨rfl, .inr (.inr ⟨st, d, rfl⟩)⟩)⟩
  | initEngine a => exact ⟨_, rfl, .onNode fun n => .ite (.next _) (.next _)⟩
  | sleep => exact ⟨_, rfl, .onNode fun n => .ite (.next _) (.next _)⟩
  | evOther | sendChar b | charAvailable | receiveChar | armShift k | setLineDriven d | readSr | writeSr v
  | rearmStart => exact ⟨_, rfl, .onNode fun n => .next _⟩
  | rbInit q n =>
    refine ⟨_, rfl, ?_⟩
    split
    · exact .onNode fun x => .next _
    · exact .onNode fun x => .next _
    · exact .next _
  | rbPush q x | rbPop q | rbHasData q =>
    refine ⟨_, rfl, ?_⟩
    split
    · exact .onNode fun n => .next _
    · exact .onNode fun n => .next _
    · exact .onRing fun r => .next _
  | mTransmit a buf len | mReceive a buf len => exact ⟨_, rfl, .onMaster fun m => .next _⟩
  | mhStart | mhWrite v | mhReadAck | mhReadNack | mhStop | mhPoll | mhStatus | mhReadData
  | masterAddrWrite a | masterAddrRead a => exact ⟨_, rfl, .masterIssue _ s _⟩
  | addrGeneralCall | addrOwnWrite a | addrOwnRead a | addrNoMatch a rw | wireAck | wireNack =>
    exact ⟨_, rfl, .next _⟩

/-- No operation charged to a record of a fault or a refusal has a step (R334). -/
theorem exec_of_not_clean {s : State} {i : Instr} {st : Status} (h : s.statusOf (s.instOf i) = some st)
    (hst : st ≠ Status.clean) : exec i s = .fault .quiescent := by
  obtain ⟨run, hrun⟩ := exec_admitted i s
  rw [hrun, State.admit_quiescent run (by rw [h]; exact Status.quiescent_of_ne_clean hst)]

/-- Settles O52: an agent of an engine or a ring is charged there whatever it issues, and past the admission
`exec_answers` says what can stop. -/
theorem quiescentInstanceHasNoStep : Obligations.QuiescentInstanceHasNoStep := by
  refine ⟨fun s i st => exec_of_not_clean, fun s i h => ?_, fun s i hclean hstall => ?_⟩
  · rcases h with ⟨n, hn, hst, hagent⟩ | ⟨m, hm, hst, hagent⟩ | ⟨q, r, hr, hst, hagent⟩
    · refine exec_of_not_clean ?_ hst
      rw [State.instOf_slave i hn hagent, State.statusOf_node hn]
    · refine exec_of_not_clean ?_ hst
      rw [State.instOf_master i hm hagent, State.statusOf_master hm]
    · refine exec_of_not_clean ?_ hst
      rw [State.instOf_ring i hr hagent, State.statusOf, hr, Option.map_some]
  · obtain ⟨run, hrun, hanswers⟩ := exec_answers i s
    rw [hrun]
    rcases State.admit_clean run hclean hstall with hnext | ⟨-, hruns⟩
    · exact .inl hnext
    · rw [hruns]
      exact hanswers

end Sys2Proof.Machine

namespace Sys2Proof.Machine

/-! ### Who may issue what (R340) -/

section
variable {s : State} {i : Instr}

theorem State.onSlave_iff {a : Agent} :
    s.onSlave a = true ↔ s.ctx.agent = a ∧ ∃ n, s.node? = some n ∧ n.isCreated = true := by
  simp [State.onSlave, Option.any_eq_true]

theorem State.mayDriveHal_iff :
    s.mayDriveHal = true ↔ s.ctx.agent = .isr ∧ s.cfg.env = .halBench ∧
      ∃ n, s.node? = some n ∧ n.isCreated = true ∧ n.enabled = false := by
  simp [State.mayDriveHal, Option.any_eq_true, and_assoc]

theorem Slave.pushesRx_iff {n : Slave} : n.pushesRx = true ↔ n.enabled = true ∧ n.state = .waitForData := by
  simp [Slave.pushesRx]

theorem Slave.popsTx_iff {n : Slave} :
    n.popsTx = true ↔ n.enabled = true ∧ (n.state = .sendData ∨ n.state = .waitAck) := by
  simp [Slave.popsTx]

/-- A slave HAL action that R340 lets through is the HAL bench's (log 8). -/
theorem State.mayDriveHal_of_mayIssue (hi : isSlaveHal i = true) (h : s.mayIssue i = true) :
    s.mayDriveHal = true := by
  cases i with
  | armShift k | setLineDriven d | writeSr v | rearmStart => exact h
  | readSr => exact (Bool.and_eq_true_iff.1 h).1
  | _ => cases hi

/-- A wire row that R340 lets through is the environment's, where it clocks bits (log 16). -/
theorem State.wireRow_of_mayIssue (hi : isWireRow i = true) (h : s.mayIssue i = true) :
    s.ctx.agent = .env ∧ s.cfg.env = .bits := by
  cases i with
  | addrGeneralCall | addrOwnWrite a | addrOwnRead a | addrNoMatch a rw | wireAck | wireNack =>
    obtain ⟨hagent, henv⟩ := Bool.and_eq_true_iff.1 h
    exact ⟨beq_iff_eq.1 hagent, beq_iff_eq.1 henv⟩
  | _ => cases hi

/-- Only the agent of its row in R340's table gets an operation through. -/
theorem State.allowedBy340_of_mayIssue (h : s.mayIssue i = true) : AllowedBy340 s s.ctx.agent i := by
  cases i with
  | evStart | evShift w => exact (State.onSlave_iff.1 (Bool.and_eq_true_iff.1 h).1).1
  | evOther | initEngine a | sendChar b | charAvailable | receiveChar | sleep => exact (State.onSlave_iff.1 h).1
  | rbInit q n | rbPush q x | rbPop q | rbHasData q =>
    rcases q with _ | _ | q <;> simp_all [State.mayIssue, AllowedBy340]
  | mTransmit a buf len | mReceive a buf len | envMComplete st d => exact beq_iff_eq.1 (Bool.and_eq_true_iff.1 h).1
  | armShift k | setLineDriven d | readSr | writeSr v | rearmStart =>
    exact (State.mayDriveHal_iff.1 (State.mayDriveHal_of_mayIssue rfl h)).1
  | mhStart | mhWrite v | mhReadAck | mhReadNack | mhStop | mhPoll | mhStatus | mhReadData =>
    exact (State.mayAct_iff.1 h).1
  | masterAddrWrite a | masterAddrRead a => exact (State.mayAct_iff.1 (Bool.and_eq_true_iff.1 h).1).1
  | addrGeneralCall | addrOwnWrite a | addrOwnRead a | addrNoMatch a rw | wireAck | wireNack =>
    exact (State.wireRow_of_mayIssue rfl h).1

/-- No operation of a slave engine gets through on a node that holds none wholly created (log 31, log 23). -/
theorem State.isCreated_of_mayIssue (hi : SlaveOperation i) (h : s.mayIssue i = true) :
    ∃ n, s.node? = some n ∧ n.isCreated = true := by
  cases i with
  | evStart | evShift w => exact (State.onSlave_iff.1 (Bool.and_eq_true_iff.1 h).1).2
  | evOther | initEngine a | sendChar b | charAvailable | receiveChar | sleep => exact (State.onSlave_iff.1 h).2
  | armShift k | setLineDriven d | readSr | writeSr v | rearmStart =>
    obtain ⟨-, -, n, hn, hcreated, -⟩ := State.mayDriveHal_iff.1 (State.mayDriveHal_of_mayIssue rfl h)
    exact ⟨n, hn, hcreated⟩
  | _ => exact absurd hi id

/-- No operation of a master engine gets through on a node that holds none (log 31). -/
theorem State.master?_of_mayIssue (hi : MasterOperation i) (h : s.mayIssue i = true) :
    s.master?.isSome = true := by
  have ofAct : ∀ a, s.mayAct a = true → s.master?.isSome = true := fun a ha => by
    obtain ⟨-, m, hm, -⟩ := State.mayAct_iff.1 ha
    rw [hm, Option.isSome_some]
  cases i with
  | mTransmit a buf len | mReceive a buf len =>
    obtain ⟨m, hm⟩ := exists_of_any (Bool.and_eq_true_iff.1 h).2
    rw [hm, Option.isSome_some]
  | envMComplete st d => exact (Bool.and_eq_true_iff.1 h).2
  | mhStart | mhWrite v | mhReadAck | mhReadNack | mhStop | mhPoll | mhStatus | mhReadData => exact ofAct _ h
  | masterAddrWrite a | masterAddrRead a => exact ofAct _ (Bool.and_eq_true_iff.1 h).1
  | _ => exact absurd hi id

end

/-- Settles O53: each disjunct contradicts what R340 asks of an operation it lets through, so WF_AGENT is the
first check that fails. -/
theorem wrongAgentIsRefused : Obligations.WrongAgentIsRefused := by
  intro s i hclean hstall hshape hk hring hwrong
  refine exec_of_failedCheck hclean hstall
    (State.failedCheck_agent hshape hk hring (Bool.eq_false_iff.2 fun hmay => ?_))
  rcases hwrong with hagent | ⟨hslave, hnone⟩ | ⟨hmaster, hnone⟩ | ⟨rfl, henv⟩ | ⟨⟨w, rfl⟩, henv⟩ |
    ⟨hrow, henv⟩ | ⟨hhal, hbench⟩ | ⟨⟨x, rfl⟩, n, hn, hidle⟩ | ⟨rfl, n, hn, hidle⟩
  · exact hagent (State.allowedBy340_of_mayIssue hmay)
  · obtain ⟨n, hn, hcreated⟩ := State.isCreated_of_mayIssue hslave hmay
    exact Bool.false_ne_true ((hnone n hn).symm.trans hcreated)
  · have hsome := State.master?_of_mayIssue hmaster hmay
    rw [hnone] at hsome
    cases hsome
  · exact Bool.false_ne_true (henv.symm.trans (Bool.and_eq_true_iff.1 hmay).2)
  · exact Bool.false_ne_true (henv.symm.trans (Bool.and_eq_true_iff.1 hmay).2)
  · refine henv (State.wireRow_of_mayIssue ?_ hmay).2
    rcases hrow with rfl | ⟨a, rfl⟩ | ⟨a, rfl⟩ | ⟨a, rw, rfl⟩ | rfl | rfl <;> rfl
  · have hi : isSlaveHal i = true := by
      rcases hhal with ⟨k, rfl⟩ | ⟨d, rfl⟩ | rfl | ⟨v, rfl⟩ | rfl <;> rfl
    obtain ⟨-, henv, n, hn, -, hdisabled⟩ := State.mayDriveHal_iff.1 (State.mayDriveHal_of_mayIssue hi hmay)
    rcases hbench with hbench | ⟨m, hm, henabled⟩
    · exact hbench henv
    · cases hn.symm.trans hm
      exact Bool.false_ne_true (hdisabled.symm.trans henabled)
  · obtain ⟨m, hm, hpushes⟩ := (Option.any_eq_true ..).1 (Bool.and_eq_true_iff.1 hmay).2
    cases hn.symm.trans hm
    obtain ⟨henabled, hstate⟩ := Slave.pushesRx_iff.1 hpushes
    simp [henabled, hstate] at hidle
  · obtain ⟨m, hm, hpops⟩ := (Option.any_eq_true ..).1 (Bool.and_eq_true_iff.1 hmay).2
    cases hn.symm.trans hm
    obtain ⟨henabled, hstate⟩ := Slave.popsTx_iff.1 hpops
    rcases hstate with hstate | hstate <;> simp [henabled, hstate] at hidle

end Sys2Proof.Machine

namespace Sys2Proof.Machine

/-! ### What only grows: the records (R48, R49, R334) and the traces (R46, R56) -/

/-- Fault codes stay, and a refusal stands as it was. -/
structure Status.Grows (st st' : Status) : Prop where
  faults  : ∀ c ∈ st.faults, c ∈ st'.faults
  refusal : st.refusal.isSome = true → st'.refusal = st.refusal

theorem Status.Grows.refl (st : Status) : st.Grows st := ⟨fun _ => id, fun _ => rfl⟩

theorem Status.Grows.of_eq {st st' : Status} (h : st' = st) : st.Grows st' := h ▸ .refl st

theorem Status.Grows.trans {a b c : Status} (h : a.Grows b) (k : b.Grows c) : a.Grows c where
  faults x hx := k.faults x (h.faults x hx)
  refusal hx := (k.refusal ((h.refusal hx).symm ▸ hx)).trans (h.refusal hx)

theorem Status.grows_addFault (c : FaultCode) (st : Status) : st.Grows (st.addFault c) :=
  ⟨fun _ hx => mem_addFault.2 (.inl hx), fun _ => rfl⟩

theorem Status.grows_refuse (r : RefuseReason) (st : Status) : st.Grows (st.refuse r) := by
  refine ⟨fun _ => id, fun hst => ?_⟩
  obtain ⟨x, hx⟩ := Option.isSome_iff_exists.1 hst
  rw [Status.refusal_refuse, hx, Option.getD_some]

/-- A node's record and its hal.trace only grow. -/
structure Slave.Grows (n m : Slave) : Prop where
  status : n.status.Grows m.status
  trace  : ∃ l, m.trace = n.trace ++ l

theorem Slave.Grows.refl (n : Slave) : n.Grows n := ⟨.refl _, [], (List.append_nil _).symm⟩

theorem Slave.Grows.trans {a b c : Slave} (h : a.Grows b) (k : b.Grows c) : a.Grows c := by
  obtain ⟨l, hl⟩ := h.trace
  obtain ⟨l', hl'⟩ := k.trace
  exact ⟨h.status.trans k.status, l ++ l', by rw [hl', hl, List.append_assoc]⟩

/-- A node that keeps its record and its trace. -/
theorem Slave.Grows.of_eq {n m : Slave} (hstatus : m.status = n.status := by rfl)
    (htrace : m.trace = n.trace := by rfl) : n.Grows m :=
  ⟨.of_eq hstatus, [], by rw [htrace, List.append_nil]⟩

theorem Slave.grows_mapStatus {f : Status → Status} (hf : ∀ st : Status, st.Grows (f st)) (n : Slave) :
    n.Grows (n.mapStatus f) := ⟨hf _, [], (List.append_nil _).symm⟩

theorem Slave.grows_refuseCorrupt (n : Slave) : n.Grows n.refuseCorrupt := n.grows_mapStatus (Status.grows_refuse _)

section
variable {n m : Slave}

/-- A HAL action is appended to the trace, and touches no record (R160). -/
theorem Slave.Grows.record (h : n.Grows m) (a : SAct) : n.Grows (m.record a) :=
  h.trans ⟨.refl _, [a], rfl⟩

theorem Slave.Grows.armShift (h : n.Grows m) (k : Nat) : n.Grows (m.armShift k) :=
  (h.trans (.of_eq (m := { m with armed := k }))).record _

theorem Slave.Grows.setLineDriven (h : n.Grows m) (d : Bool) : n.Grows (m.setLineDriven d) :=
  (h.trans (.of_eq (m := { m with driven := d }))).record _

theorem Slave.Grows.readSr (h : n.Grows m) : n.Grows m.readSr := h.record _

theorem Slave.Grows.writeSr (h : n.Grows m) (v : Byte) : n.Grows (m.writeSr v) :=
  (h.trans (.of_eq (m := { m with sr := v }))).record _

theorem Slave.Grows.rearmStart (h : n.Grows m) : n.Grows m.rearmStart :=
  (h.trans (.of_eq (m := { m with driven := false, armed := 0 }))).record _

theorem Slave.Grows.goto (h : n.Grows m) (st : SlaveState) : n.Grows (m.goto st) := h.trans .of_eq

theorem Slave.Grows.sendAck (h : n.Grows m) : n.Grows m.sendAck := ((h.armShift 1).writeSr 0x00).setLineDriven true

theorem Slave.Grows.sendDataLogic (h : n.Grows m) : n.Grows m.sendDataLogic := by
  unfold Slave.sendDataLogic
  split
  · next b tx _ =>
    exact ((((h.trans (.of_eq (m := { m with tx := tx }))).writeSr b).setLineDriven true).armShift 8).goto _
  · exact h.rearmStart.goto _

end

/-- Every handler only adds HAL actions; the dispatch refuses the encoding 7 (R200). -/
theorem Slave.grows_shiftHandler (n : Slave) : n.Grows n.shiftHandler := by
  have h : n.Grows n := .refl n
  unfold Slave.shiftHandler
  split
  · exact h
  · unfold Slave.onAddress
    dsimp only
    split
    · exact h.readSr.sendAck.goto _
    · exact h.readSr.rearmStart.goto _
  · exact ((h.armShift 8).setLineDriven false).goto _
  · unfold Slave.onData
    dsimp only
    split
    · next rx _ => exact (h.readSr.trans (.of_eq (m := { n.readSr with rx := rx }))).sendAck.goto _
    · exact ((h.readSr.setLineDriven false).armShift 1).goto _
  · exact h.sendDataLogic
  · exact ((h.armShift 1).setLineDriven false).goto _
  · unfold Slave.onWaitAck
    dsimp only
    split
    · exact h.readSr.rearmStart.goto _
    · exact h.readSr.sendDataLogic
  · exact n.grows_refuseCorrupt

theorem Slave.grows_evStart (n : Slave) : n.Grows n.evStart :=
  (((Slave.Grows.of_eq (m := { n with armed := 0, sleeping := false })).armShift 8).setLineDriven false).goto _

theorem Slave.grows_evShift (free w : Byte) (n : Slave) : n.Grows (n.evShift free w) := by
  unfold Slave.evShift
  split
  · exact n.grows_refuseCorrupt
  · exact Slave.Grows.trans .of_eq (Slave.grows_shiftHandler _)

theorem Slave.grows_busStart (n : Slave) : n.Grows n.busStart := by
  unfold Slave.busStart
  split
  · exact n.grows_evStart
  · exact .refl n

theorem Slave.grows_busSlot (n : Slave) (v : Bool) : n.Grows (n.busSlot v) := by
  rcases n.busSlot_cases v with h | ⟨-, -, ⟨-, -, h⟩ | ⟨-, -, h⟩ | ⟨-, h⟩⟩ <;> rw [h]
  · exact .refl n
  · exact n.grows_refuseCorrupt
  · exact Slave.Grows.trans .of_eq (Slave.grows_shiftHandler _)
  · exact .of_eq

theorem NodeChange.grows {p : Params} {n m : Slave} (h : NodeChange p n m) : n.Grows m := by
  cases h with
  | start => exact n.grows_evStart
  | shift free w => exact n.grows_evShift free w
  | init a => exact ((Slave.Grows.of_eq (m := { n with own := toAddr7 a })).goto _).rearmStart.trans .of_eq
  | other | result | pushRx | pushTx | popRx | popTx | sleep | createRx | createTx => exact .of_eq

theorem BareChange.grows {n m : Slave} (hc : BareChange n m) : n.Grows m := by
  have h : n.Grows n := .refl n
  cases hc with
  | armShift k => exact h.armShift k
  | setLineDriven d => exact h.setLineDriven d
  | readSr r => exact h.readSr.trans .of_eq
  | writeSr v => exact h.writeSr v
  | rearmStart => exact h.rearmStart

theorem NodeRel.grows (p : Params) : NodeRel p Slave.Grows where
  refl := .refl
  raised n c := n.grows_mapStatus (Status.grows_addFault c)
  refused n r := n.grows_mapStatus (Status.grows_refuse r)
  change _ _ := NodeChange.grows
  bare _ _ _ _ := BareChange.grows
  busStart _ := Slave.grows_busStart
  busSlots _ n vs := busSlots_of .refl (fun _ _ _ => .trans) Slave.grows_busSlot vs n

/-- A master's record and its mh.trace only grow. -/
structure Master.Grows (m m' : Master) : Prop where
  status : m.status.Grows m'.status
  trace  : ∃ l, m'.trace = m.trace ++ l

theorem Master.Grows.refl (m : Master) : m.Grows m := ⟨.refl _, [], (List.append_nil _).symm⟩

theorem Master.grows_mapStatus {f : Status → Status} (hf : ∀ st : Status, st.Grows (f st)) (m : Master) :
    m.Grows (m.mapStatus f) := ⟨hf _, [], (List.append_nil _).symm⟩

/-- A step of the call appends its action (R264). -/
theorem Master.grows_callStep (p : Params) (a : MAct) (c : Call) (mem : Memory) (m : Master) :
    m.Grows { m.callStep p a c with mem := mem } := by
  obtain ⟨hstatus, htrace⟩ := Master.callStep_records p a c m
  exact ⟨.of_eq hstatus, [a], htrace⟩

theorem MasterChange.grows {p : Params} {m m' : Master} (h : MasterChange p m m') : m.Grows m' := by
  cases h with
  | raised c => exact m.grows_mapStatus (Status.grows_addFault c)
  | refused r => exact m.grows_mapStatus (Status.grows_refuse r)
  | begin_ => exact Master.grows_callStep ..
  | call => exact Master.grows_callStep ..
  | complete st d => exact ⟨.refl _, [], (List.append_nil _).symm⟩

/-- No operation on a stand-alone ring touches its record. -/
theorem RingChange.status {r r' : Standalone} (h : RingChange r r') : r'.status = r.status := by
  cases h <;> rfl

/-! ### The records of issuers that are agents of no engine and no ring (log 13) -/

/-- The record of every issuer of one list only grows in the other. -/
def OutsideGrows (l l' : List (Outsider × Status)) : Prop := ∀ d, (recordOf l d).Grows (recordOf l' d)

theorem OutsideGrows.refl (l : List (Outsider × Status)) : OutsideGrows l l := fun _ => .refl _

theorem OutsideGrows.mapStatus (s : State) (k : Inst) {f : Status → Status} (hf : ∀ st : Status, st.Grows (f st)) :
    OutsideGrows s.outside (s.mapStatus k f).outside := by
  cases k with
  | outside c =>
    intro d
    simp only [State.mapStatus, recordOf_setRecord]
    split
    · next hd => exact hd ▸ hf _
    · exact .refl _
  | slave j | master j | ring q => exact .refl _

theorem exec_outsideGrows {s t : State} {i : Instr} (h : ExecNext i s t) : OutsideGrows s.outside t.outside := by
  cases h with
  | refused c => exact .mapStatus s _ (Status.grows_refuse _)
  | raised c => exact .mapStatus s _ (Status.grows_addFault c)
  | wire bits =>
    obtain ⟨vs, -, h⟩ := State.wireBits_frame bits s
    rw [h]
    exact .refl _
  | node | bare | ring | newRing | begin_ | call | complete => exact .refl _

theorem step_outsideGrows {s t : State} (h : step s = .next t) : OutsideGrows s.outside t.outside := by
  cases step_next h with
  | sched l => exact .refl _
  | exec i c l sc t h => exact exec_outsideGrows (s := { s with ctx := c, sched := l, scripts := sc }) h
  | symbol j x xs l => rw [State.carrySym_frame]; exact .refl _
  | undecoded c l k => exact OutsideGrows.mapStatus { s with ctx := c, sched := l } k (Status.grows_refuse _)

theorem step_slaves_grow {s t : State} (h : step s = .next t) : NodesRel Slave.Grows s.slaves t.slaves :=
  step_nodes (NodeRel.grows s.cfg) h

theorem step_masters_grow {s t : State} (h : step s = .next t) : MastersRel Master.Grows s.masters t.masters :=
  step_masters .refl (fun _ _ => MasterChange.grows) h

theorem step_rings_grow {s t : State} (h : step s = .next t) :
    RingsRel (fun r r' => r.status.Grows r'.status) s t :=
  step_rings (fun _ => .refl _) (fun _ c => Status.grows_addFault c _) (fun _ r => Status.grows_refuse r _)
    (fun _ _ hc => .of_eq hc.status) h

/-- The master engine of a node after masters are related node by node. -/
theorem MastersRel.exists_masterAt {R : Master → Master → Prop} {s t : State} {j : Nat} {m : Master}
    (h : MastersRel R s.masters t.masters) (hm : s.masterAt j = some m) :
    ∃ m', t.masterAt j = some m' ∧ R m m' := by
  obtain ⟨m', hm', hrel⟩ := (h.2 j).2 m (State.masters_lt hm).1
  exact ⟨m', by rw [State.masterAt, hm', Option.join_some], hrel⟩

/-- Every record is still there after a step, and has only grown (R334). -/
theorem step_statusOf_grows {s t : State} {k : Inst} {st : Status} (h : step s = .next t)
    (hst : s.statusOf k = some st) : ∃ st', t.statusOf k = some st' ∧ st.Grows st' := by
  cases k with
  | slave j =>
    obtain ⟨n, hn, rfl⟩ := Option.map_eq_some_iff.1 hst
    have hlt : j < t.slaves.length := step_slaves_length h ▸ (List.getElem?_eq_some_iff.1 hn).1
    have hm : t.slaves[j]? = some t.slaves[j] := List.getElem?_eq_getElem hlt
    exact ⟨_, Option.map_eq_some_iff.2 ⟨_, hm, rfl⟩, (step_slaves_grow h j n _ hn hm).status⟩
  | master j =>
    obtain ⟨m, hm, rfl⟩ := Option.map_eq_some_iff.1 hst
    obtain ⟨m', hm', hgrows⟩ := (step_masters_grow h).exists_masterAt hm
    exact ⟨_, Option.map_eq_some_iff.2 ⟨m', hm', rfl⟩, hgrows.status⟩
  | ring q =>
    obtain ⟨r, hr, rfl⟩ := Option.map_eq_some_iff.1 hst
    obtain ⟨r', hr', hgrows⟩ := step_rings_grow h q r hr
    exact ⟨_, Option.map_eq_some_iff.2 ⟨r', hr', rfl⟩, hgrows⟩
  | outside c =>
    cases hst
    exact ⟨_, rfl, step_outsideGrows h c⟩

/-- Settles O58: `Slave.Grows` and `Master.Grows` hold over every change of a node and of a master, and records
of rings and issuers change by raising and refusing alone. -/
theorem recordsAreNeverCleared : Obligations.RecordsAreNeverCleared := by
  refine fun s t h => ⟨fun k st hst => ?_, fun j n m hn hm => ?_, fun j m m' hm hm' => ?_⟩
  · obtain ⟨st', hst', hfaults, hrefusal⟩ := step_statusOf_grows h hst
    exact ⟨st', hst', hfaults, hrefusal⟩
  · exact (step_slaves_grow h j n m hn hm).trace
  · obtain ⟨x, hx, hgrows⟩ := (step_masters_grow h).exists_masterAt hm
    cases hm'.symm.trans hx
    exact hgrows.trace

end Sys2Proof.Machine

namespace Sys2Proof.Machine

/-! ### What an operation leaves unchanged beside what it is charged to (R343) -/

/-- The frame of an operation charged to k: every other engine, ring and record is as it was. Bits on the wire
alone, charged to an issuer's own record, move nodes besides. -/
def Frame (s t : State) : Inst → Prop
  | .slave j => t.masters = s.masters ∧ t.rings = s.rings ∧ t.outside = s.outside ∧ t.bus = s.bus ∧
      ∀ k, k ≠ j → t.slaves[k]? = s.slaves[k]?
  | .master j => t.slaves = s.slaves ∧ t.rings = s.rings ∧ t.outside = s.outside ∧
      ∀ k, k ≠ j → t.masterAt k = s.masterAt k
  | .ring q => t.slaves = s.slaves ∧ t.masters = s.masters ∧ t.outside = s.outside ∧ t.bus = s.bus ∧
      ∀ p, p ≠ q → t.ring? p = s.ring? p
  | .outside c => t.masters = s.masters ∧ (s.cfg.env ≠ .bits → t.slaves = s.slaves ∧ t.bus = s.bus) ∧
      (∀ q r, s.ring? q = some r → t.ring? q = some r) ∧
      ∀ d, d ≠ c → t.statusOf (.outside d) = s.statusOf (.outside d)

/-- An update of the ring q that keeps its number is not seen at another number. -/
theorem find?_modifyRing_ne {l : List Standalone} {p q : Nat} {f : Standalone → Standalone} (hp : p ≠ q)
    (hf : ∀ r, r.q = q → (f r).q = q) :
    (modifyRing l q f).find? (fun r => r.q == p) = l.find? (fun r => r.q == p) := by
  have hsame : ((fun r : Standalone => r.q == p) ∘ fun r => if r.q == q then f r else r) = fun r => r.q == p := by
    funext r
    dsimp only [Function.comp]
    split
    · next hr => rw [beq_iff_eq] at hr; rw [hf r hr, hr]
    · rfl
  rw [modifyRing, List.find?_map, hsame]
  cases hfind : l.find? (fun r => r.q == p) with
  | none => rfl
  | some r =>
    have hr : r.q = p := by simpa using List.find?_some hfind
    rw [Option.map_some, if_neg (by simpa [hr] using hp)]

/-- Recording a fault or a refusal stays within what is charged. -/
theorem Frame.mapStatus (s : State) (k : Inst) (f : Status → Status) : Frame s (s.mapStatus k f) k := by
  cases k with
  | slave j => exact ⟨rfl, rfl, rfl, rfl, fun k hk => List.getElem?_modify_ne _ _ hk.symm⟩
  | master j =>
    exact ⟨rfl, rfl, rfl, fun k hk => congrArg Option.join (List.getElem?_modify_ne _ _ hk.symm)⟩
  | ring q => exact ⟨rfl, rfl, rfl, rfl, fun p hp => find?_modifyRing_ne hp fun _ => id⟩
  | outside c =>
    exact ⟨rfl, fun _ => ⟨rfl, rfl⟩, fun _ _ => id, fun d hd => s.statusOf_mapStatus_ne (by simpa using hd) f⟩

/-- An operation that moves the issuing node alone. -/
theorem Frame.putNode (s : State) (m : Slave) (d : Nat) :
    Frame s { s.putNode m with draws := d } (.slave s.ctx.node) :=
  ⟨rfl, rfl, rfl, rfl, fun _ hk => List.getElem?_set_ne hk.symm⟩

/-- An operation that moves the issuing node's master alone, the wire apart. -/
theorem Frame.of_putMaster {s t : State} {m : Master} (hslaves : t.slaves = s.slaves) (hrings : t.rings = s.rings)
    (houtside : t.outside = s.outside) (hmasters : t.masters = (s.putMaster m).masters) :
    Frame s t (.master s.ctx.node) := by
  refine ⟨hslaves, hrings, houtside, fun k hk => ?_⟩
  rw [State.masterAt, hmasters]
  exact congrArg Option.join (List.getElem?_set_ne hk.symm)

/-- Every operation stays within what it is charged to. -/
theorem exec_frame {s t : State} {i : Instr} (h : ExecNext i s t) : Frame s t (s.instOf i) := by
  cases h with
  | refused c => exact .mapStatus s _ _
  | raised c => exact .mapStatus s _ _
  | node n m d hi => exact hi ▸ .putNode s m d
  | bare n m hi => exact hi ▸ .putNode s m s.draws
  | ring q r r' hi hr hc =>
    have hq : r'.q = q := hc.q_eq.trans (State.ring?_q hr)
    rw [hi]
    exact ⟨rfl, rfl, rfl, rfl, fun p hp => find?_modifyRing_ne (hq ▸ hp) fun _ _ => rfl⟩
  | newRing q l d hi =>
    rw [hi]
    refine ⟨rfl, fun _ => ⟨rfl, rfl⟩, fun p r hr => ?_, fun _ _ => rfl⟩
    exact (List.find?_append ..).trans (by rw [← State.ring?, hr, Option.some_or])
  | wire bits _ hi henv =>
    obtain ⟨vs, -, h⟩ := State.wireBits_frame bits s
    rw [hi, h]
    exact ⟨rfl, fun hne => absurd henv hne, fun _ _ => id, fun _ _ => rfl⟩
  | begin_ rw a buf len m hi => exact hi ▸ .of_putMaster rfl rfl rfl rfl
  | call a c c' m hi => exact hi ▸ .of_putMaster rfl rfl rfl rfl
  | complete st d m hi => exact hi ▸ .of_putMaster rfl rfl rfl rfl

/-- Settles O60: what the issuer is an agent of is charged whatever it issues, and `exec_frame` gives the rest. -/
theorem instancesShareNoState : Obligations.InstancesShareNoState := by
  intro s t i h
  have hframe := exec_frame (exec_next h)
  have hcharged := Charged.instOf s i
  refine ⟨fun n hn ha => State.instOf_slave i hn ha, fun m hm ha => State.instOf_master i hm ha,
    fun q r hr ha => State.instOf_ring i hr ha, fun j hj => ?_, fun j hj => ?_, fun q hq => ?_, fun c hc => ?_⟩
  · rw [hj] at hframe hcharged
    cases hcharged
    exact ⟨rfl, hframe⟩
  · rw [hj] at hframe hcharged
    cases hcharged
    exact ⟨rfl, hframe⟩
  · rw [hq] at hframe hcharged
    cases hcharged with
    | ring _ r hr ha => exact ⟨ha, hframe⟩
  · rw [hc] at hframe hcharged
    cases hcharged
    exact ⟨rfl, hframe⟩

end Sys2Proof.Machine

namespace Sys2Proof.Machine

/-! ### The registers after creation and after reset (R370) -/

/-- The slave engines of a creation are the created ones. -/
theorem State.mem_slaves_created {p : Params} {rings : List (Nat × Nat)} {masters : List Bool} {n : Slave} :
    n ∈ (State.created p rings masters).slaves ↔ ∃ c ∈ rings, Slave.created p c.1 c.2 = n :=
  List.mem_map

/-- Every master engine of a creation is the created one. -/
theorem State.eq_created_of_mem_masters {p : Params} {rings : List (Nat × Nat)} {masters : List Bool} {m : Master}
    (hm : some m ∈ (State.created p rings masters).masters) : m = Master.created := by
  obtain ⟨b, -, hb⟩ := List.mem_map.1 hm
  cases b <;> cases hb
  rfl

/-- A creation records at most a refusal (R333), never a fault. -/
theorem Slave.created_faults (p : Params) (rx tx : Nat) : (Slave.created p rx tx).status.faults = [] := by
  dsimp only [Slave.created]
  split <;> rfl

/-- With admitted capacities the creation refuses nothing, and both rings exist with these capacities (R140). -/
theorem Slave.created_of_configOk {p : Params} {rx tx : Nat} (hrx : ringConfigOk p.indexBits rx = true)
    (htx : ringConfigOk p.indexBits tx = true) :
    let n := Slave.created p rx tx
    n.status = Status.clean ∧ n.rxCreated = true ∧ n.rx.n = rx ∧ n.txCreated = true ∧ n.tx.n = tx := by
  simp [Slave.created, Ring.created, hrx, htx]

/-- Settles O54: each engine of a creation is the created one, whose registers are read off its definition;
reset creates one slave node, with the admitted capacities 4 and 4. -/
theorem registersAfterReset : Obligations.RegistersAfterReset := by
  refine ⟨fun p rings masters => ⟨fun n hn => ?_, fun m hm => ?_, rfl⟩, fun p rx tx hrx hrxMax htx htxMax => ?_,
    fun n hn => ?_⟩
  · obtain ⟨c, -, rfl⟩ := State.mem_slaves_created.1 hn
    exact ⟨rfl, rfl, rfl, rfl, rfl, rfl, rfl, rfl, rfl, rfl, Slave.created_faults p c.1 c.2⟩
  · obtain rfl := State.eq_created_of_mem_masters hm
    exact ⟨rfl, rfl, rfl, rfl, rfl⟩
  · exact Slave.created_of_configOk (ringConfigOk_iff.2 ⟨hrx, hrxMax⟩) (ringConfigOk_iff.2 ⟨htx, htxMax⟩)
  · obtain ⟨c, hc, rfl⟩ := State.mem_slaves_created.1 hn
    obtain rfl := List.mem_singleton.1 hc
    have hfour : ringConfigOk Params.default.indexBits 4 = true := by decide
    exact (Slave.created_of_configOk hfour hfour).1

end Sys2Proof.Machine
